-- ==== Sys2Proof/Word.lean ====
section
/-! DEFINITION. The word types of the SWLTG: each is what the spec treats as a string of bits (00_scope.md R11). -/

namespace Sys2Proof

/-- A command word: one 32-bit unit on the command port (30_encoding.md R52; CMD_W = 32). -/
abbrev CommandWord := BitVec 32

/-- A ColorWord: 24 bits, bit 0 the first on the wire (00_scope.md R8, WORD_BITS = 24). -/
abbrev ColorWord := BitVec 24

/-- A count of words (CNT_W = 24). -/
abbrev WordCount := BitVec 24

/-- A pin index as a command gives it (PIN_W = 8). -/
abbrev PinIndex := BitVec 8

/-- A segment count (SEG_W = 16). -/
abbrev SegCount := BitVec 16

/-- A value of the port register or of the pin mask. PORT_WIDTH is a parameter between 1 and 256
(92_eei_decisions.md, "Open parameters"); the value stands in 256 bits, the bits at and above PORT_WIDTH zero. -/
abbrev PortWord := BitVec 256

end Sys2Proof
end

