-- ==== Sys2Proof/Machine/Operands.lean ====
section
/-! DEFINITION. Operand assembly (30_encoding.md R53, R55, R57): every operand is an unsigned field taken as it
stands, and the pin index map (20_memory.md R39, 41_gpio_line.md R65). -/

namespace Sys2Proof

/-- `op = cw[31:28]` (R53). -/
def opField (cw : CommandWord) : BitVec 4 := cw.extractLsb' 28 4

/-- `pin = cw[7:0]` (R55). -/
def pinField (cw : CommandWord) : PinIndex := cw.extractLsb' 0 8

/-- `seg = cw[23:8]` (R55). -/
def segField (cw : CommandWord) : SegCount := cw.extractLsb' 8 16

/-- `word = cw[23:0]` (R55), and a payload word's ColorWord, bits 31:24 ignored (R57). -/
def colorField (cw : CommandWord) : ColorWord := cw.extractLsb' 0 24

/-- `count = cw[23:0]` (R55). -/
def countField (cw : CommandWord) : WordCount := cw.extractLsb' 0 24

/-- The operand latch of CONSTRUCT: seg above pin, as in its header (45_strip_controller.md R98). -/
def packConstruct (pin : PinIndex) (seg : SegCount) : BitVec 24 := seg ++ pin

/-- The pin index in the operand latch. -/
def latchedPin (l : BitVec 24) : PinIndex := l.extractLsb' 0 8

/-- The segment count in the operand latch. -/
def latchedSeg (l : BitVec 24) : SegCount := l.extractLsb' 8 16

/-- PinValid(p): the index is below PORT_WIDTH (41_gpio_line.md R65). -/
def pinValid (portWidth : Nat) (p : PinIndex) : Bool := decide (p.toNat < portWidth)

/-- The pin index map (20_memory.md R39): bit p for a valid index, the null mask for every other. -/
def maskOfPin (portWidth : Nat) (p : PinIndex) : PortWord :=
  if pinValid portWidth p then 1#256 <<< p.toNat else 0#256

/-- The bits of PORT that exist. -/
def portMask (portWidth : Nat) : PortWord := BitVec.ofNat 256 (2 ^ portWidth - 1)

end Sys2Proof
end

