-- ==== Sys2Proof/Config.lean ====
section
/-! DEFINITION. The configuration record of 00_scope.md R8, fixed before the first cycle (R9), and the free values. -/

namespace Sys2Proof

/-- MASK_POLICY (46_interrupt_sync.md R106). -/
inductive MaskPolicy where
  /-- Only SENDPATTERN has a masked section. -/
  | reference
  /-- CLEAR and SEND have one too. -/
  | uniform
  deriving DecidableEq, Repr

/-- The parameters of 00_scope.md R8 that are not fixed widths, each with the default of parameter set P-REF.
T_RST is not a field: R10 derives it (Machine/Timing.lean). -/
structure Params where
  /-- PORT_WIDTH. -/
  portWidth : Nat := 8
  /-- SEG_DEFAULT, used by the assembler only (30_encoding.md R63). -/
  segDefault : Nat := 10
  /-- T1H. -/
  t1h : Nat := 28
  /-- T0H. -/
  t0h : Nat := 9
  /-- T0L. -/
  t0l : Nat := 3
  /-- T1L. -/
  t1l : Nat := 0
  /-- T_RESET_NS. -/
  tResetNs : Nat := 24000
  /-- F_CLK_HZ: OPEN in the spec. PRESUMED 16 MHz, P-REF's example value (93_implementation_defined.md G1; log entry 6). -/
  fClkHz : Nat := 16000000
  /-- F_CAL_HZ: OPEN in the spec; P-REF takes F_CLK_HZ. -/
  fCalHz : Nat := 16000000
  /-- C_DRIVE. -/
  cDrive : Nat := 1
  /-- G_BIT: OPEN in the spec; P-REF uses 0. -/
  gBit : Nat := 0
  /-- C_SYNC. -/
  cSync : Nat := 1
  /-- C_CFG. -/
  cCfg : Nat := 1
  /-- MASK_POLICY. -/
  maskPolicy : MaskPolicy := .reference
  deriving DecidableEq, Repr

/-- Parameter set P-REF (00_scope.md R8). -/
def Params.pRef : Params := {}

/-- The constraints of 92_eei_decisions.md, "Open parameters, collected" (T_RST >= 1 stands as a positive
T_RESET_NS, from which R10 derives it). -/
def Params.legal (c : Params) : Bool :=
  decide (1 ≤ c.portWidth) && decide (c.portWidth ≤ 256) && decide (1 ≤ c.t0h) && decide (c.t0h < c.t1h) &&
  decide (1 ≤ c.tResetNs) && decide (1 ≤ c.fClkHz) && decide (1 ≤ c.fCalHz) &&
  decide (1 ≤ c.cDrive) && decide (1 ≤ c.cSync) && decide (1 ≤ c.cCfg)

/-! The free values (10_state.md R26, R34; 93_implementation_defined.md U9: "any value, never read"; log entry 3).
Each is applied to State's counter `draws`, so that two draws have nothing in common. -/

/-- What IE_SAVED holds after hardware reset. -/
opaque Config.freeIeSaved : Nat → Bool
/-- What WORD holds after hardware reset or a completed command. -/
opaque Config.freeWord : Nat → ColorWord
/-- What NEXT holds after hardware reset or a completed command. -/
opaque Config.freeNext : Nat → ColorWord
/-- What BITMASK holds after hardware reset or a completed command. -/
opaque Config.freeBitmask : Nat → BitVec 24
/-- What DLY holds after hardware reset or a completed command. -/
opaque Config.freeDly : Nat → Nat
/-- What the operand latch holds after hardware reset or a completed command. -/
opaque Config.freeLatch : Nat → BitVec 24

end Sys2Proof
end

