-- ==== Sys2Proof/Machine/State.lean ====
section
/-! DEFINITION. The state of the SWLTG and of its environment, as plain data (10_state.md; INVENTORY.md, "State"). -/

namespace Sys2Proof.Machine

/-- PHASE (10_state.md R28). -/
inductive Phase where
  | idle | cfg | rstDrive | rstHold | syncMask | syncRestore | fetch
  | bitRise | bitHigh | bitFall | bitLow | bitGap
  deriving DecidableEq, Repr

/-- CMD (10_state.md R28): the command being executed. -/
inductive Cmd where
  | none | construct | clear | send | sendPattern
  deriving DecidableEq, Repr

/-- The inputs of one cycle but for the command port (10_state.md R32), and what the port environment does to PORT
in that cycle (R31). -/
structure PinIn where
  /-- `rst`. -/
  rst : Bool := false
  /-- `stall`. -/
  stall : Bool := false
  /-- `ie_we`. -/
  ieWe : Bool := false
  /-- `ie_wdata`. -/
  ieData : Bool := false
  /-- The bits of PORT another owner sets in this cycle. -/
  envSet : PortWord := 0#256
  /-- The bits of PORT another owner clears in this cycle. -/
  envClr : PortWord := 0#256
  deriving DecidableEq, Repr

/-- A cycle in which nobody outside does anything. -/
def PinIn.quiet : PinIn := {}

/-- A word of the command stream: the host leaves `cmd_valid` at 0 for `delay` cycles, then presents `data` until it
is accepted (30_encoding.md R56; log entry 9). -/
structure HostWord where
  delay : Nat := 0
  data : CommandWord
  deriving DecidableEq, Repr

/-- What is seen from outside in one cycle: the outputs of 10_state.md R32, PORT (R31) and the line (00_scope.md R14). -/
structure Obs where
  cmdReady : Bool
  portSet : PortWord
  portClr : PortWord
  ieOut : Bool
  busy : Bool
  disabled : Bool
  /-- PORT during the cycle. -/
  port : PortWord
  /-- `line(t) = PORT[PIN]`, on an enabled line only. -/
  line : Option Bool
  deriving DecidableEq, Repr

/-- The state. Registers of 10_state.md R17 to R28, the operand latch of 45_strip_controller.md R98, the external
PORT register (R31); then the environment's coming inputs, the configuration (00_scope.md R8) and the model's own
fields `cycle`, `trace`, `draws`. -/
structure State where
  /-- PIN. -/
  pin : PinIndex
  /-- PINMASK. -/
  pinmask : PortWord
  /-- SEGCOUNT. -/
  segcount : SegCount
  /-- IE. -/
  ie : Bool
  /-- IE_SAVED. -/
  ieSaved : Bool
  /-- WORD. -/
  word : ColorWord
  /-- BITMASK. -/
  bitmask : BitVec 24
  /-- DLY: the advancing cycles left in the present phase, this one included (R23; log entry 17). -/
  dly : Nat
  /-- WCNT. -/
  wcnt : WordCount
  /-- FCNT. -/
  fcnt : WordCount
  /-- NEXT. -/
  nextWord : ColorWord
  /-- NEXT_VALID. -/
  nextValid : Bool
  /-- CMD. -/
  cmd : Cmd
  /-- PHASE. -/
  phase : Phase
  /-- The operand latch (45_strip_controller.md R98; log entry 16). -/
  latch : BitVec 24
  /-- PORT, the external port register. -/
  port : PortWord
  /-- The inputs of the coming cycles, the present one first. -/
  pins : List PinIn
  /-- `stall` in every cycle past the end of `pins`: when it is set, a stall that never ends (70_reset_and_hazards.md R138; log entry 10). -/
  stallAfter : Bool
  /-- The words the host has still to present, the next one first. -/
  host : List HostWord
  /-- The configuration; nothing writes it. -/
  cfg : Params
  /-- The number of the present cycle (00_scope.md R12). -/
  cycle : Nat
  /-- The cycles that have passed, the latest first. -/
  trace : List Obs
  /-- How many times free values have been drawn (log entry 3). -/
  draws : Nat
  deriving DecidableEq, Repr

/-- The block raises nothing: "it never faults" (60_exceptions.md R118), so there is no reason to stop with a fault. -/
inductive Fault where
  deriving DecidableEq, Repr

/-- The reasons the model stops without an answer. -/
inductive Refusal where
  /-- Raised by `exec` for an instruction without a meaning (none is left). Safe: the model stops. -/
  | notModelled (mnemonic : String)
  /-- Raised in a clock cycle in which the port environment writes the bit of PORT that PINMASK selects: a second
  writer of the owned bit, which 93_implementation_defined.md U1 says to refuse. Safe: the model stops. -/
  | secondWriter
  deriving DecidableEq, Repr

/-- The machine right after hardware reset (10_state.md R34), with parameter set P-REF, nothing presented and nothing
scheduled. IE_SAVED, WORD, BITMASK, DLY, NEXT and the latch are unspecified there: DESIGN CHOICE zero (log entry 2). PORT
is not reset and unspecified: DESIGN CHOICE zero (log entry 5). -/
def State.reset : State where
  pin := 0#8
  pinmask := 0#256
  segcount := 0#16
  ie := false
  ieSaved := false
  word := 0#24
  bitmask := 0#24
  dly := 0
  wcnt := 0#24
  fcnt := 0#24
  nextWord := 0#24
  nextValid := false
  cmd := .none
  phase := .idle
  latch := 0#24
  port := 0#256
  pins := []
  stallAfter := false
  host := []
  cfg := Params.pRef
  cycle := 0
  trace := []
  draws := 0

end Sys2Proof.Machine
end

