-- ==== Sys2Proof/Machine/Flags.lean ====
section
/-! DEFINITION. The status flags (10_state.md R30), the handshake (R33), the stall test (46_interrupt_sync.md R108)
and the outputs of a cycle (R32). -/

namespace Sys2Proof.Machine

/-- PHASE is IDLE. -/
def Phase.isIdle : Phase → Bool
  | .idle => true
  | .cfg | .rstDrive | .rstHold | .syncMask | .syncRestore | .fetch | .bitRise | .bitHigh | .bitFall | .bitLow
  | .bitGap => false

/-- PHASE is one of the five BIT phases (10_state.md R33). -/
def Phase.isBit : Phase → Bool
  | .bitRise | .bitHigh | .bitFall | .bitLow | .bitGap => true
  | .idle | .cfg | .rstDrive | .rstHold | .syncMask | .syncRestore | .fetch => false

/-- CMD is SENDPATTERN. -/
def Cmd.isPattern : Cmd → Bool
  | .sendPattern => true
  | .none | .construct | .clear | .send => false

/-- The flag BUSY (10_state.md R30). -/
def busy (s : State) : Bool := !s.phase.isIdle

/-- The flag DISABLED (10_state.md R30). -/
def disabled (s : State) : Bool := s.pinmask == 0#256

/-- The inputs of every cycle past the end of the schedule: quiet, but for an endless stall (log entry 10). -/
def afterPins (s : State) : PinIn := { stall := s.stallAfter }

/-- The inputs of the present cycle. -/
def nowPins (s : State) : PinIn := s.pins.headD (afterPins s)

/-- The present cycle advances (46_interrupt_sync.md R108). -/
def advances (s : State) : Bool := !(s.ie && (nowPins s).stall)

/-- A stall that never ends has begun (70_reset_and_hazards.md R138). -/
def hung (s : State) : Bool := s.ie && s.stallAfter && s.pins.isEmpty

/-- A prefetch is wanted: the third case of 10_state.md R33. -/
def wantsNext (s : State) : Bool :=
  s.cmd.isPattern && s.phase.isBit && s.fcnt != 0#24 && !s.nextValid

/-- `cmd_ready` in an advancing cycle (10_state.md R33). -/
def ready (s : State) : Bool :=
  match s.phase with
  | .idle | .fetch => true
  | .cfg | .rstDrive | .rstHold | .syncMask | .syncRestore => false
  | .bitRise | .bitHigh | .bitFall | .bitLow | .bitGap => wantsNext s

/-- The word on `cmd_data` when `cmd_valid` is 1. -/
def presented (s : State) : Option CommandWord :=
  match s.host with
  | [] => none
  | h :: _ => if h.delay = 0 then some h.data else none

/-- `line(t)` (00_scope.md R14): the bit PIN of PORT, on an enabled line. -/
def lineNow (s : State) : Option Bool := if disabled s then none else some (s.port.getLsbD s.pin.toNat)

/-- The port environment writes the bit the block owns (93_implementation_defined.md U1; log entry 8). -/
def secondWriter (s : State) : Bool := (((nowPins s).envSet ||| (nowPins s).envClr) &&& s.pinmask) != 0#256

/-- What is seen in a cycle that does or does not advance, with the pulses given (10_state.md R32, 46_interrupt_sync.md
R108). -/
def outputs (cmdReady : Bool) (set clr : PortWord) (s : State) : Obs where
  cmdReady := cmdReady
  portSet := set
  portClr := clr
  ieOut := s.ie
  busy := busy s
  disabled := disabled s
  port := s.port
  line := lineNow s

/-- What is seen while `rst` = 1 (70_reset_and_hazards.md R130; log entry 13). -/
def resetOutputs (s : State) : Obs where
  cmdReady := false
  portSet := 0#256
  portClr := 0#256
  ieOut := false
  busy := false
  disabled := true
  port := s.port
  line := lineNow s

end Sys2Proof.Machine
end

