-- ==== Sys2Proof/Machine/Timing.lean ====
section
/-! DEFINITION. The durations in cycles that follow from the configuration (00_scope.md R10, 70_reset_and_hazards.md R144). -/

namespace Sys2Proof

/-- R10: a held duration is recomputed when F_CLK_HZ differs from F_CAL_HZ, rounded half up and at least 1. -/
def Params.rescaled (c : Params) (t : Nat) : Nat :=
  if c.fClkHz = c.fCalHz then t else max 1 ((2 * t * c.fClkHz + c.fCalHz) / (2 * c.fCalHz))

/-- The high hold of a bit of value `v`: T1H' or T0H' (42_bit_encoder.md R72). -/
def Params.high (c : Params) (v : Bool) : Nat := c.rescaled (if v then c.t1h else c.t0h)

/-- The low hold of a bit of value `v`: T1L' or T0L'. R10: a rescaled T1L is 0. -/
def Params.low (c : Params) (v : Bool) : Nat :=
  if v then (if c.fClkHz = c.fCalHz then c.t1l else 0) else c.rescaled c.t0l

/-- T_RST = ceil(T_RESET_NS * F_CLK_HZ / 10^9) (R10). -/
def Params.tRst (c : Params) : Nat := (c.tResetNs * c.fClkHz + (1000000000 - 1)) / 1000000000

/-- The number of one bits among bits 0 .. k-1 of a ColorWord. -/
def onesBelow (w : ColorWord) : Nat → Nat
  | 0 => 0
  | k + 1 => onesBelow w k + (if w.getLsbD k then 1 else 0)

/-- popcount(w) (00_scope.md R11). -/
def popcount (w : ColorWord) : Nat := onesBelow w 24

/-- The cost of ENCODEBIT of value `v` (42_bit_encoder.md R73, R74). -/
def Params.encodeCycles (c : Params) (v : Bool) : Nat := 2 * c.cDrive + c.high v + c.low v

/-- W(w), the cost of TRANSMIT(w) (43_word_serializer.md R78). -/
def Params.wordCycles (c : Params) (w : ColorWord) : Nat :=
  24 * (2 * c.cDrive + c.gBit) + popcount w * (c.high true + c.low true) + (24 - popcount w) * (c.high false + c.low false)

/-- The cost of RESET (44_reset_signal.md R84). -/
def Params.resetCycles (c : Params) : Nat := c.cDrive + c.tRst

/-- The high duration H(v) of a pulse (42_bit_encoder.md R75). -/
def Params.pulseHigh (c : Params) (v : Bool) : Nat := c.high v + c.cDrive

/-- The low gap L(v) to the next pulse (42_bit_encoder.md R75). -/
def Params.pulseGap (c : Params) (v : Bool) : Nat := c.low v + c.gBit + c.cDrive

/-- What a masked section around the words of CLEAR or SEND costs: 2*C_SYNC under UNIFORM, nothing under
REFERENCE (70_reset_and_hazards.md R144). -/
def Params.sectionCycles (c : Params) : Nat := if c.maskPolicy = .uniform then 2 * c.cSync else 0

end Sys2Proof
end

