-- ==== Sys2Proof/Machine/Ops.lean ====
section
/-! DEFINITION. The shared operations: one clock cycle, advancing cycles, a micro-operation of several cycles, and
the register updates the micro-operations are made of (00_scope.md R13). -/

namespace Sys2Proof.Machine

/-! ## One clock cycle -/

/-- PORT at the end of a cycle: the block's pulses (20_memory.md R44) and what the port environment does to the bits
that exist, in one update, so that neither is lost. -/
def nextPort (set clr : PortWord) (s : State) : PortWord :=
  (s.port ||| set ||| ((nowPins s).envSet &&& portMask s.cfg.portWidth)) &&& ~~~(clr ||| (nowPins s).envClr)

/-- One cycle passes: its inputs are used up, PORT is updated, and what was seen is recorded. -/
def State.elapse (o : Obs) (set clr : PortWord) (s : State) : State :=
  { s with
    pins := s.pins.tail
    port := nextPort set clr s
    cycle := s.cycle + 1
    trace := o :: s.trace }

/-- One cycle of the host's waiting before it presents its next word. -/
def waitHost : List HostWord → List HostWord
  | [] => []
  | h :: hs => { h with delay := h.delay - 1 } :: hs

/-- TRANSMIT(w) is about to start: "WORD <- w ; BITMASK <- 0x000001" (43_word_serializer.md R78). -/
def State.loadWord (w : ColorWord) (s : State) : State := { s with word := w, bitmask := 1#24 }

/-- PHASE becomes `ph` for `n` advancing cycles. -/
def State.enter (ph : Phase) (n : Nat) (s : State) : State := { s with phase := ph, dly := n }

/-- A word is accepted (10_state.md R33). In IDLE it is a header, which `step` decodes. In FETCH it is the payload word
TRANSMIT starts with in the next cycle; otherwise it is prefetched into NEXT (45_strip_controller.md R95). Either
payload word leaves one word fewer to accept (10_state.md R24). -/
def State.accept (cw : CommandWord) (s : State) : State :=
  match s.phase with
  | .idle => s
  | .fetch => ({ s with fcnt := s.fcnt - 1#24 }.loadWord (colorField cw)).enter .bitRise s.cfg.cDrive
  | .cfg | .rstDrive | .rstHold | .syncMask | .syncRestore | .bitRise | .bitHigh | .bitFall | .bitLow | .bitGap =>
    { s with fcnt := s.fcnt - 1#24, nextWord := colorField cw, nextValid := true }

/-- The command port in an advancing cycle: a presented word is taken when `cmd_ready` is 1 and stays presented
otherwise (30_encoding.md R56). -/
def State.servePort (s : State) : State :=
  match presented s with
  | some cw => if ready s then { s with host := s.host.tail }.accept cw else s
  | none => { s with host := waitHost s.host }

/-- The host's write of IE, honoured in an advancing IDLE cycle only (10_state.md R21). -/
def State.hostWriteIe (p : PinIn) (s : State) : State :=
  if s.phase.isIdle && p.ieWe then { s with ie := p.ieData } else s

/-- An advancing cycle with the pulses `set` and `clr`. -/
def State.advanceCycle (set clr : PortWord) (s : State) : State :=
  ((s.elapse (outputs (ready s) set clr s) set clr).hostWriteIe (nowPins s)).servePort

/-- A cycle that does not advance: every register keeps its value (46_interrupt_sync.md R108). The host's own waiting
goes on. -/
def State.stallCycle (s : State) : State :=
  let t := s.elapse (outputs false 0#256 0#256 s) 0#256 0#256
  { t with host := waitHost s.host }

/-- Every register takes its reset value (10_state.md R34, 70_reset_and_hazards.md R130); the unspecified ones take
free values (log entry 3). PORT is not touched (R131). The next cycle is cycle 0. -/
def State.hardReset (s : State) : State :=
  { s with
    pin := 0#8
    pinmask := 0#256
    segcount := 0#16
    ie := false
    ieSaved := Config.freeIeSaved s.draws
    word := Config.freeWord s.draws
    bitmask := Config.freeBitmask s.draws
    dly := Config.freeDly s.draws
    wcnt := 0#24
    fcnt := 0#24
    nextWord := Config.freeNext s.draws
    nextValid := false
    cmd := .none
    phase := .idle
    latch := Config.freeLatch s.draws
    cycle := 0
    draws := s.draws + 1 }

/-- A cycle with `rst` = 1: nothing is pulsed, accepted or written but the reset values (70_reset_and_hazards.md R130). -/
def State.resetCycle (s : State) : State :=
  let t := s.elapse (resetOutputs s) 0#256 0#256
  { t with host := waitHost s.host }.hardReset

/-- How one clock cycle ends. -/
inductive Tick where
  /-- The cycle advanced. -/
  | advanced (s : State)
  /-- The cycle was stalled. -/
  | stalled (s : State)
  /-- The cycle had `rst` = 1. -/
  | reset (s : State)
  /-- The model stops. -/
  | refused (r : Refusal)

/-- One clock cycle in which the block pulses `set` and `clr` if the cycle advances. Precedence as in
60_exceptions.md R120: hardware reset, then the stall test, then the rest. DESIGN CHOICE: a second writer of the selected bit is
refused before any of them, in a cycle with `rst` = 1 too, where 70_reset_and_hazards.md R130 is silent on it (log entry 8). -/
def tick (set clr : PortWord) (s : State) : Tick :=
  if secondWriter s then .refused .secondWriter
  else if (nowPins s).rst then .reset s.resetCycle
  else if advances s then .advanced (s.advanceCycle set clr)
  else .stalled s.stallCycle

/-! ## Running to completion -/

/-- How a micro-operation or a command ends. -/
inductive Run where
  /-- It has completed, at this state. -/
  | on (s : State)
  /-- The command is cut short at this state: hardware reset abandoned it (70_reset_and_hazards.md R139), or it hangs there, waiting
  for a payload word that the command stream does not hold (R137) or for the end of a stall that has none (R138). -/
  | over (s : State)
  /-- The model stops. -/
  | refused (r : Refusal)

/-- `A ; B`: run A to completion, then B (00_scope.md R13). -/
def Run.andThen (r : Run) (f : State → Run) : Run :=
  match r with
  | .on s => f s
  | .over s => .over s
  | .refused x => .refused x

/-- The answer of a meaning. -/
def Run.outcome : Run → Host.Outcome State Fault Refusal
  | .on s => .next s
  | .over s => .next s
  | .refused r => .refused r

/-- Clock cycles until one has advanced, at most `fuel` of them. -/
def advanceWithin (set clr : PortWord) : Nat → State → Run
  | 0, s => .over s
  | fuel + 1, s =>
    match tick set clr s with
    | .advanced t => .on t
    | .stalled t => advanceWithin set clr fuel t
    | .reset t => .over t
    | .refused r => .refused r

/-- One advancing cycle and the stalled cycles before it (46_interrupt_sync.md R108). A cycle past the end of the schedule that is
stalled is stalled for ever: the run is followed one cycle into it and cut short there, every register as it was (70_reset_and_hazards.md
R138; log entry 10). -/
def advance (set clr : PortWord) (s : State) : Run := advanceWithin set clr (s.pins.length + 1) s

/-- DLY counts an advancing cycle (10_state.md R23). -/
def State.countDly (s : State) : State := { s with dly := s.dly - 1 }

/-- `n` advancing cycles without a pulse, each counted by DLY: `tick(n)` of 00_scope.md R13. -/
def waitCycles : Nat → State → Run
  | 0, s => .on s
  | n + 1, s => (advance 0#256 0#256 s).andThen fun t => waitCycles n t.countDly

/-- `tick(n)` in phase `ph`; `tick(0)` takes no time and changes nothing (00_scope.md R13). -/
def waitPhase (ph : Phase) (n : Nat) (s : State) : Run :=
  if n = 0 then .on s else waitCycles n (s.enter ph n)

/-- A micro-operation of `n` advancing cycles (at least one) in phase `ph`: `tick(n - 1)`, then one more advancing
cycle with the pulses given, at the end of which `write` happens (00_scope.md R13). -/
def operate (ph : Phase) (n : Nat) (set clr : PortWord) (write : State → State) (s : State) : Run :=
  (waitCycles (n - 1) (s.enter ph n)).andThen fun t =>
    (advance set clr t).andThen fun u => .on (write { u with dly := 0 })

/-! ## Register updates -/

/-- PINSEL (41_gpio_line.md R66): "PIN <- p ; if PinValid(p) then PINMASK <- 1 << p else PINMASK <- 0". -/
def State.selectPin (p : PinIndex) (s : State) : State :=
  { s with pin := p, pinmask := maskOfPin s.cfg.portWidth p }

/-- The configuration update of CONSTRUCT (45_strip_controller.md R91). -/
def State.configure (p : PinIndex) (seg : SegCount) (s : State) : State :=
  { s.selectPin p with segcount := seg }

/-- IRQMASK's writes: "IE_SAVED <- IE ; IE <- 0" (46_interrupt_sync.md R103). -/
def State.maskIe (s : State) : State := { s with ieSaved := s.ie, ie := false }

/-- IRQRESTORE's write: "IE <- IE_SAVED" (46_interrupt_sync.md R104). -/
def State.restoreIe (s : State) : State := { s with ie := s.ieSaved }

/-- The bit being encoded: "(WORD & BITMASK) != 0" (43_word_serializer.md R78). -/
def State.bitValue (s : State) : Bool := (s.word &&& s.bitmask) != 0#24

/-- "BITMASK <- BITMASK << 1" in a 24-bit register (43_word_serializer.md R78). -/
def State.shiftMask (s : State) : State := { s with bitmask := s.bitmask <<< 1 }

/-- "WCNT <- WCNT - 1" (45_strip_controller.md R92, R95). -/
def State.countWord (s : State) : State := { s with wcnt := s.wcnt - 1#24 }

/-- The prefetched word becomes the word to transmit (45_strip_controller.md R95). -/
def State.takeNext (s : State) : State := { s.loadWord s.nextWord with nextValid := false }

/-- CMD and the operand latch at the end of the cycle of acceptance (45_strip_controller.md R98). -/
def State.begin (c : Cmd) (l : BitVec 24) (s : State) : State := { s with cmd := c, latch := l }

/-- The counters of a SENDPATTERN of `n` words: "WCNT <- N ; FCNT <- N ; NEXT_VALID <- 0" (45_strip_controller.md R94). -/
def State.loadCounts (n : WordCount) (s : State) : State := { s with wcnt := n, fcnt := n, nextValid := false }

/-- "WCNT <- SEGCOUNT" (45_strip_controller.md R92). -/
def State.loadSegments (s : State) : State := { s with wcnt := s.segcount.setWidth 24 }

/-- The command is complete: PHASE = IDLE and CMD = none (45_strip_controller.md R90). WORD, NEXT and BITMASK are
unspecified from here on (10_state.md R26), and so are DLY and the operand latch (93_implementation_defined.md U9): free values (log entry 3).
IE_SAVED keeps its value (log entry 4). -/
def State.finish (s : State) : State :=
  { s with
    phase := .idle
    cmd := .none
    word := Config.freeWord s.draws
    bitmask := Config.freeBitmask s.draws
    nextWord := Config.freeNext s.draws
    dly := Config.freeDly s.draws
    latch := Config.freeLatch s.draws
    draws := s.draws + 1 }

end Sys2Proof.Machine
end

