-- ==== Sys2Proof/Machine/Gpio.lean ====
section
/-! DEFINITION. The GPIO sequencer: PINSEL, DRIVEHIGH, DRIVELOW (41_gpio_line.md). -/

namespace Sys2Proof.Machine

/-- DRIVEHIGH (R67): `tick(C_DRIVE - 1)`, then one advancing cycle with port_set = PINMASK. -/
def driveHigh (s : State) : Run := operate .bitRise s.cfg.cDrive s.pinmask 0#256 id s

/-- DRIVELOW (R68), in the phase of the bit or of RESET it belongs to. -/
def driveLow (ph : Phase) (s : State) : Run := operate ph s.cfg.cDrive 0#256 s.pinmask id s

/-- PINSEL(p) (R66): no cycle of its own. -/
def execPinSel (p : PinIndex) (s : State) : Host.Outcome State Fault Refusal := .next (s.selectPin p)

/-- DRIVEHIGH (R67). -/
def execDriveHigh (s : State) : Host.Outcome State Fault Refusal := (driveHigh s).outcome

/-- DRIVELOW (R68). -/
def execDriveLow (s : State) : Host.Outcome State Fault Refusal := (driveLow .bitFall s).outcome

end Sys2Proof.Machine
end

