-- ==== Sys2Proof/Machine/BitEncoder.lean ====
section
/-! DEFINITION. The bit encoder: HOLD, ENCODEBIT1, ENCODEBIT0 (42_bit_encoder.md). -/

namespace Sys2Proof.Machine

/-- HOLD(n) in a given hold phase (R71): `tick(n)`, DLY counting down to zero; HOLD(0) costs nothing. -/
def hold (ph : Phase) (n : Nat) (s : State) : Run := waitPhase ph n s

/-- The hold phase a HOLD belongs to: the one that follows the drive operation before it (10_state.md R28; log entry 18). -/
def Phase.holdAfter : Phase → Phase
  | .rstDrive | .rstHold => .rstHold
  | .bitFall | .bitLow => .bitLow
  | .idle | .cfg | .syncMask | .syncRestore | .fetch | .bitRise | .bitHigh | .bitGap => .bitHigh

/-- ENCODEBIT1 (R73): "DRIVEHIGH ; HOLD(T1H) ; DRIVELOW ; HOLD(T1L)". -/
def encodeBit1 (s : State) : Run :=
  (driveHigh s).andThen fun t => (hold .bitHigh (t.cfg.high true) t).andThen fun u =>
    (driveLow .bitFall u).andThen fun v => hold .bitLow (v.cfg.low true) v

/-- ENCODEBIT0 (R74): "DRIVEHIGH ; HOLD(T0H) ; DRIVELOW ; HOLD(T0L)". -/
def encodeBit0 (s : State) : Run :=
  (driveHigh s).andThen fun t => (hold .bitHigh (t.cfg.high false) t).andThen fun u =>
    (driveLow .bitFall u).andThen fun v => hold .bitLow (v.cfg.low false) v

/-- HOLD(n) (R71). -/
def execHold (n : Nat) (s : State) : Host.Outcome State Fault Refusal := (hold s.phase.holdAfter n s).outcome

/-- ENCODEBIT1 (R73). -/
def execEncodeBit1 (s : State) : Host.Outcome State Fault Refusal := (encodeBit1 s).outcome

/-- ENCODEBIT0 (R74). -/
def execEncodeBit0 (s : State) : Host.Outcome State Fault Refusal := (encodeBit0 s).outcome

end Sys2Proof.Machine
end

