-- ==== Sys2Proof/Machine/ResetSignal.lean ====
section
/-! DEFINITION. The reset signal controller: RESET (44_reset_signal.md). -/

namespace Sys2Proof.Machine

/-- RESET (R84): "DRIVELOW ; HOLD(T_RST)". -/
def resetSignal (s : State) : Run :=
  (driveLow .rstDrive s).andThen fun t => hold .rstHold t.cfg.tRst t

/-- RESET (R84). -/
def execReset (s : State) : Host.Outcome State Fault Refusal := (resetSignal s).outcome

end Sys2Proof.Machine
end

