-- ==== Sys2Proof/Machine/Serializer.lean ====
section
/-! DEFINITION. The word serializer: TRANSMIT (43_word_serializer.md). -/

namespace Sys2Proof.Machine

/-- The loop of R78 with `k` bits still to send: ENCODEBIT1 or ENCODEBIT0, the mask shift, `tick(G_BIT)`. -/
def transmitBits : Nat → State → Run
  | 0, s => .on s
  | k + 1, s =>
    (if s.bitValue then encodeBit1 s else encodeBit0 s).andThen fun t =>
      (waitPhase .bitGap t.cfg.gBit t.shiftMask).andThen fun u => transmitBits k u

/-- TRANSMIT(w) (R78): 24 bits, least significant first. -/
def transmit (w : ColorWord) (s : State) : Run := transmitBits 24 (s.loadWord w)

/-- TRANSMIT(w) (R78). -/
def execTransmit (w : ColorWord) (s : State) : Host.Outcome State Fault Refusal := (transmit w s).outcome

end Sys2Proof.Machine
end

