-- ==== Sys2Proof/Machine/Synchronizer.lean ====
section
/-! DEFINITION. The interrupt-masking synchronizer: IRQMASK, IRQRESTORE (46_interrupt_sync.md). -/

namespace Sys2Proof.Machine

/-- IRQMASK (R103): C_SYNC advancing cycles, "IE_SAVED <- IE ; IE <- 0" at the end of the last. -/
def irqMask (s : State) : Run := operate .syncMask s.cfg.cSync 0#256 0#256 State.maskIe s

/-- IRQRESTORE (R104): C_SYNC cycles, "IE <- IE_SAVED" at the end of the last. -/
def irqRestore (s : State) : Run := operate .syncRestore s.cfg.cSync 0#256 0#256 State.restoreIe s

/-- A masked section around `body` when the policy asks for one (R106). -/
def maskedIf (masked : Bool) (body : State → Run) (s : State) : Run :=
  if masked then (irqMask s).andThen fun t => (body t).andThen irqRestore else body s

/-- IRQMASK (R103). -/
def execIrqMask (s : State) : Host.Outcome State Fault Refusal := (irqMask s).outcome

/-- IRQRESTORE (R104). -/
def execIrqRestore (s : State) : Host.Outcome State Fault Refusal := (irqRestore s).outcome

end Sys2Proof.Machine
end

