-- ==== Sys2Proof/Machine/Controller.lean ====
section
/-! DEFINITION. The command sequencer: CONSTRUCT, CLEAR, SEND, SENDPATTERN and the reserved headers
(45_strip_controller.md). Each meaning runs the command from the end of its cycle of acceptance to its completion (R90). -/

namespace Sys2Proof.Machine

/-- MASK_POLICY = UNIFORM (46_interrupt_sync.md R106). -/
def uniform (s : State) : Bool := s.cfg.maskPolicy == .uniform

/-- The command's last micro-operation has ended (R90). -/
def complete (s : State) : Run := .on s.finish

/-- CONSTRUCT (R91): in C_CFG cycles "PINSEL(pin) ; SEGCOUNT <- seg", then RESET on the new pin. -/
def construct (pin : PinIndex) (seg : SegCount) (s : State) : Run :=
  (operate .cfg s.cfg.cCfg 0#256 0#256 (State.configure pin seg) (s.begin .construct (packConstruct pin seg))).andThen
    fun t => (resetSignal t).andThen complete

/-- "while WCNT > 0 { TRANSMIT(0x000000) ; WCNT <- WCNT - 1 }" (R92), with `n` words to go. -/
def clearWords : Nat → State → Run
  | 0, s => .on s
  | n + 1, s => (transmit 0#24 s).andThen fun t => clearWords n t.countWord

/-- CLEAR (R92): RESET, then SEGCOUNT all-zero words, masked under UNIFORM. -/
def clear (s : State) : Run :=
  (resetSignal (s.begin .clear 0#24).loadSegments).andThen fun t =>
    (maskedIf (uniform t) (clearWords s.segcount.toNat) t).andThen complete

/-- SEND (R93): TRANSMIT(word), masked under UNIFORM. -/
def send (w : ColorWord) (s : State) : Run :=
  (maskedIf (uniform s) (transmit w) (s.begin .send w)).andThen complete

/-- Cycles in FETCH until a payload word is accepted (R95, R96), at most `fuel` advancing ones. -/
def fetchWithin : Nat → State → Run
  | 0, s => .over s
  | fuel + 1, s =>
    (advance 0#256 0#256 s).andThen fun t => if t.phase == .fetch then fetchWithin fuel t else .on t

/-- How many advancing cycles a FETCH can take before a word is accepted; when the command stream is empty no word ever is,
and the wait is followed to the end of the schedule, where a hardware reset may end it (R137). -/
def fetchBound (s : State) : Nat :=
  match s.host with
  | [] => s.pins.length
  | h :: _ => h.delay + 1

/-- The next payload word: the prefetched one, with no cycle in between, or else FETCH (R95). -/
def nextPayload (s : State) : Run :=
  if s.nextValid then .on s.takeNext
  else fetchWithin (fetchBound s) (s.enter .fetch 0)

/-- "for i = 0 to N-1 { TRANSMIT(w_i) }" (R94) with `n` words to go; WCNT counts each at its end (R95). -/
def patternWords : Nat → State → Run
  | 0, s => .on s
  | n + 1, s =>
    (nextPayload s).andThen fun t => (transmit t.word t).andThen fun u => patternWords n u.countWord

/-- SENDPATTERN (R94): IRQMASK, the words in index order, IRQRESTORE, under either policy. -/
def sendPattern (n : WordCount) (s : State) : Run :=
  (maskedIf true (patternWords n.toNat) ((s.begin .sendPattern 0#24).loadCounts n)).andThen complete

/-- CONSTRUCT (R91). -/
def execConstruct (pin : PinIndex) (seg : SegCount) (s : State) : Host.Outcome State Fault Refusal :=
  (construct pin seg s).outcome

/-- CLEAR (R92). -/
def execClear (s : State) : Host.Outcome State Fault Refusal := (clear s).outcome

/-- SEND (R93). -/
def execSend (w : ColorWord) (s : State) : Host.Outcome State Fault Refusal := (send w s).outcome

/-- SENDPATTERN (R94). -/
def execSendPattern (n : WordCount) (s : State) : Host.Outcome State Fault Refusal := (sendPattern n s).outcome

/-- A reserved header is dropped: no register changes and no time passes after its acceptance (R99, 30_encoding.md R59). -/
def execReserved (_op : BitVec 4) (s : State) : Host.Outcome State Fault Refusal := .next s

end Sys2Proof.Machine
end

