-- ==== Sys2Proof/Syntax.lean ====
section
/-! DEFINITION. The instructions: one constructor per row of spec/opcode_table.json. -/

namespace Sys2Proof

/-- The four commands and the reserved headers (30_encoding.md R52 to R59), then the ten micro-operations, which
have no encoding and are steps of the sequencer (R64). SENDPATTERN's payload is no field: it reaches the block word
by word through the command port while the command runs (45_strip_controller.md R95). -/
inductive Instr where
  /-- CONSTRUCT pin, seg (45_strip_controller.md R91). -/
  | construct (pin : PinIndex) (seg : SegCount)
  /-- CLEAR (R92). -/
  | clear
  /-- SEND word (R93). -/
  | send (word : ColorWord)
  /-- SENDPATTERN with `count` payload words (R94). -/
  | sendPattern (count : WordCount)
  /-- A header with the reserved opcode `op` (30_encoding.md R59, 45_strip_controller.md R99). -/
  | reserved (op : BitVec 4)
  /-- PINSEL(p) (41_gpio_line.md R66). -/
  | pinSel (pin : PinIndex)
  /-- DRIVEHIGH (41_gpio_line.md R67). -/
  | driveHigh
  /-- DRIVELOW (41_gpio_line.md R68). -/
  | driveLow
  /-- HOLD(n) (42_bit_encoder.md R71). -/
  | hold (n : Nat)
  /-- ENCODEBIT1 (42_bit_encoder.md R73). -/
  | encodeBit1
  /-- ENCODEBIT0 (42_bit_encoder.md R74). -/
  | encodeBit0
  /-- TRANSMIT(w) (43_word_serializer.md R78). -/
  | transmit (word : ColorWord)
  /-- RESET, the latch pulse, never the hardware reset pin (44_reset_signal.md R84). -/
  | reset
  /-- IRQMASK (46_interrupt_sync.md R103). -/
  | irqMask
  /-- IRQRESTORE (46_interrupt_sync.md R104). -/
  | irqRestore
  deriving DecidableEq, Repr

end Sys2Proof
end

