-- ==== Sys2Proof/Machine/Dispatch.lean ====
section
/-! DEFINITION. exec: one arm per instruction. -/

namespace Sys2Proof.Machine

def exec (i : Instr) (s : State) : Host.Outcome State Fault Refusal :=
  match i with
  | .construct pin seg => Sys2Proof.Machine.execConstruct pin seg s
  | .clear => Sys2Proof.Machine.execClear s
  | .send w => Sys2Proof.Machine.execSend w s
  | .sendPattern n => Sys2Proof.Machine.execSendPattern n s
  | .reserved op => Sys2Proof.Machine.execReserved op s
  | .pinSel p => Sys2Proof.Machine.execPinSel p s
  | .driveHigh => Sys2Proof.Machine.execDriveHigh s
  | .driveLow => Sys2Proof.Machine.execDriveLow s
  | .hold n => Sys2Proof.Machine.execHold n s
  | .encodeBit1 => Sys2Proof.Machine.execEncodeBit1 s
  | .encodeBit0 => Sys2Proof.Machine.execEncodeBit0 s
  | .transmit w => Sys2Proof.Machine.execTransmit w s
  | .reset => Sys2Proof.Machine.execReset s
  | .irqMask => Sys2Proof.Machine.execIrqMask s
  | .irqRestore => Sys2Proof.Machine.execIrqRestore s

end Sys2Proof.Machine
end

