-- ==== Sys2Proof/Decode.lean ====
section
/-! DEFINITION. Decoding of the command stream and, after it, the encoder (30_encoding.md R52 to R60). -/

namespace Sys2Proof

/-- A header decodes by its opcode alone (30_encoding.md R54, R60; 45_strip_controller.md R98). Total: every word
is some header, opcodes 0x0 and 0x5 .. 0xF the reserved ones (R59). -/
def decodeHeader (cw : CommandWord) : Instr :=
  match opField cw with
  | 1#4 => .construct (pinField cw) (segField cw)
  | 2#4 => .clear
  | 3#4 => .send (colorField cw)
  | 4#4 => .sendPattern (countField cw)
  | op => .reserved op

/-- The number of payload words that follow a header (R58). -/
def payloadCount : Instr → Nat
  | .sendPattern n => n.toNat
  | .construct _ _ | .clear | .send _ | .reserved _ | .pinSel _ | .driveHigh | .driveLow | .hold _
  | .encodeBit1 | .encodeBit0 | .transmit _ | .reset | .irqMask | .irqRestore => 0

/-- Why no whole command can be read from the front of a list of words. DESIGN CHOICE: R58 is silent on a list that stops short (log
entry 27). -/
inductive DecodeError where
  /-- The list holds no word at all. -/
  | noHeader
  /-- The list ends inside SENDPATTERN's payload (the block then waits in FETCH, 70_reset_and_hazards.md R137). -/
  | payloadMissing (present wanted : Nat)
  deriving DecidableEq, Repr

/-- A command of the stream: its header's instruction and its payload. -/
structure Command where
  /-- The header. -/
  instr : Instr
  /-- The ColorWords that follow it. -/
  payload : List ColorWord
  deriving DecidableEq, Repr

/-- Framing (R58): read a header, take as payload as many words as it says, whatever they look like (R57), and
answer the rest of the stream. -/
def decodeCommand : List CommandWord → Except DecodeError (Command × List CommandWord)
  | [] => .error .noHeader
  | h :: ws =>
    let i := decodeHeader h
    let n := payloadCount i
    if ws.length < n then .error (.payloadMissing ws.length n)
    else .ok (⟨i, (ws.take n).map colorField⟩, ws.drop n)

/-- The header word of an instruction, reserved bits zero (R53, R54, R62). A micro-operation has none (R64). -/
def encodeHeader : Instr → Option CommandWord
  | .construct pin seg => some (1#4 ++ 0#4 ++ seg ++ pin)
  | .clear => some (2#4 ++ 0#28)
  | .send w => some (3#4 ++ 0#4 ++ w)
  | .sendPattern n => some (4#4 ++ 0#4 ++ n)
  | .reserved op => some (op ++ 0#28)
  | .pinSel _ | .driveHigh | .driveLow | .hold _ | .encodeBit1 | .encodeBit0 | .transmit _ | .reset | .irqMask
  | .irqRestore => none

/-- A payload word, ignored bits zero (R53, R62). -/
def encodePayload (w : ColorWord) : CommandWord := 0#8 ++ w

/-- The words of a command: its header, then its payload in index order (R58, R62). -/
def encode (c : Command) : Option (List CommandWord) :=
  (encodeHeader c.instr).map fun h => h :: c.payload.map encodePayload

/-- The k-th 32-bit word of an instruction whose bits are `w`, the first word lowest. A command word is moved as one
32-bit unit (20_memory.md R41), so there is no byte order to choose (log entry 21). -/
def tableWord (nbits w k : Nat) : CommandWord := BitVec.ofNat 32 ((w % 2 ^ nbits) >>> (32 * k))

/-- What the decoder reads from a row's word. -/
def decodeTableWord (nbits w : Nat) : Option Instr := some (decodeHeader (tableWord nbits w 0))

end Sys2Proof
end

