-- ==== Sys2Proof/Machine/Sequencer.lean ====
section
/-! DEFINITION. The sequencer one clock cycle at a time (10_state.md R28, R29): the same commands as
Machine/Controller.lean gives them whole, by PHASE, CMD, WCNT, BITMASK and DLY. `step` uses it wherever no header is
accepted: idle cycles, and any state in the middle of a command. -/

namespace Sys2Proof.Machine

/-! ## The end of a phase -/

/-- Enter phase `ph` for `n` cycles, or, when it takes none, go on with `k`. -/
def State.enterOr (ph : Phase) (n : Nat) (k : State → State) (s : State) : State :=
  if n = 0 then k s else s.enter ph n

/-- TRANSMIT(w) starts in the next cycle. -/
def State.startWord (w : ColorWord) (s : State) : State := (s.loadWord w).enter .bitRise s.cfg.cDrive

/-- The words of the command are done: IRQRESTORE where the section is masked (46_interrupt_sync.md R106), else the end. -/
def State.endWords (s : State) : State :=
  if s.cmd.isPattern || uniform s then s.enter .syncRestore s.cfg.cSync else s.finish

/-- The first word of the command after its masking, if it has one (45_strip_controller.md R92 to R95). -/
def State.firstWord (s : State) : State :=
  match s.cmd with
  | .send => s.startWord s.latch
  | .clear => if s.wcnt = 0#24 then s.endWords else s.startWord 0#24
  | .sendPattern => if s.wcnt = 0#24 then s.endWords else s.enter .fetch 0
  | .none | .construct => s.finish

/-- The end of TRANSMIT (45_strip_controller.md R92, R93, R95). -/
def State.endWord (s : State) : State :=
  match s.cmd with
  | .send => s.endWords
  | .clear => if s.countWord.wcnt = 0#24 then s.countWord.endWords else s.countWord.startWord 0#24
  | .sendPattern =>
    if s.countWord.wcnt = 0#24 then s.countWord.endWords
    else if s.nextValid then s.countWord.takeNext.enter .bitRise s.cfg.cDrive
    else s.countWord.enter .fetch 0
  | .none | .construct => s.finish

/-- The next bit of the word, or its end when BITMASK has run empty (10_state.md R22). -/
def State.nextBit (s : State) : State :=
  if s.bitmask = 0#24 then s.endWord else s.enter .bitRise s.cfg.cDrive

/-- The end of ENCODEBIT: the mask shift and the G_BIT overhead (43_word_serializer.md R78). -/
def State.endBit (s : State) : State := s.shiftMask.enterOr .bitGap s.cfg.gBit State.nextBit

/-- The end of RESET (45_strip_controller.md R91, R92). -/
def State.endReset (s : State) : State :=
  match s.cmd with
  | .clear => if uniform s then s.enter .syncMask s.cfg.cSync else s.firstWord
  | .none | .construct | .send | .sendPattern => s.finish

/-- The last cycle of the present phase has passed. -/
def State.leavePhase (s : State) : State :=
  match s.phase with
  | .idle | .fetch => s
  | .cfg => (s.configure (latchedPin s.latch) (latchedSeg s.latch)).enter .rstDrive s.cfg.cDrive
  | .rstDrive => s.enterOr .rstHold s.cfg.tRst State.endReset
  | .rstHold => s.endReset
  | .syncMask => s.maskIe.firstWord
  | .syncRestore => s.restoreIe.finish
  | .bitRise => s.enterOr .bitHigh (s.cfg.high s.bitValue) fun t => t.enter .bitFall t.cfg.cDrive
  | .bitHigh => s.enter .bitFall s.cfg.cDrive
  | .bitFall => s.enterOr .bitLow (s.cfg.low s.bitValue) State.endBit
  | .bitLow => s.endBit
  | .bitGap => s.nextBit

/-! ## Acceptance of a header -/

/-- A header has just been accepted: CMD, the operands and the first phase of the command (45_strip_controller.md R90, R98).
A reserved header leaves the block idle (R99). -/
def State.startCommand (i : Instr) (s : State) : State :=
  match i with
  | .construct pin seg => (s.begin .construct (packConstruct pin seg)).enter .cfg s.cfg.cCfg
  | .clear => (s.begin .clear 0#24).loadSegments.enter .rstDrive s.cfg.cDrive
  | .send w => if uniform s then (s.begin .send w).enter .syncMask s.cfg.cSync else (s.begin .send w).startWord w
  | .sendPattern n => ((s.begin .sendPattern 0#24).loadCounts n).enter .syncMask s.cfg.cSync
  | .reserved _ | .pinSel _ | .driveHigh | .driveLow | .hold _ | .encodeBit1 | .encodeBit0 | .transmit _ | .reset
  | .irqMask | .irqRestore => s

/-- The header accepted in the present cycle, if one is: PHASE = IDLE, the cycle advances and a word is presented
(10_state.md R33, 45_strip_controller.md R98). -/
def acceptedHeader (s : State) : Option CommandWord :=
  if s.phase.isIdle && !secondWriter s && !(nowPins s).rst && advances s then presented s else none

/-- The cycle of acceptance of a header has passed; the command has not begun. -/
def State.acceptCycle (s : State) : State := s.advanceCycle 0#256 0#256

/-! ## One clock cycle -/

/-- `port_set` in the present cycle, if it advances: PINMASK in the last cycle of DRIVEHIGH (41_gpio_line.md R67). -/
def pulseSet (s : State) : PortWord :=
  match s.phase with
  | .bitRise => if s.dly ≤ 1 then s.pinmask else 0#256
  | .idle | .cfg | .rstDrive | .rstHold | .syncMask | .syncRestore | .fetch | .bitHigh | .bitFall | .bitLow
  | .bitGap => 0#256

/-- `port_clr` in the present cycle, if it advances: PINMASK in the last cycle of DRIVELOW (41_gpio_line.md R68). -/
def pulseClr (s : State) : PortWord :=
  match s.phase with
  | .rstDrive | .bitFall => if s.dly ≤ 1 then s.pinmask else 0#256
  | .idle | .cfg | .rstHold | .syncMask | .syncRestore | .fetch | .bitRise | .bitHigh | .bitLow | .bitGap => 0#256

/-- The sequencer's position after the advancing cycle that led from `s` to `t`. -/
def sequence (s t : State) : State :=
  match s.phase with
  | .idle =>
    match acceptedHeader s with
    | some cw => t.startCommand (decodeHeader cw)
    | none => t
  | .fetch => t
  | .cfg | .rstDrive | .rstHold | .syncMask | .syncRestore | .bitRise | .bitHigh | .bitFall | .bitLow | .bitGap =>
    if s.dly ≤ 1 then { t with dly := 0 }.leavePhase else t.countDly

/-- One clock cycle of the block, from any state. -/
def clock (s : State) : Host.Outcome State Fault Refusal :=
  match tick (pulseSet s) (pulseClr s) s with
  | .advanced t => .next (sequence s t)
  | .stalled t => .next t
  | .reset t => .next t
  | .refused r => .refused r

/-- `n` clock cycles. -/
def clocks : Nat → State → Host.Outcome State Fault Refusal
  | 0, s => .next s
  | n + 1, s =>
    match clock s with
    | .next t => clocks n t
    | .fault f => .fault f
    | .refused r => .refused r

end Sys2Proof.Machine
end

