-- ==== Sys2Proof/Machine/Step.lean ====
section
/-! DEFINITION. One step of the machine, and how a word is put where the next step takes its instruction from. -/

namespace Sys2Proof.Machine

/-- When a header is accepted, its cycle of acceptance and then the whole command (45_strip_controller.md R90: each
command runs to completion); otherwise one clock cycle. -/
def step (s : State) : Host.Outcome State Fault Refusal :=
  match acceptedHeader s with
  | some cw => exec (decodeHeader cw) s.acceptCycle
  | none => clock s

/-- `s` with the host presenting, from the present cycle on, the instruction whose bits are `w`: its header and then as
many payload words as the header says. The block is idle, and the present cycle is a quiet one (log entry 21). -/
def State.withFetchWord (s : State) (nbits w : Nat) : State :=
  let header := tableWord nbits w 0
  let payload := (List.range (payloadCount (decodeHeader header))).map fun k => HostWord.mk 0 (tableWord nbits w (k + 1))
  { s with
    phase := .idle
    host := HostWord.mk 0 header :: payload ++ s.host
    pins := PinIn.quiet :: s.pins.tail }

end Sys2Proof.Machine
end

