-- ==== Sys2Proof/Machine/Assembler.lean ====
section
/-! DEFINITION. The assembler of 30_encoding.md R62, R63: a line of a command stream and the words it stands for. -/

namespace Sys2Proof.Machine

/-- One line of the syntax of R62, its numbers read. -/
inductive AsmLine where
  /-- `construct <pin>, <seg>`, or with the segment count left out (R63). -/
  | construct (pin : Nat) (seg : Option Nat)
  | clear
  | send (word : Nat)
  | sendpattern (words : List Nat)
  /-- `.word <value>`: the value as it stands. -/
  | word (value : Nat)
  /-- An empty line or a comment. -/
  | blank
  deriving DecidableEq, Repr

/-- The words of a line, or none where the assembler rejects it: "a `pin` above 255, a `seg` above 65535, a word above
0xFFFFFF and a pattern longer than 16777215 words" (R62). Reserved and ignored bits are zero. -/
def assembleLine (c : Params) : AsmLine → Option (List CommandWord)
  | .construct pin seg =>
    let n := seg.getD c.segDefault
    if pin ≤ 255 ∧ n ≤ 65535 then encode ⟨.construct (BitVec.ofNat 8 pin) (BitVec.ofNat 16 n), []⟩ else none
  | .clear => encode ⟨.clear, []⟩
  | .send w => if w ≤ 0xFFFFFF then encode ⟨.send (BitVec.ofNat 24 w), []⟩ else none
  | .sendpattern ws =>
    if ws.length ≤ 16777215 ∧ ws.all (fun w => decide (w ≤ 0xFFFFFF)) then
      encode ⟨.sendPattern (BitVec.ofNat 24 ws.length), ws.map (BitVec.ofNat 24)⟩
    else none
  | .word v => if v < 2 ^ 32 then some [BitVec.ofNat 32 v] else none
  | .blank => some []

/-- The words of a program, in order. -/
def assemble (c : Params) : List AsmLine → Option (List CommandWord)
  | [] => some []
  | l :: ls =>
    match assembleLine c l, assemble c ls with
    | some ws, some rest => some (ws ++ rest)
    | _, _ => none

/-! ## Reading the text of a line -/

/-- The value of a digit, decimal or hexadecimal. -/
def digitValue (c : Char) : Option Nat :=
  if '0' ≤ c ∧ c ≤ '9' then some (c.toNat - '0'.toNat)
  else if 'a' ≤ c ∧ c ≤ 'f' then some (c.toNat - 'a'.toNat + 10)
  else if 'A' ≤ c ∧ c ≤ 'F' then some (c.toNat - 'A'.toNat + 10)
  else none

/-- A row of digits in a base, most significant first, after the value `acc`. -/
def readDigits (base : Nat) : Nat → List Char → Option Nat
  | acc, [] => some acc
  | acc, c :: cs =>
    match digitValue c with
    | some d => if d < base then readDigits base (acc * base + d) cs else none
    | none => none

/-- A number, "decimal or `0x` hexadecimal" (R62). -/
def readNumber : List Char → Option Nat
  | [] => none
  | '0' :: 'x' :: c :: cs => readDigits 16 0 (c :: cs)
  | c :: cs => readDigits 10 0 (c :: cs)

/-- A line without its comment: "`;` starts a comment" (R62). -/
def stripComment : List Char → List Char
  | [] => []
  | ';' :: _ => []
  | c :: cs => c :: stripComment cs

/-- Characters without the blanks at either end. -/
def trimBlanks (cs : List Char) : List Char :=
  ((cs.dropWhile Char.isWhitespace).reverse.dropWhile Char.isWhitespace).reverse

/-- The parts of a list between commas, blanks trimmed. -/
def splitCommas (cs : List Char) : List (List Char) :=
  (cs.foldr (fun c acc =>
    match c, acc with
    | ',', acc => [] :: acc
    | c, p :: ps => (c :: p) :: ps
    | c, [] => [[c]]) [[]]).map trimBlanks

/-- The numbers of an operand list, or none where one is not a number. -/
def readOperands (cs : List Char) : Option (List Nat) :=
  if (trimBlanks cs).isEmpty then some [] else (splitCommas cs).mapM readNumber

/-- One line of text in the syntax of R62, R63. -/
def parseLine (text : List Char) : Option AsmLine :=
  let cs := trimBlanks (stripComment text)
  let name := cs.takeWhile fun c => !c.isWhitespace
  match readOperands (cs.drop name.length) with
  | none => none
  | some ns =>
    if name = [] then some .blank
    else if name = "construct".toList then
      match ns with
      | [p] => some (.construct p none)
      | [p, g] => some (.construct p (some g))
      | _ => none
    else if name = "clear".toList then (if ns = [] then some .clear else none)
    else if name = "send".toList then
      match ns with
      | [w] => some (.send w)
      | _ => none
    else if name = "sendpattern".toList then some (.sendpattern ns)
    else if name = ".word".toList then
      match ns with
      | [v] => some (.word v)
      | _ => none
    else none

end Sys2Proof.Machine
end

