-- ==== Sys2Proof/Machine/Observe.lean ====
section
/-! DEFINITION. What a claim may speak of (00_scope.md R14, 70_reset_and_hazards.md R147): the line over time, its
pulses, and the levels the rules give a bit and a word. -/

namespace Sys2Proof.Machine

/-- The cycles a run from `s` to `t` has gone through, the earliest first. -/
def passed (s t : State) : List Obs := (t.trace.take (t.trace.length - s.trace.length)).reverse

/-- Put one more level before a list of runs of equal levels. -/
def addLevel (b : Bool) : List (Bool × Nat) → List (Bool × Nat)
  | [] => [(b, 1)]
  | (c, n) :: rs => if b = c then (c, n + 1) :: rs else (b, 1) :: (c, n) :: rs

/-- The maximal runs of equal levels. -/
def levelRuns (l : List Bool) : List (Bool × Nat) := l.foldr addLevel []

/-- A pulse: its high duration, and the low gap to the next pulse, unbounded (`none`) after the last (R14). -/
structure Pulse where
  high : Nat
  gap : Option Nat
  deriving DecidableEq, Repr

/-- The pulses among the runs. -/
def pulsesOfRuns : List (Bool × Nat) → List Pulse
  | [] => []
  | (false, _) :: rs => pulsesOfRuns rs
  | (true, h) :: (false, l) :: (c, n) :: rs => ⟨h, some l⟩ :: pulsesOfRuns ((c, n) :: rs)
  | (true, h) :: rs => ⟨h, none⟩ :: pulsesOfRuns rs

/-- The pulse sequence of a line's levels in an interval, earliest first (R14). DESIGN CHOICE: R14 is silent on a pulse that the first
or the last cycle of the interval cuts; it is listed with the cycles inside, and the last pulse of the interval has an unbounded gap
whatever comes after it (log entry 29). -/
def pulses (l : List Bool) : List Pulse := pulsesOfRuns (levelRuns l)

/-- The levels of the line during one bit of value `v` and its overhead, absent stalls (42_bit_encoder.md R73 to R75,
43_word_serializer.md R81): low while DRIVEHIGH runs, high for H(v), then low. -/
def bitLevels (c : Params) (v : Bool) : List Bool :=
  List.replicate c.cDrive false ++ List.replicate (c.pulseHigh v) true ++ List.replicate (c.low v + c.gBit) false

/-- The levels of bits k, k+1, ..., k+n-1 of a word, in this order. -/
def bitsLevels (c : Params) (w : ColorWord) : Nat → Nat → List Bool
  | _, 0 => []
  | k, n + 1 => bitLevels c (w.getLsbD k) ++ bitsLevels c w (k + 1) n

/-- The levels of the line during TRANSMIT(w), absent stalls: bit 0 first (43_word_serializer.md R79, 20_memory.md R40). -/
def wordLevels (c : Params) (w : ColorWord) : List Bool := bitsLevels c w 0 24

/-- The levels during the words of a command, word 0 first, with nothing between them (45_strip_controller.md R94, R101). -/
def patternLevels (c : Params) (ws : List ColorWord) : List Bool := ws.flatMap (wordLevels c)

/-- W(w_0) + ... + W(w_(N-1)). -/
def patternCycles (c : Params) (ws : List ColorWord) : Nat := (ws.map c.wordCycles).sum

end Sys2Proof.Machine
end

