-- ==== Sys2Proof/WellFormed.lean ====
section
/-! DEFINITION. Which terms of `Instr` stand for something the block can be given or can do. -/

namespace Sys2Proof

/-- The opcodes 30_encoding.md R59 reserves. -/
def reservedOp (op : BitVec 4) : Bool := op == 0#4 || decide (5 ≤ op.toNat)

/-- The durations HOLD may be given: "a constant taken from the configuration, never from a command"
(42_bit_encoder.md R71). -/
def holdDurations (c : Params) : List Nat := [c.high true, c.low true, c.high false, c.low false, c.tRst]

/-- Well-formed under a configuration: a reserved header holds a reserved opcode, and HOLD a configured duration.
Every value of every other operand is admitted (30_encoding.md R55). -/
def Instr.wellFormed (c : Params) : Instr → Bool
  | .reserved op => reservedOp op
  | .hold n => (holdDurations c).contains n
  | .construct _ _ | .clear | .send _ | .sendPattern _ | .pinSel _ | .driveHigh | .driveLow | .encodeBit1
  | .encodeBit0 | .transmit _ | .reset | .irqMask | .irqRestore => true

/-- The instructions a header can name: the four commands and the reserved headers. -/
def Instr.isHeader : Instr → Bool
  | .construct _ _ | .clear | .send _ | .sendPattern _ | .reserved _ => true
  | .pinSel _ | .driveHigh | .driveLow | .hold _ | .encodeBit1 | .encodeBit0 | .transmit _ | .reset | .irqMask
  | .irqRestore => false

end Sys2Proof
end

