-- ==== Sys2Proof/Safety.lean ====
section
/-! DEFINITION. The terms claims use: what the environment does (the host duties of 70_reset_and_hazards.md R133 as
premises), what a run took, and the invariant of the machine. -/

namespace Sys2Proof.Machine

/-! ## The environment -/

/-- In this cycle there is no hardware reset, and nobody else writes a bit of `m` (host duty HD4). -/
def calmPin (m : PortWord) (p : PinIn) : Bool := !p.rst && (((p.envSet ||| p.envClr) &&& m) == 0#256)

/-- So in every scheduled cycle. -/
def calm (m : PortWord) (ps : List PinIn) : Bool := ps.all (calmPin m)

/-- No hardware reset is scheduled. -/
def noReset (ps : List PinIn) : Bool := ps.all fun p => !p.rst

/-- Nobody else writes bit `j` of PORT in the scheduled cycles. -/
def untouched (j : Nat) (ps : List PinIn) : Bool := ps.all fun p => !p.envSet.getLsbD j && !p.envClr.getLsbD j

/-- Nobody else writes PORT at all in the scheduled cycles. -/
def undriven (ps : List PinIn) : Bool := ps.all fun p => p.envSet == 0#256 && p.envClr == 0#256

/-- No cycle is stalled: IE = 0, or no stall is to come (46_interrupt_sync.md R108). -/
def neverStalls (s : State) : Bool := !s.ie || (!s.stallAfter && s.pins.all fun p => !p.stall)

/-- Every run of stalled cycles ends (70_reset_and_hazards.md R138, host duty HD5; R147 lets a claim assume it). -/
def stallsEnd (s : State) : Bool := !s.ie || !s.stallAfter

/-- The state whose coming cycles have every stall taken out. -/
def unstalled (s : State) : State :=
  { s with pins := s.pins.map (fun p => { p with stall := false }), stallAfter := false }

/-- The inputs of the cycle that is `k` cycles away. -/
def comingPins (s : State) (k : Nat) : PinIn := s.pins.getD k (afterPins s)

/-- The cycle that is `k` cycles away advances, while IE keeps its value (46_interrupt_sync.md R108). -/
def goesOn (s : State) (k : Nat) : Bool := !(s.ie && (comingPins s k).stall)

/-- Of the coming `m` cycles `n` advance, the last of them among these: `n` advancing cycles take `m` cycles, at an IE that does not
change (46_interrupt_sync.md R109). -/
def Spans (s : State) (n m : Nat) : Prop :=
  (List.range m).countP (goesOn s) = n ∧ (0 < m → goesOn s (m - 1) = true)

/-- The line is enabled, its bit is the one PIN names, and it is low. -/
structure LineOwned (s : State) : Prop where
  valid : s.pin.toNat < s.cfg.portWidth
  mask : s.pinmask = maskOfPin s.cfg.portWidth s.pin
  low : s.port.getLsbD s.pin.toNat = false

/-- The command stream begins with the payload `ws`, whatever the delays, and goes on with `rest` (host duty HD2 but
for the time). -/
def Supplies (s : State) (ws : List ColorWord) (rest : List HostWord) : Prop :=
  ∃ payload, s.host = payload ++ rest ∧ payload.map (fun h => colorField h.data) = ws

/-- The words after `w` are each presented no later than the last cycle of TRANSMIT of the word before. `early` is for how many cycles
the host has already been waiting when TRANSMIT(w) starts; the waiting for a word begins when the word before it is accepted. -/
def followsInTime (c : Params) (w : ColorWord) (early : Nat) : List HostWord → Bool
  | [] => true
  | h :: hs =>
    decide (h.delay - early < c.wordCycles w) &&
      followsInTime c (colorField h.data) (c.wordCycles w - 1 - (h.delay - early)) hs

/-- Host duty HD2 as delays that meet it (70_reset_and_hazards.md R133): w_(i+1) is presented no later than the last cycle of TRANSMIT(w_i);
and the first payload word by the first FETCH cycle, which the cost of R94 takes to be one. -/
def inTime (c : Params) : List HostWord → Bool
  | [] => true
  | h :: hs => decide (h.delay ≤ c.cSync) && followsInTime c (colorField h.data) 0 hs

/-- The end of a run: every word has been accepted and PHASE is IDLE (70_reset_and_hazards.md R146). -/
def RunEnded (s : State) : Prop := s.host = [] ∧ s.phase = .idle

/-! ## What a run took -/

/-- From `s` to `t`, `n` cycles advanced, the last of them the last to pass, and every other was stalled, at an IE that did not
change (46_interrupt_sync.md R108, R109). -/
def Took (n : Nat) (s t : State) : Prop :=
  ∃ m, Spans s n m ∧ t.cycle = s.cycle + m ∧ t.pins = s.pins.drop m

/-- The levels of the line in the cycles given. DESIGN CHOICE: 00_scope.md R14 defines the line while PINMASK is not zero only; a
disabled cycle counts as one of level low, so that it ends a pulse and adds to the low gap after it (log entry 28). -/
def lineLevels (os : List Obs) : List Bool := os.map fun o => o.line == some true

/-- The pulses TRANSMIT(w) puts on the line absent stalls (43_word_serializer.md R79, 42_bit_encoder.md R75). -/
def wordPulses (c : Params) (w : ColorWord) : List Pulse :=
  (List.range 24).map fun k =>
    ⟨c.pulseHigh (w.getLsbD k), if k = 23 then none else some (c.pulseGap (w.getLsbD k))⟩

/-- From `s` to `t` the words `ws` went out in a masked section that began after `n` advancing cycles at the IE of `s` (46_interrupt_sync.md
R105, R106, R110): up to there nothing was set, from there on IE = 0, and the cycles are those of the words and of IRQRESTORE; on an enabled
low line the line was low up to there and then had exactly the levels of the words, one after the other. -/
def SendsMasked (s t : State) (n : Nat) (ws : List ColorWord) : Prop :=
  ∃ before inside, passed s t = before ++ inside ∧ Spans s n before.length ∧
    (∀ o ∈ before, o.ieOut = s.ie ∧ o.portSet = 0#256) ∧
    inside.length = patternCycles s.cfg ws + s.cfg.cSync ∧ (∀ o ∈ inside, o.ieOut = false) ∧
    (LineOwned s → (∀ o ∈ before, o.line = some false) ∧
      lineLevels inside = patternLevels s.cfg ws ++ List.replicate s.cfg.cSync false ∧ LineOwned t)

/-! ## Frames -/

/-- The instructions that take at least one cycle after their acceptance (70_reset_and_hazards.md R144, 41_gpio_line.md R66, 42_bit_encoder.md R71). -/
def takesTime : Instr → Bool
  | .reserved _ | .pinSel _ => false
  | .hold n => n != 0
  | .construct _ _ | .clear | .send _ | .sendPattern _ | .driveHigh | .driveLow | .encodeBit1 | .encodeBit0 | .transmit _
  | .reset | .irqMask | .irqRestore => true

/-- The micro-operations that act on the line or wait. -/
def isLineOperation : Instr → Bool
  | .driveHigh | .driveLow | .hold _ | .encodeBit1 | .encodeBit0 | .transmit _ | .reset => true
  | .construct _ _ | .clear | .send _ | .sendPattern _ | .reserved _ | .pinSel _ | .irqMask | .irqRestore => false

/-- The instructions that write the configuration registers (10_state.md R17). -/
def writesConfiguration : Instr → Bool
  | .construct _ _ | .pinSel _ => true
  | .clear | .send _ | .sendPattern _ | .reserved _ | .driveHigh | .driveLow | .hold _ | .encodeBit1 | .encodeBit0
  | .transmit _ | .reset | .irqMask | .irqRestore => false

/-- PINMASK as an instruction's drive operations use it: CONSTRUCT drives the pin it has just selected. -/
def drivenMask (i : Instr) (s : State) : PortWord :=
  match i with
  | .construct pin _ => maskOfPin s.cfg.portWidth pin
  | .clear | .send _ | .sendPattern _ | .reserved _ | .pinSel _ | .driveHigh | .driveLow | .hold _ | .encodeBit1
  | .encodeBit0 | .transmit _ | .reset | .irqMask | .irqRestore => s.pinmask

/-- PIN, PINMASK, SEGCOUNT and the configuration record are the same. -/
structure SameConfiguration (s t : State) : Prop where
  pin : t.pin = s.pin
  pinmask : t.pinmask = s.pinmask
  segcount : t.segcount = s.segcount
  cfg : t.cfg = s.cfg

/-- FCNT, NEXT and NEXT_VALID are the same, and of the command stream nothing but waiting time is gone. -/
structure SamePrefetch (s t : State) : Prop where
  fcnt : t.fcnt = s.fcnt
  nextWord : t.nextWord = s.nextWord
  nextValid : t.nextValid = s.nextValid
  host : ∃ n, t.host = waitHost^[n] s.host

/-- Every bit of PORT outside `m` that nobody else writes is the same. -/
def PortElsewhere (m : PortWord) (s t : State) : Prop :=
  ∀ j, m.getLsbD j = false → untouched j s.pins = true → t.port.getLsbD j = s.port.getLsbD j

/-- Two states that differ in nothing but PIN, PINMASK, PORT and what has been seen of them. -/
def SameButLine (s s' : State) : Prop :=
  s' = { s with pin := s'.pin, pinmask := s'.pinmask, port := s'.port, trace := s'.trace }

/-! ## The invariant -/

/-- The phases in which the line may be high: between a DRIVEHIGH and the end of the next DRIVELOW, and while RESET drives a line
that CONSTRUCT has just selected. -/
def Phase.mayBeHigh : Phase → Bool
  | .bitHigh | .bitFall | .rstDrive => true
  | .idle | .cfg | .rstHold | .syncMask | .syncRestore | .fetch | .bitRise | .bitLow | .bitGap => false

/-- The commands whose words stand in a masked section under the policy (46_interrupt_sync.md R106). -/
def masks (c : Params) : Cmd → Bool
  | .sendPattern => true
  | .clear | .send => c.maskPolicy == .uniform
  | .none | .construct => false

/-- The phase belongs to the command (45_strip_controller.md R91 to R95). -/
def phaseFits (c : Params) (ph : Phase) (cmd : Cmd) : Bool :=
  match ph with
  | .idle => cmd == .none
  | .cfg => cmd == .construct
  | .rstDrive | .rstHold => cmd == .construct || cmd == .clear
  | .syncMask | .syncRestore => masks c cmd
  | .fetch => cmd == .sendPattern
  | .bitRise | .bitHigh | .bitFall | .bitLow | .bitGap => cmd == .clear || cmd == .send || cmd == .sendPattern

/-- WCNT, FCNT and NEXT_VALID agree with the sequencer's position (10_state.md R24, R25, 45_strip_controller.md R95). -/
def countsFit (s : State) : Prop :=
  match s.cmd with
  | .none | .construct | .send => s.wcnt = 0#24 ∧ s.fcnt = 0#24 ∧ s.nextValid = false
  | .clear =>
    s.fcnt = 0#24 ∧ s.nextValid = false ∧ (s.phase.isBit = true → s.wcnt ≠ 0#24) ∧ (s.phase = .syncRestore → s.wcnt = 0#24)
  | .sendPattern =>
    (s.phase = .syncMask → s.fcnt = s.wcnt ∧ s.nextValid = false) ∧
    (s.phase = .fetch → s.fcnt = s.wcnt ∧ s.wcnt ≠ 0#24 ∧ s.nextValid = false) ∧
    (s.phase.isBit = true → s.fcnt.toNat + s.nextValid.toNat + 1 = s.wcnt.toNat) ∧
    (s.phase = .syncRestore → s.wcnt = 0#24 ∧ s.fcnt = 0#24 ∧ s.nextValid = false)

/-- The invariant of the machine. -/
structure Inv (s : State) : Prop where
  /-- PORT has PORT_WIDTH bits. -/
  width : s.port &&& ~~~portMask s.cfg.portWidth = 0#256
  /-- 10_state.md R18, in the weak form that hardware reset leaves. -/
  mask : s.pinmask = 0#256 ∨ s.pinmask = maskOfPin s.cfg.portWidth s.pin
  /-- The sequencer's position is one a command has. -/
  position : phaseFits s.cfg s.phase s.cmd = true
  /-- The counters agree with it. -/
  counts : countsFit s
  /-- Inside a masked section IE = 0 (46_interrupt_sync.md R102, R105). -/
  masked : masks s.cfg s.cmd = true → (s.phase.isBit = true ∨ s.phase = .fetch ∨ s.phase = .syncRestore) → s.ie = false
  /-- The interface is idle-low (10_state.md R31, 70_reset_and_hazards.md R146). -/
  low : s.phase.mayBeHigh = false → s.port &&& s.pinmask = 0#256

end Sys2Proof.Machine
end

