-- ==== Sys2Proof/Certificates/Slice0/Obligations.lean ====
section
/-! DEFINITION. The statements for the provers. Each docstring names the rule of spec/ it formalises, or says that it is
the model's own choice and names the log entry. -/

open Sys2Proof Sys2Proof.Machine

/-! ## Encoding -/

/-- Headers of 95_test_vectors.md B1 decode to the commands they stand for. -/
def Obligations.SpecHeadersDecode : Prop :=
  decodeHeader 0x10000203#32 = .construct 3#8 2#16 ∧ decodeHeader 0x1F000203#32 = .construct 3#8 2#16 ∧
  decodeHeader 0x10FFFF07#32 = .construct 7#8 65535#16 ∧ decodeHeader 0x20000000#32 = .clear ∧
  decodeHeader 0x30000001#32 = .send 1#24 ∧ decodeHeader 0x40000002#32 = .sendPattern 2#24 ∧
  decodeHeader 0x00000000#32 = .reserved 0#4 ∧ decodeHeader 0x50000000#32 = .reserved 5#4 ∧
  decodeHeader 0xF0000001#32 = .reserved 15#4 ∧ colorField 0xAB123456#32 = 0x123456#24

/-- 30_encoding.md R54, R55: the opcode field selects the command, every operand an unsigned field as it stands. -/
def Obligations.HeaderFieldsByArithmetic : Prop :=
  ∀ cw : CommandWord,
    (cw.toNat / 2 ^ 28 = 1 →
      decodeHeader cw = .construct (BitVec.ofNat 8 cw.toNat) (BitVec.ofNat 16 (cw.toNat / 2 ^ 8))) ∧
    (cw.toNat / 2 ^ 28 = 2 → decodeHeader cw = .clear) ∧
    (cw.toNat / 2 ^ 28 = 3 → decodeHeader cw = .send (BitVec.ofNat 24 cw.toNat)) ∧
    (cw.toNat / 2 ^ 28 = 4 → decodeHeader cw = .sendPattern (BitVec.ofNat 24 cw.toNat)) ∧
    (cw.toNat / 2 ^ 28 = 0 ∨ 5 ≤ cw.toNat / 2 ^ 28 → decodeHeader cw = .reserved (BitVec.ofNat 4 (cw.toNat / 2 ^ 28)))

/-- Every command, payload included, is read back from its words, with whatever follows it left over. -/
def Obligations.CommandRoundTrip : Prop :=
  ∀ (c : Params) (cmd : Command) (rest : List CommandWord),
    cmd.instr.wellFormed c = true → cmd.instr.isHeader = true → cmd.payload.length = payloadCount cmd.instr →
    ∃ ws, encode cmd = some ws ∧ decodeCommand (ws ++ rest) = .ok (cmd, rest)

/-- 30_encoding.md R60: reserved fields are not examined. -/
def Obligations.ReservedBitsAreNotExamined : Prop :=
  ∀ cw cw' : CommandWord,
    (cw &&& 0xF0FFFFFF#32 = cw' &&& 0xF0FFFFFF#32 → decodeHeader cw = decodeHeader cw') ∧
    (cw &&& 0xF0000000#32 = 0x20000000#32 → decodeHeader cw = .clear) ∧
    (opField cw = opField cw' → reservedOp (opField cw) = true → decodeHeader cw = decodeHeader cw')

/-- 30_encoding.md R57, R58: the header alone says how many words are payload, and a payload word is recognised by its position, its bits
31:24 ignored. That a list which ends inside the payload is answered with `payloadMissing` is the model's own choice: R58 is silent on
it, and the block itself waits (log entry 27). -/
def Obligations.FramingFollowsTheHeader : Prop :=
  ∀ (h : CommandWord) (ws : List CommandWord) (n : Nat),
    n = (if h.toNat / 2 ^ 28 = 4 then h.toNat % 2 ^ 24 else 0) →
    (n ≤ ws.length →
      ∃ cmd, decodeCommand (h :: ws) = .ok (cmd, ws.drop n) ∧ cmd.instr = decodeHeader h ∧
        cmd.payload = (ws.take n).map fun w => BitVec.ofNat 24 w.toNat) ∧
    (ws.length < n → decodeCommand (h :: ws) = .error (.payloadMissing ws.length n))

/-- 30_encoding.md R64: no micro-operation can be selected from the command port, none has a bit pattern. -/
def Obligations.MicroOperationsHaveNoEncoding : Prop :=
  (∀ cw : CommandWord, (decodeHeader cw).isHeader = true) ∧
  (∀ i : Instr, i.isHeader = false → encodeHeader i = none) ∧
  (∀ (c : Params) (cw : CommandWord), (decodeHeader cw).wellFormed c = true)

/-- 30_encoding.md R62, R63: the words of each line of the assembler, and what it rejects. -/
def Obligations.AssemblerWords : Prop :=
  ∀ c : Params,
    (∀ pin seg, assembleLine c (.construct pin (some seg)) =
      if pin ≤ 255 ∧ seg ≤ 65535 then some [BitVec.ofNat 32 (0x10000000 + seg * 256 + pin)] else none) ∧
    (∀ pin, assembleLine c (.construct pin none) = assembleLine c (.construct pin (some c.segDefault))) ∧
    assembleLine c .clear = some [0x20000000#32] ∧
    (∀ w, assembleLine c (.send w) = if w ≤ 0xFFFFFF then some [BitVec.ofNat 32 (0x30000000 + w)] else none) ∧
    (∀ ws, assembleLine c (.sendpattern ws) =
      if ws.length ≤ 16777215 ∧ ws.all (fun w => decide (w ≤ 0xFFFFFF)) = true then
        some (BitVec.ofNat 32 (0x40000000 + ws.length) :: ws.map (BitVec.ofNat 32)) else none) ∧
    (∀ v, v < 2 ^ 32 → assembleLine c (.word v) = some [BitVec.ofNat 32 v])

/-! ## Parameters -/

/-- 00_scope.md R10: recomputed durations are rounded half up and at least 1, a recomputed T1L is 0, and T_RST is rounded up. That T1L
stands as configured at equal clocks is the model's deduction (log entry 20), and that P-REF rescales nothing and has T_RST = 384 rests on its
PRESUMED clock of 16 MHz (log entry 6). -/
def Obligations.DurationsAreRescaled : Prop :=
  ∀ c : Params, c.legal = true →
    (c.fClkHz = c.fCalHz →
      c.high true = c.t1h ∧ c.high false = c.t0h ∧ c.low false = c.t0l ∧ c.low true = c.t1l) ∧
    (c.fClkHz ≠ c.fCalHz →
      c.low true = 0 ∧
      ∀ t r, 2 * t * c.fClkHz < (2 * r + 1) * c.fCalHz → (2 * r) * c.fCalHz ≤ 2 * t * c.fClkHz + c.fCalHz →
        (t = c.t1h → c.high true = max 1 r) ∧ (t = c.t0h → c.high false = max 1 r) ∧ (t = c.t0l → c.low false = max 1 r)) ∧
    c.tResetNs * c.fClkHz ≤ c.tRst * 1000000000 ∧ c.tRst * 1000000000 < c.tResetNs * c.fClkHz + 1000000000 ∧
    Params.pRef.fClkHz = Params.pRef.fCalHz ∧ Params.pRef.tRst = 384

/-- 70_reset_and_hazards.md R144, the column under P-REF; its clock of 16 MHz is PRESUMED (log entry 6). -/
def Obligations.PRefCosts : Prop :=
  Params.pRef.encodeCycles true = 30 ∧ Params.pRef.encodeCycles false = 14 ∧ Params.pRef.wordCycles 0x000000#24 = 336 ∧
  Params.pRef.wordCycles 0xFFFFFF#24 = 720 ∧ Params.pRef.wordCycles 0x000001#24 = 352 ∧
  Params.pRef.wordCycles 0xA5A5A5#24 = 528 ∧ Params.pRef.resetCycles = 385 ∧ Params.pRef.tRst = 384 ∧
  Params.pRef.pulseHigh true = 29 ∧ Params.pRef.pulseHigh false = 10 ∧ Params.pRef.pulseGap true = 1 ∧
  Params.pRef.pulseGap false = 4

/-! ## Reset -/

/-- 10_state.md R34: the values the table states. -/
def Obligations.ResetLeavesTheTableValues : Prop :=
  State.reset.pin = 0#8 ∧ State.reset.pinmask = 0#256 ∧ State.reset.segcount = 0#16 ∧ State.reset.ie = false ∧
  State.reset.nextValid = false ∧ State.reset.wcnt = 0#24 ∧ State.reset.fcnt = 0#24 ∧ State.reset.cmd = .none ∧
  State.reset.phase = .idle ∧ busy State.reset = false ∧ disabled State.reset = true

/-- 70_reset_and_hazards.md R130, R131: hardware reset, whatever the block was doing; PORT is not touched. That busy, disabled and ie_out
have R130's values in that very cycle is the model's deduction against 10_state.md R32 (log entry 13), that the host's words stay presented
and its waiting goes on is log entries 9 and 23, and that a second writer is refused in this cycle too is log entry 8. -/
def Obligations.HardwareResetFromAnyState : Prop :=
  ∀ s : State, (nowPins s).rst = true → secondWriter s = false →
    ∃ t, step s = .next t ∧ t.pin = 0#8 ∧ t.pinmask = 0#256 ∧ t.segcount = 0#16 ∧ t.ie = false ∧ t.nextValid = false ∧
      t.wcnt = 0#24 ∧ t.fcnt = 0#24 ∧ t.cmd = .none ∧ t.phase = .idle ∧ busy t = false ∧ disabled t = true ∧ t.cycle = 0 ∧
      t.cfg = s.cfg ∧ t.pins = s.pins.tail ∧ t.host = waitHost s.host ∧
      (∀ j, untouched j s.pins = true → t.port.getLsbD j = s.port.getLsbD j) ∧
      ∃ o, t.trace = o :: s.trace ∧ o.cmdReady = false ∧ o.portSet = 0#256 ∧ o.portClr = 0#256 ∧ o.busy = false ∧
        o.disabled = true ∧ o.ieOut = false

/-! ## The step -/

/-- 45_strip_controller.md R90, R98, 10_state.md R21: a header presented to an idle block in an advancing cycle is accepted, IE takes
the host's write of that cycle, and the step is the decoded instruction from the end of that cycle on; that it is one step is the model's choice (log entry 1). -/
def Obligations.StepRunsTheAcceptedHeader : Prop :=
  ∀ (s : State) (cw : CommandWord) (hs : List HostWord),
    s.phase = .idle → s.host = ⟨0, cw⟩ :: hs → secondWriter s = false → (nowPins s).rst = false → advances s = true →
    step s = exec (decodeHeader cw)
      { s with
        host := hs
        pins := s.pins.tail
        ie := if (nowPins s).ieWe then (nowPins s).ieData else s.ie
        port := nextPort 0#256 0#256 s
        cycle := s.cycle + 1
        trace := outputs true 0#256 0#256 s :: s.trace }

/-- The word put where the next step takes its instruction from is the one the next step runs; the form of it is the model's choice
(log entry 21). -/
def Obligations.FetchedWordRuns : Prop :=
  ∀ (s : State) (w : Nat), w < 2 ^ 32 →
    ∃ u, step (s.withFetchWord 32 w) = exec (decodeHeader (BitVec.ofNat 32 w)) u ∧
      decodeTableWord 32 w = some (decodeHeader (BitVec.ofNat 32 w)) ∧ u.phase = .idle ∧
      u.host = List.replicate (payloadCount (decodeHeader (BitVec.ofNat 32 w))) ⟨0, 0#32⟩ ++ s.host ∧
      u.ie = s.ie ∧ SameConfiguration s u ∧ u.cycle = s.cycle + 1

/-- 10_state.md R21, 45_strip_controller.md R90: an idle cycle in which no word is presented changes nothing but IE. -/
def Obligations.IdleCycleWritesIeOnly : Prop :=
  ∀ s : State, s.phase = .idle → presented s = none → secondWriter s = false → (nowPins s).rst = false →
    advances s = true →
    step s = .next
      { s with
        host := waitHost s.host
        pins := s.pins.tail
        ie := if (nowPins s).ieWe then (nowPins s).ieData else s.ie
        port := nextPort 0#256 0#256 s
        cycle := s.cycle + 1
        trace := outputs true 0#256 0#256 s :: s.trace }

/-- 10_state.md R21: outside IDLE `ie_we` is ignored. -/
def Obligations.IeWriteIgnoredWhenBusy : Prop :=
  ∀ (s : State) (p : PinIn) (ps : List PinIn) (we d : Bool), s.pins = p :: ps → s.phase ≠ .idle →
    step { s with pins := { p with ieWe := we, ieData := d } :: ps } = step s

/-- 46_interrupt_sync.md R108: in a cycle that does not advance every register keeps its value, nothing is pulsed or
accepted; and with IE = 0 every cycle advances. -/
def Obligations.StalledCycleFreezesTheBlock : Prop :=
  (∀ s : State, s.ie = true → (nowPins s).stall = true → secondWriter s = false → (nowPins s).rst = false →
    step s = .next
      { s with
        host := waitHost s.host
        pins := s.pins.tail
        port := nextPort 0#256 0#256 s
        cycle := s.cycle + 1
        trace := outputs false 0#256 0#256 s :: s.trace }) ∧
  (∀ s : State, advances s = true ↔ ¬(s.ie = true ∧ (nowPins s).stall = true)) ∧
  (∀ s : State, s.ie = false → advances s = true)

/-- 10_state.md R33, 30_encoding.md R56: when `cmd_ready` is 1, that a presented word stays presented until it is accepted, and
when the block may pulse. That `cmd_ready` is never 1 with `rst` = 1 is 70_reset_and_hazards.md R130, which R33 does not repeat; that R130's
outputs hold in that very cycle is the model's deduction against 10_state.md R32 (log entry 13). -/
def Obligations.CommandPortHandshake : Prop :=
  ∀ s t : State, clock s = .next t →
    ∃ o, t.trace = o :: s.trace ∧
      (o.cmdReady = true ↔
        advances s = true ∧ (nowPins s).rst = false ∧
          (s.phase = .idle ∨ s.phase = .fetch ∨
            (s.cmd = .sendPattern ∧ s.phase.isBit = true ∧ 0 < s.fcnt.toNat ∧ s.nextValid = false))) ∧
      (∀ cw, presented s = some cw → t.host = if o.cmdReady then s.host.tail else s.host) ∧
      (presented s = none → t.host = waitHost s.host) ∧
      (o.portSet ≠ 0#256 → s.phase = .bitRise ∧ s.dly ≤ 1 ∧ o.portSet = s.pinmask) ∧
      (o.portClr ≠ 0#256 → (s.phase = .bitFall ∨ s.phase = .rstDrive) ∧ s.dly ≤ 1 ∧ o.portClr = s.pinmask)

/-- 60_exceptions.md R118: the step has two outcomes only, the next state or a refusal, and the refusal is the one
93_implementation_defined.md U1 asks for (log entry 8). -/
def Obligations.StepNeverFaults : Prop :=
  (∀ s : State, (∃ t, step s = .next t) ∨ step s = .refused .secondWriter) ∧
  (∀ s : State, undriven s.pins = true → ∃ t, step s = .next t)

/-- 20_memory.md R36, R37: each word of the command stream is read at most once and in order. -/
def Obligations.CommandStreamReadInOrder : Prop :=
  ∀ s t : State, step s = .next t → ∃ k, t.host.map (·.data) = (s.host.map (·.data)).drop k

/-- The pseudocode of the commands and the phase by phase sequencer are one machine: a step is a run of clock cycles (the model's
choice of both, log entry 1). -/
def Obligations.StepIsARunOfClockCycles : Prop :=
  ∀ s : State,
    (∀ t, step s = .next t → ∃ n, clocks n s = .next t ∧ t.trace.length = s.trace.length + n ∧ 0 < n) ∧
    (∀ r, step s = .refused r → ∃ n, clocks n s = .refused r)

/-- 45_strip_controller.md R90, R99: `busy` is 0 in the cycle of acceptance and 1 in every later cycle of the command;
a reserved header has no later cycle. -/
def Obligations.BusyFromAcceptanceToTheEnd : Prop :=
  ∀ (s t : State) (cw : CommandWord), acceptedHeader s = some cw → noReset s.pins = true → step s = .next t →
    ∃ os, passed s t = outputs true 0#256 0#256 s :: os ∧ (outputs true 0#256 0#256 s).busy = false ∧
      (∀ o ∈ os, o.busy = true) ∧ (os = [] ↔ reservedOp (opField cw) = true)

/-- 45_strip_controller.md R99, 30_encoding.md R59: a reserved header is accepted and dropped: no register changes (IE but for the
host's own write of it), nothing is driven, no cycle but that of acceptance passes, no payload follows, PHASE stays IDLE, and the
next header can be accepted in the next cycle. -/
def Obligations.ReservedHeaderIsDropped : Prop :=
  (∀ (op : BitVec 4) (s : State), exec (.reserved op) s = .next s) ∧
  (∀ cw : CommandWord, reservedOp (opField cw) = true →
    decodeHeader cw = .reserved (opField cw) ∧ payloadCount (decodeHeader cw) = 0) ∧
  (∀ (s : State) (cw : CommandWord), acceptedHeader s = some cw → reservedOp (opField cw) = true →
    ∃ t, step s = .next t ∧ busy s = false ∧ busy t = false ∧ ready t = true ∧ t =
      { s with
        host := s.host.tail
        pins := s.pins.tail
        ie := if (nowPins s).ieWe then (nowPins s).ieData else s.ie
        port := nextPort 0#256 0#256 s
        cycle := s.cycle + 1
        trace := outputs true 0#256 0#256 s :: s.trace })

/-! ## The GPIO sequencer -/

/-- 41_gpio_line.md R65, R66: PINSEL writes PIN and PINMASK and nothing else, in no cycle; the mask has exactly the bit of a valid
index and none otherwise, and DISABLED says which; PINSEL has no encoding. -/
def Obligations.PinSelSelectsTheMask : Prop :=
  ∀ (p : PinIndex) (s : State),
    exec (.pinSel p) s = .next { s with pin := p, pinmask := if p.toNat < s.cfg.portWidth then 1#256 <<< p.toNat else 0#256 } ∧
    (∀ j, (maskOfPin s.cfg.portWidth p).getLsbD j = (decide (p.toNat < s.cfg.portWidth) && decide (j = p.toNat))) ∧
    (pinValid s.cfg.portWidth p = true ↔ p.toNat < s.cfg.portWidth) ∧
    (∀ t, exec (.pinSel p) s = .next t → disabled t = !pinValid s.cfg.portWidth p) ∧ encodeHeader (.pinSel p) = none

/-- 41_gpio_line.md R67, R68: DRIVEHIGH and DRIVELOW take C_DRIVE advancing cycles; PORT changes at the end of the last, in the bit
PINMASK selects. -/
def Obligations.DriveOperationsSetTheLine : Prop :=
  ∀ s : State, s.cfg.legal = true → calm s.pinmask s.pins = true → stallsEnd s = true →
    (∃ t, exec .driveHigh s = .next t ∧ Took s.cfg.cDrive s t ∧
      ∀ j, untouched j s.pins = true →
        t.port.getLsbD j = (s.port.getLsbD j || s.pinmask.getLsbD j) ∧
          ∀ o ∈ passed s t, o.port.getLsbD j = s.port.getLsbD j) ∧
    (∃ t, exec .driveLow s = .next t ∧ Took s.cfg.cDrive s t ∧
      ∀ j, untouched j s.pins = true →
        t.port.getLsbD j = (s.port.getLsbD j && !s.pinmask.getLsbD j) ∧
          ∀ o ∈ passed s t, o.port.getLsbD j = s.port.getLsbD j)

/-- 20_memory.md R38, R44: in every cycle of every instruction the block pulses nothing, or sets or clears, never both, the bits
of PINMASK. -/
def Obligations.OnlyTheSelectedBitIsPulsed : Prop :=
  ∀ (i : Instr) (s t : State), exec i s = .next t →
    ∀ o ∈ passed s t,
      (o.portSet = 0#256 ∧ o.portClr = 0#256) ∨ (o.portSet = drivenMask i s ∧ o.portClr = 0#256) ∨
      (o.portSet = 0#256 ∧ o.portClr = drivenMask i s)

/-- 41_gpio_line.md R70: with PINMASK all-zero no instruction but CONSTRUCT and PINSEL changes a bit of PORT. -/
def Obligations.DisabledLineIsLeftAlone : Prop :=
  ∀ (i : Instr) (s t : State), writesConfiguration i = false → s.pinmask = 0#256 → exec i s = .next t →
    (∀ o ∈ passed s t, o.portSet = 0#256 ∧ o.portClr = 0#256) ∧ PortElsewhere 0#256 s t

/-- 41_gpio_line.md R69, R70: which pin is selected, and whether one is, changes no cycle count and nothing of `cmd_ready`, IE and
`busy`. -/
def Obligations.TimingIgnoresTheLine : Prop :=
  ∀ (i : Instr) (s s' t : State), SameButLine s s' → undriven s.pins = true → exec i s = .next t →
    ∃ t', exec i s' = .next t' ∧ SameButLine t t' ∧
      (passed s t).map (fun o => (o.cmdReady, o.ieOut, o.busy)) = (passed s' t').map (fun o => (o.cmdReady, o.ieOut, o.busy))

/-! ## The bit encoder and the word serializer -/

/-- 42_bit_encoder.md R71: HOLD(n) takes n advancing cycles, PORT and IE hold; HOLD(0) costs nothing. -/
def Obligations.HoldTakesItsCycles : Prop :=
  ∀ (n : Nat) (s : State), calm s.pinmask s.pins = true → stallsEnd s = true →
    (∃ t, exec (.hold n) s = .next t ∧ Took n s t ∧ t.ie = s.ie ∧ PortElsewhere 0#256 s t ∧
      ∀ o ∈ passed s t, o.portSet = 0#256 ∧ o.portClr = 0#256) ∧
    exec (.hold 0) s = .next s

/-- 42_bit_encoder.md R73, R74, 46_interrupt_sync.md R109: the cost of a bit, and the line low at its end. -/
def Obligations.EncodeBitTakesItsCycles : Prop :=
  ∀ s : State, s.cfg.legal = true → calm s.pinmask s.pins = true → stallsEnd s = true →
    (∃ t, exec .encodeBit1 s = .next t ∧ Took (2 * s.cfg.cDrive + s.cfg.high true + s.cfg.low true) s t ∧
      t.port &&& s.pinmask = 0#256) ∧
    (∃ t, exec .encodeBit0 s = .next t ∧ Took (2 * s.cfg.cDrive + s.cfg.high false + s.cfg.low false) s t ∧
      t.port &&& s.pinmask = 0#256)

/-- 42_bit_encoder.md R73, R74: the level of the line in every cycle of a bit, on an enabled line absent stalls. -/
def Obligations.EncodeBitWaveform : Prop :=
  ∀ s : State, s.cfg.legal = true → calm s.pinmask s.pins = true → neverStalls s = true → LineOwned s →
    (∃ t, exec .encodeBit1 s = .next t ∧ lineLevels (passed s t) =
      List.replicate s.cfg.cDrive false ++ List.replicate (s.cfg.high true + s.cfg.cDrive) true ++
        List.replicate (s.cfg.low true) false ∧ LineOwned t) ∧
    (∃ t, exec .encodeBit0 s = .next t ∧ lineLevels (passed s t) =
      List.replicate s.cfg.cDrive false ++ List.replicate (s.cfg.high false + s.cfg.cDrive) true ++
        List.replicate (s.cfg.low false) false ∧ LineOwned t)

/-- 43_word_serializer.md R78, R83, 46_interrupt_sync.md R109: TRANSMIT(w) takes W(w) advancing cycles, from any state. -/
def Obligations.TransmitTakesItsCycles : Prop :=
  ∀ (w : ColorWord) (s : State), s.cfg.legal = true → calm s.pinmask s.pins = true → stallsEnd s = true →
    ∃ t, exec (.transmit w) s = .next t ∧
      Took (24 * (2 * s.cfg.cDrive + s.cfg.gBit) + popcount w * (s.cfg.high true + s.cfg.low true) +
        (24 - popcount w) * (s.cfg.high false + s.cfg.low false)) s t ∧
      t.word = w ∧ t.bitmask = 0#24 ∧ t.port &&& s.pinmask = 0#256

/-- 43_word_serializer.md R79: on an enabled line and absent stalls exactly 24 pulses, the k-th of high duration H(1) when bit k is set and
H(0) otherwise, and the low gap L after each but the last; that the last is listed with an unbounded gap is the model's choice (log entry 29).
A transmission that is stalled (46_interrupt_sync.md R109) is left out here. -/
def Obligations.TransmitSendsTheBitsInOrder : Prop :=
  ∀ (w : ColorWord) (s : State), s.cfg.legal = true → calm s.pinmask s.pins = true → neverStalls s = true → LineOwned s →
    ∃ t, exec (.transmit w) s = .next t ∧ lineLevels (passed s t) = wordLevels s.cfg w ∧
      pulses (lineLevels (passed s t)) = wordPulses s.cfg w ∧ LineOwned t

/-- The frame of the micro-operations that act on the line (41_gpio_line.md, 42_bit_encoder.md, 43_word_serializer.md,
44_reset_signal.md). Inside SENDPATTERN a payload word may be prefetched meanwhile (45_strip_controller.md R95). -/
def Obligations.LineOperationsFrame : Prop :=
  ∀ (i : Instr) (s t : State), isLineOperation i = true → noReset s.pins = true → exec i s = .next t →
    SameConfiguration s t ∧ t.ie = s.ie ∧ t.ieSaved = s.ieSaved ∧ t.wcnt = s.wcnt ∧ t.cmd = s.cmd ∧ t.latch = s.latch ∧
    (s.cmd ≠ .sendPattern → SamePrefetch s t) ∧
    ((∀ w, i ≠ .transmit w) → t.word = s.word ∧ t.bitmask = s.bitmask) ∧ PortElsewhere s.pinmask s t

/-! ## The reset signal and the synchronizer -/

/-- 44_reset_signal.md R84, R85: RESET takes C_DRIVE + T_RST advancing cycles, and the line is low in the last T_RST of
them at least. -/
def Obligations.ResetHoldsTheLineLow : Prop :=
  ∀ s : State, s.cfg.legal = true → calm s.pinmask s.pins = true → stallsEnd s = true →
    ∃ t, exec .reset s = .next t ∧ Took (s.cfg.cDrive + s.cfg.tRst) s t ∧ t.port &&& s.pinmask = 0#256 ∧
      ∀ o ∈ t.trace.take s.cfg.tRst, o.port &&& s.pinmask = 0#256

/-- 46_interrupt_sync.md R103: IRQMASK, its result, its cost and its frame. -/
def Obligations.IrqMaskSavesAndClears : Prop :=
  ∀ s : State, s.cfg.legal = true → calm s.pinmask s.pins = true → stallsEnd s = true →
    ∃ t, exec .irqMask s = .next t ∧ t.ieSaved = s.ie ∧ t.ie = false ∧ Took s.cfg.cSync s t ∧
      (∀ o ∈ passed s t, o.ieOut = s.ie) ∧ SameConfiguration s t ∧ SamePrefetch s t ∧ t.wcnt = s.wcnt ∧
      t.cmd = s.cmd ∧ t.latch = s.latch ∧ t.word = s.word ∧ t.bitmask = s.bitmask ∧ PortElsewhere 0#256 s t

/-- 46_interrupt_sync.md R104: IRQRESTORE, its result, its cost and its frame. R104 says that it is never stalled, since IE = 0 when it runs;
that by itself from IE = 1, where no command starts it, it can be stalled like any other cycle is the model's deduction (log entry 26). -/
def Obligations.IrqRestorePutsBack : Prop :=
  ∀ s : State, s.cfg.legal = true → calm s.pinmask s.pins = true → stallsEnd s = true →
    ∃ t, exec .irqRestore s = .next t ∧ t.ie = s.ieSaved ∧ t.ieSaved = s.ieSaved ∧ Took s.cfg.cSync s t ∧
      (∀ o ∈ passed s t, o.ieOut = s.ie) ∧ SameConfiguration s t ∧ SamePrefetch s t ∧ t.wcnt = s.wcnt ∧
      t.cmd = s.cmd ∧ t.latch = s.latch ∧ t.word = s.word ∧ t.bitmask = s.bitmask ∧ PortElsewhere 0#256 s t

/-- 46_interrupt_sync.md R108, R110: from IE = 0 no instruction depends on the stalls of the schedule. -/
def Obligations.MaskedRunIgnoresStalls : Prop :=
  ∀ (i : Instr) (s : State), s.ie = false →
    (∀ t, exec i s = .next t → exec i (unstalled s) = .next (unstalled t)) ∧
    (∀ r, exec i s = .refused r → exec i (unstalled s) = .refused r)

/-! ## The commands -/

/-- 45_strip_controller.md R91, 70_reset_and_hazards.md R140: CONSTRUCT, its result, its cost and its frame. That IE_SAVED is kept
after a command is the model's deduction (log entry 4), here and in the three commands below. -/
def Obligations.ConstructConfiguresAndResets : Prop :=
  ∀ (pin : PinIndex) (seg : SegCount) (s : State), s.cfg.legal = true → calm s.pinmask s.pins = true →
    calm (maskOfPin s.cfg.portWidth pin) s.pins = true → stallsEnd s = true →
    ∃ t, exec (.construct pin seg) s = .next t ∧ t.pin = pin ∧
      t.pinmask = (if pin.toNat < s.cfg.portWidth then 1#256 <<< pin.toNat else 0#256) ∧ t.segcount = seg ∧
      disabled t = !pinValid s.cfg.portWidth pin ∧ t.phase = .idle ∧ t.cmd = .none ∧
      Took (s.cfg.cCfg + s.cfg.cDrive + s.cfg.tRst) s t ∧ t.port &&& t.pinmask = 0#256 ∧
      (∀ o ∈ t.trace.take s.cfg.tRst, o.port &&& t.pinmask = 0#256) ∧
      t.ie = s.ie ∧ t.ieSaved = s.ieSaved ∧ t.wcnt = s.wcnt ∧ t.fcnt = s.fcnt ∧ t.nextValid = s.nextValid ∧
      t.cfg = s.cfg ∧ (∃ n, t.host = waitHost^[n] s.host) ∧ PortElsewhere t.pinmask s t

/-- 45_strip_controller.md R92: CLEAR, its result, its cost and its frame, under either policy. -/
def Obligations.ClearResetsAndSendsZeros : Prop :=
  ∀ s : State, s.cfg.legal = true → calm s.pinmask s.pins = true → stallsEnd s = true →
    ∃ t, exec .clear s = .next t ∧ t.phase = .idle ∧ t.cmd = .none ∧ t.wcnt = 0#24 ∧ t.ie = s.ie ∧
      SameConfiguration s t ∧ t.fcnt = s.fcnt ∧ t.nextValid = s.nextValid ∧ (∃ n, t.host = waitHost^[n] s.host) ∧
      t.ieSaved = (if s.cfg.maskPolicy = .uniform then s.ie else s.ieSaved) ∧
      (s.cfg.maskPolicy = .reference →
        Took (s.cfg.cDrive + s.cfg.tRst + s.segcount.toNat * s.cfg.wordCycles 0#24) s t) ∧
      s.cycle + (s.cfg.cDrive + s.cfg.tRst + s.segcount.toNat * s.cfg.wordCycles 0#24 + s.cfg.sectionCycles) ≤ t.cycle ∧
      (s.ie = false →
        t.cycle = s.cycle + (s.cfg.cDrive + s.cfg.tRst + s.segcount.toNat * s.cfg.wordCycles 0#24 + s.cfg.sectionCycles)) ∧
      t.port &&& s.pinmask = 0#256 ∧ PortElsewhere s.pinmask s t

/-- 45_strip_controller.md R92: the level of the line in every cycle of a CLEAR absent stalls. -/
def Obligations.ClearWaveform : Prop :=
  ∀ s : State, s.cfg.legal = true → calm s.pinmask s.pins = true → neverStalls s = true → LineOwned s →
    ∃ t, exec .clear s = .next t ∧
      lineLevels (passed s t) = List.replicate (s.cfg.cDrive + s.cfg.tRst) false ++
        (List.replicate (s.cfg.sectionCycles / 2) false ++
          patternLevels s.cfg (List.replicate s.segcount.toNat 0#24) ++ List.replicate (s.cfg.sectionCycles / 2) false) ∧
      LineOwned t

/-- 45_strip_controller.md R92: calling CLEAR twice in succession produces two identical pulse sequences, the last pulse of each listed with
an unbounded gap (the model's choice, log entry 29). -/
def Obligations.ClearTwiceIsIdentical : Prop :=
  ∀ s : State, s.cfg.legal = true → calm s.pinmask s.pins = true → neverStalls s = true → LineOwned s →
    ∃ t u, exec .clear s = .next t ∧ exec .clear t = .next u ∧
      pulses (lineLevels (passed s t)) = pulses (lineLevels (passed t u)) ∧
      (pulses (lineLevels (passed s t))).length = 24 * s.segcount.toNat

/-- 45_strip_controller.md R93: SEND, its result, its cost and its frame, under either policy. -/
def Obligations.SendTransmitsOneWord : Prop :=
  ∀ (w : ColorWord) (s : State), s.cfg.legal = true → calm s.pinmask s.pins = true → stallsEnd s = true →
    ∃ t, exec (.send w) s = .next t ∧ t.phase = .idle ∧ t.cmd = .none ∧ t.ie = s.ie ∧ SameConfiguration s t ∧
      t.wcnt = s.wcnt ∧ t.fcnt = s.fcnt ∧ t.nextValid = s.nextValid ∧ (∃ n, t.host = waitHost^[n] s.host) ∧
      t.ieSaved = (if s.cfg.maskPolicy = .uniform then s.ie else s.ieSaved) ∧
      (s.cfg.maskPolicy = .reference → Took (s.cfg.wordCycles w) s t) ∧
      s.cycle + (s.cfg.wordCycles w + s.cfg.sectionCycles) ≤ t.cycle ∧
      (s.ie = false → t.cycle = s.cycle + (s.cfg.wordCycles w + s.cfg.sectionCycles)) ∧
      t.port &&& s.pinmask = 0#256 ∧ PortElsewhere s.pinmask s t

/-- 45_strip_controller.md R93: the level of the line in every cycle of a SEND absent stalls; no RESET comes before the word. -/
def Obligations.SendWaveform : Prop :=
  ∀ (w : ColorWord) (s : State), s.cfg.legal = true → calm s.pinmask s.pins = true → neverStalls s = true → LineOwned s →
    ∃ t, exec (.send w) s = .next t ∧
      lineLevels (passed s t) = List.replicate (s.cfg.sectionCycles / 2) false ++ wordLevels s.cfg w ++
        List.replicate (s.cfg.sectionCycles / 2) false ∧ LineOwned t

/-- 45_strip_controller.md R94, R97: SENDPATTERN whose payload the host supplies at whatever time: its result, its least cost and
its frame. SEGCOUNT plays no part. -/
def Obligations.SendPatternCompletes : Prop :=
  ∀ (n : WordCount) (ws : List ColorWord) (rest : List HostWord) (s : State), s.cfg.legal = true →
    calm s.pinmask s.pins = true → stallsEnd s = true → Supplies s ws rest → ws.length = n.toNat →
    ∃ t, exec (.sendPattern n) s = .next t ∧ t.phase = .idle ∧ t.cmd = .none ∧ t.ie = s.ie ∧ t.ieSaved = s.ie ∧
      t.wcnt = 0#24 ∧ t.fcnt = 0#24 ∧ t.nextValid = false ∧ SameConfiguration s t ∧ (∃ k, t.host = waitHost^[k] rest) ∧
      s.cycle + (2 * s.cfg.cSync + (if n = 0#24 then 0 else 1) + patternCycles s.cfg ws) ≤ t.cycle ∧
      (n = 0#24 ∨ t.port &&& s.pinmask = 0#256) ∧ PortElsewhere s.pinmask s t

/-- 45_strip_controller.md R94, R95, R101, 46_interrupt_sync.md R110: SENDPATTERN whose payload comes in time (host duty HD2, and the first
word by the first FETCH cycle) and whose IRQMASK is not stalled: the exact cost, and the level of the line in every cycle, whatever the stalls
after IRQMASK, a stall without end included: the words in index order, with nothing between them. -/
def Obligations.SendPatternWaveform : Prop :=
  ∀ (n : WordCount) (payload rest : List HostWord) (s : State), s.cfg.legal = true → calm s.pinmask s.pins = true →
    s.host = payload ++ rest → payload.length = n.toNat → inTime s.cfg payload = true →
    (∀ k, k < s.cfg.cSync → goesOn s k = true) →
    ∃ t, exec (.sendPattern n) s = .next t ∧
      t.cycle = s.cycle + (2 * s.cfg.cSync + (if n = 0#24 then 0 else 1) +
        patternCycles s.cfg (payload.map fun h => colorField h.data)) ∧
      (LineOwned s →
        lineLevels (passed s t) = List.replicate s.cfg.cSync false ++ (if n = 0#24 then [] else [false]) ++
          patternLevels s.cfg (payload.map fun h => colorField h.data) ++ List.replicate s.cfg.cSync false ∧ LineOwned t)

/-- 46_interrupt_sync.md R102, R103, R105: SENDPATTERN's first C_SYNC advancing cycles, with the stalled ones among them and no other
cycle, show the IE of before and no pulse; IE is 0 in every later cycle, whatever the host does, and afterwards it is what it was. A payload
that does not come leaves it 0; that the step ends there is the model's choice (log entry 11). For a stall without end see EndlessStallCutsShort. -/
def Obligations.SendPatternMasksInterrupts : Prop :=
  ∀ (n : WordCount) (s t : State), s.cfg.legal = true → noReset s.pins = true → stallsEnd s = true →
    exec (.sendPattern n) s = .next t →
    (∃ before inside, passed s t = before ++ inside ∧ Spans s s.cfg.cSync before.length ∧
      (∀ o ∈ before, o.ieOut = s.ie ∧ o.portSet = 0#256 ∧ o.portClr = 0#256) ∧ (∀ o ∈ inside, o.ieOut = false)) ∧
    (t.phase = .idle → t.ie = s.ie) ∧ (t.phase ≠ .idle → t.ie = false)

/-- 45_strip_controller.md R96, 70_reset_and_hazards.md R137: a payload that stops short leaves the block in FETCH, busy, with IE = 0;
that the step ends there is the model's choice (log entry 11). -/
def Obligations.MissingPayloadLeavesFetch : Prop :=
  ∀ (n : WordCount) (ws : List ColorWord) (s : State), s.cfg.legal = true → calm s.pinmask s.pins = true → stallsEnd s = true →
    Supplies s ws [] → ws.length < n.toNat →
    ∃ t, exec (.sendPattern n) s = .next t ∧ t.phase = .fetch ∧ t.cmd = .sendPattern ∧ t.ie = false ∧ busy t = true ∧
      t.host = [] ∧ t.fcnt.toNat = n.toNat - ws.length ∧ t.wcnt.toNat = n.toNat - ws.length ∧ t.nextValid = false ∧
      (ws = [] ∨ t.port &&& s.pinmask = 0#256)

/-- 70_reset_and_hazards.md R137: with no payload word coming and no hardware reset the block stays there for ever. -/
def Obligations.MissingPayloadHangs : Prop :=
  ∀ (n : Nat) (s : State), s.phase = .fetch → s.cmd = .sendPattern → s.ie = false → s.host = [] →
    calm s.pinmask s.pins = true →
    ∃ t, Host.Core.run Sys2Proof.core n s = .next t ∧ t.phase = .fetch ∧ t.cmd = .sendPattern ∧ t.ie = false ∧
      t.host = [] ∧ busy t = true ∧ t.cycle = s.cycle + n ∧ t.port &&& s.pinmask = s.port &&& s.pinmask

/-! ## Whole-machine rules -/

/-- 10_state.md R19: nothing but CONSTRUCT (through PINSEL) and hardware reset writes PIN, PINMASK or SEGCOUNT, and CONSTRUCT
overwrites all three. -/
def Obligations.ConfigurationIsImmutable : Prop :=
  (∀ (pin : PinIndex) (seg : SegCount) (s t : State), noReset s.pins = true → stallsEnd s = true → exec (.construct pin seg) s = .next t →
    t.pin = pin ∧ t.pinmask = maskOfPin s.cfg.portWidth pin ∧ t.segcount = seg ∧ t.cfg = s.cfg) ∧
  (∀ (i : Instr) (s t : State), writesConfiguration i = false → noReset s.pins = true → exec i s = .next t →
    SameConfiguration s t) ∧
  (∀ s t : State, noReset s.pins = true → s.phase ≠ .cfg →
    (∀ cw, acceptedHeader s = some cw → cw.toNat / 2 ^ 28 ≠ 1) → step s = .next t → SameConfiguration s t)

/-- The invariant holds of the machine right after reset; PORT is 0 there by the model's choice (log entry 5). -/
def Obligations.InvariantAtReset : Prop := Inv State.reset

/-- Every step, and every clock cycle of the sequencer, the cycle of acceptance of a header among them, keeps the invariant: the width of
PORT, the weak form of 10_state.md R18, a legal sequencer position, counters that agree with it (R24, R25), IE = 0 inside a masked section
(46_interrupt_sync.md R105), and an idle-low line (10_state.md R31). -/
def Obligations.EveryStepKeepsTheInvariant : Prop :=
  (∀ s t : State, Inv s → step s = .next t → Inv t) ∧ (∀ s t : State, Inv s → clock s = .next t → Inv t)

/-- 70_reset_and_hazards.md R146: at the end of a run WCNT = FCNT = 0, NEXT_VALID = 0, and an enabled line is low. -/
def Obligations.EndOfARun : Prop :=
  ∀ (k : Nat) (s t : State), Inv s → Host.Core.run Sys2Proof.core k s = .next t → RunEnded t →
    t.wcnt = 0#24 ∧ t.fcnt = 0#24 ∧ t.nextValid = false ∧ t.cmd = .none ∧
    (disabled t = false → t.pinmask = maskOfPin t.cfg.portWidth t.pin ∧ lineNow t = some false)

/-- 46_interrupt_sync.md R106, R110, 45_strip_controller.md R92, R93: under UNIFORM the words of CLEAR and SEND are exact, whatever stalls come:
up to the end of IRQMASK the line is low and the cycles are those of the operations and the stalled ones among them, and from then on IE is
0 and every level is the rules' own. -/
def Obligations.UniformWordsAreExact : Prop :=
  ∀ s : State, s.cfg.legal = true → calm s.pinmask s.pins = true → stallsEnd s = true → s.cfg.maskPolicy = .uniform →
    (∃ t, exec .clear s = .next t ∧
      SendsMasked s t (s.cfg.cDrive + s.cfg.tRst + s.cfg.cSync) (List.replicate s.segcount.toNat 0#24)) ∧
    ∀ w : ColorWord, ∃ t, exec (.send w) s = .next t ∧ SendsMasked s t s.cfg.cSync [w]

/-- 70_reset_and_hazards.md R138: when a stall that never ends has begun at IE = 1, the block hangs in whatever phase it was in, whatever the
host presents: no register changes, and PORT and the line keep their level. The form of an endless stall is the model's choice (log entry 10). -/
def Obligations.EndlessStallHangs : Prop :=
  ∀ (n : Nat) (s : State), hung s = true →
    Host.Core.run Sys2Proof.core n s = .next
      { s with
        host := waitHost^[n] s.host
        cycle := s.cycle + n
        trace := List.replicate n (outputs false 0#256 0#256 s) ++ s.trace }

/-- 70_reset_and_hazards.md R138: an instruction begun at IE = 1 when every cycle to come is stalled never gets past its first cycle. That
its step ends one cycle past the schedule is the model's choice (log entry 10), that a micro-operation run by itself then stands in a phase
other than IDLE is too (log entry 18), and that IRQRESTORE begun at IE = 1, where no command starts it, is stalled is its deduction (log
entry 26). -/
def Obligations.EndlessStallCutsShort : Prop :=
  ∀ (i : Instr) (s : State), takesTime i = true → s.ie = true → s.stallAfter = true → s.pins.all (·.stall) = true →
    calm s.pinmask s.pins = true →
    ∃ t, exec i s = .next t ∧ hung t = true ∧ t.phase ≠ .idle ∧ t.cycle = s.cycle + (s.pins.length + 1) ∧ t.ieSaved = s.ieSaved ∧
      SameConfiguration s t ∧ (∃ n, t.host = waitHost^[n] s.host) ∧ PortElsewhere 0#256 s t ∧
      ∀ o ∈ passed s t, o.ieOut = true ∧ o.cmdReady = false ∧ o.portSet = 0#256 ∧ o.portClr = 0#256
end

