-- ==== Sys2Proof/Laws/State.lean ====
section
/-! SUPPORT. One lemma per field per update of the state: what the update leaves there. -/

namespace Sys2Proof.Machine

variable (s : State)

/-! ### elapse -/

@[simp] theorem elapse_pin (o : Obs) (a b : PortWord) : (s.elapse o a b).pin = s.pin := rfl
@[simp] theorem elapse_pinmask (o : Obs) (a b : PortWord) : (s.elapse o a b).pinmask = s.pinmask := rfl
@[simp] theorem elapse_segcount (o : Obs) (a b : PortWord) : (s.elapse o a b).segcount = s.segcount := rfl
@[simp] theorem elapse_ie (o : Obs) (a b : PortWord) : (s.elapse o a b).ie = s.ie := rfl
@[simp] theorem elapse_ieSaved (o : Obs) (a b : PortWord) : (s.elapse o a b).ieSaved = s.ieSaved := rfl
@[simp] theorem elapse_word (o : Obs) (a b : PortWord) : (s.elapse o a b).word = s.word := rfl
@[simp] theorem elapse_bitmask (o : Obs) (a b : PortWord) : (s.elapse o a b).bitmask = s.bitmask := rfl
@[simp] theorem elapse_dly (o : Obs) (a b : PortWord) : (s.elapse o a b).dly = s.dly := rfl
@[simp] theorem elapse_wcnt (o : Obs) (a b : PortWord) : (s.elapse o a b).wcnt = s.wcnt := rfl
@[simp] theorem elapse_fcnt (o : Obs) (a b : PortWord) : (s.elapse o a b).fcnt = s.fcnt := rfl
@[simp] theorem elapse_nextWord (o : Obs) (a b : PortWord) : (s.elapse o a b).nextWord = s.nextWord := rfl
@[simp] theorem elapse_nextValid (o : Obs) (a b : PortWord) : (s.elapse o a b).nextValid = s.nextValid := rfl
@[simp] theorem elapse_cmd (o : Obs) (a b : PortWord) : (s.elapse o a b).cmd = s.cmd := rfl
@[simp] theorem elapse_phase (o : Obs) (a b : PortWord) : (s.elapse o a b).phase = s.phase := rfl
@[simp] theorem elapse_latch (o : Obs) (a b : PortWord) : (s.elapse o a b).latch = s.latch := rfl
@[simp] theorem elapse_port (o : Obs) (a b : PortWord) : (s.elapse o a b).port = nextPort a b s := rfl
@[simp] theorem elapse_pins (o : Obs) (a b : PortWord) : (s.elapse o a b).pins = s.pins.tail := rfl
@[simp] theorem elapse_stallAfter (o : Obs) (a b : PortWord) : (s.elapse o a b).stallAfter = s.stallAfter := rfl
@[simp] theorem elapse_host (o : Obs) (a b : PortWord) : (s.elapse o a b).host = s.host := rfl
@[simp] theorem elapse_cfg (o : Obs) (a b : PortWord) : (s.elapse o a b).cfg = s.cfg := rfl
@[simp] theorem elapse_cycle (o : Obs) (a b : PortWord) : (s.elapse o a b).cycle = s.cycle + 1 := rfl
@[simp] theorem elapse_trace (o : Obs) (a b : PortWord) : (s.elapse o a b).trace = o :: s.trace := rfl
@[simp] theorem elapse_draws (o : Obs) (a b : PortWord) : (s.elapse o a b).draws = s.draws := rfl

/-! ### loadWord -/

@[simp] theorem loadWord_pin (w : ColorWord) : (s.loadWord w).pin = s.pin := rfl
@[simp] theorem loadWord_pinmask (w : ColorWord) : (s.loadWord w).pinmask = s.pinmask := rfl
@[simp] theorem loadWord_segcount (w : ColorWord) : (s.loadWord w).segcount = s.segcount := rfl
@[simp] theorem loadWord_ie (w : ColorWord) : (s.loadWord w).ie = s.ie := rfl
@[simp] theorem loadWord_ieSaved (w : ColorWord) : (s.loadWord w).ieSaved = s.ieSaved := rfl
@[simp] theorem loadWord_word (w : ColorWord) : (s.loadWord w).word = w := rfl
@[simp] theorem loadWord_bitmask (w : ColorWord) : (s.loadWord w).bitmask = 1#24 := rfl
@[simp] theorem loadWord_dly (w : ColorWord) : (s.loadWord w).dly = s.dly := rfl
@[simp] theorem loadWord_wcnt (w : ColorWord) : (s.loadWord w).wcnt = s.wcnt := rfl
@[simp] theorem loadWord_fcnt (w : ColorWord) : (s.loadWord w).fcnt = s.fcnt := rfl
@[simp] theorem loadWord_nextWord (w : ColorWord) : (s.loadWord w).nextWord = s.nextWord := rfl
@[simp] theorem loadWord_nextValid (w : ColorWord) : (s.loadWord w).nextValid = s.nextValid := rfl
@[simp] theorem loadWord_cmd (w : ColorWord) : (s.loadWord w).cmd = s.cmd := rfl
@[simp] theorem loadWord_phase (w : ColorWord) : (s.loadWord w).phase = s.phase := rfl
@[simp] theorem loadWord_latch (w : ColorWord) : (s.loadWord w).latch = s.latch := rfl
@[simp] theorem loadWord_port (w : ColorWord) : (s.loadWord w).port = s.port := rfl
@[simp] theorem loadWord_pins (w : ColorWord) : (s.loadWord w).pins = s.pins := rfl
@[simp] theorem loadWord_stallAfter (w : ColorWord) : (s.loadWord w).stallAfter = s.stallAfter := rfl
@[simp] theorem loadWord_host (w : ColorWord) : (s.loadWord w).host = s.host := rfl
@[simp] theorem loadWord_cfg (w : ColorWord) : (s.loadWord w).cfg = s.cfg := rfl
@[simp] theorem loadWord_cycle (w : ColorWord) : (s.loadWord w).cycle = s.cycle := rfl
@[simp] theorem loadWord_trace (w : ColorWord) : (s.loadWord w).trace = s.trace := rfl
@[simp] theorem loadWord_draws (w : ColorWord) : (s.loadWord w).draws = s.draws := rfl

/-! ### enter -/

@[simp] theorem enter_pin (p : Phase) (n : Nat) : (s.enter p n).pin = s.pin := rfl
@[simp] theorem enter_pinmask (p : Phase) (n : Nat) : (s.enter p n).pinmask = s.pinmask := rfl
@[simp] theorem enter_segcount (p : Phase) (n : Nat) : (s.enter p n).segcount = s.segcount := rfl
@[simp] theorem enter_ie (p : Phase) (n : Nat) : (s.enter p n).ie = s.ie := rfl
@[simp] theorem enter_ieSaved (p : Phase) (n : Nat) : (s.enter p n).ieSaved = s.ieSaved := rfl
@[simp] theorem enter_word (p : Phase) (n : Nat) : (s.enter p n).word = s.word := rfl
@[simp] theorem enter_bitmask (p : Phase) (n : Nat) : (s.enter p n).bitmask = s.bitmask := rfl
@[simp] theorem enter_dly (p : Phase) (n : Nat) : (s.enter p n).dly = n := rfl
@[simp] theorem enter_wcnt (p : Phase) (n : Nat) : (s.enter p n).wcnt = s.wcnt := rfl
@[simp] theorem enter_fcnt (p : Phase) (n : Nat) : (s.enter p n).fcnt = s.fcnt := rfl
@[simp] theorem enter_nextWord (p : Phase) (n : Nat) : (s.enter p n).nextWord = s.nextWord := rfl
@[simp] theorem enter_nextValid (p : Phase) (n : Nat) : (s.enter p n).nextValid = s.nextValid := rfl
@[simp] theorem enter_cmd (p : Phase) (n : Nat) : (s.enter p n).cmd = s.cmd := rfl
@[simp] theorem enter_phase (p : Phase) (n : Nat) : (s.enter p n).phase = p := rfl
@[simp] theorem enter_latch (p : Phase) (n : Nat) : (s.enter p n).latch = s.latch := rfl
@[simp] theorem enter_port (p : Phase) (n : Nat) : (s.enter p n).port = s.port := rfl
@[simp] theorem enter_pins (p : Phase) (n : Nat) : (s.enter p n).pins = s.pins := rfl
@[simp] theorem enter_stallAfter (p : Phase) (n : Nat) : (s.enter p n).stallAfter = s.stallAfter := rfl
@[simp] theorem enter_host (p : Phase) (n : Nat) : (s.enter p n).host = s.host := rfl
@[simp] theorem enter_cfg (p : Phase) (n : Nat) : (s.enter p n).cfg = s.cfg := rfl
@[simp] theorem enter_cycle (p : Phase) (n : Nat) : (s.enter p n).cycle = s.cycle := rfl
@[simp] theorem enter_trace (p : Phase) (n : Nat) : (s.enter p n).trace = s.trace := rfl
@[simp] theorem enter_draws (p : Phase) (n : Nat) : (s.enter p n).draws = s.draws := rfl

/-! ### hardReset -/

@[simp] theorem hardReset_pin : (s.hardReset).pin = 0#8 := rfl
@[simp] theorem hardReset_pinmask : (s.hardReset).pinmask = 0#256 := rfl
@[simp] theorem hardReset_segcount : (s.hardReset).segcount = 0#16 := rfl
@[simp] theorem hardReset_ie : (s.hardReset).ie = false := rfl
@[simp] theorem hardReset_ieSaved : (s.hardReset).ieSaved = Config.freeIeSaved s.draws := rfl
@[simp] theorem hardReset_word : (s.hardReset).word = Config.freeWord s.draws := rfl
@[simp] theorem hardReset_bitmask : (s.hardReset).bitmask = Config.freeBitmask s.draws := rfl
@[simp] theorem hardReset_dly : (s.hardReset).dly = Config.freeDly s.draws := rfl
@[simp] theorem hardReset_wcnt : (s.hardReset).wcnt = 0#24 := rfl
@[simp] theorem hardReset_fcnt : (s.hardReset).fcnt = 0#24 := rfl
@[simp] theorem hardReset_nextWord : (s.hardReset).nextWord = Config.freeNext s.draws := rfl
@[simp] theorem hardReset_nextValid : (s.hardReset).nextValid = false := rfl
@[simp] theorem hardReset_cmd : (s.hardReset).cmd = .none := rfl
@[simp] theorem hardReset_phase : (s.hardReset).phase = .idle := rfl
@[simp] theorem hardReset_latch : (s.hardReset).latch = Config.freeLatch s.draws := rfl
@[simp] theorem hardReset_port : (s.hardReset).port = s.port := rfl
@[simp] theorem hardReset_pins : (s.hardReset).pins = s.pins := rfl
@[simp] theorem hardReset_stallAfter : (s.hardReset).stallAfter = s.stallAfter := rfl
@[simp] theorem hardReset_host : (s.hardReset).host = s.host := rfl
@[simp] theorem hardReset_cfg : (s.hardReset).cfg = s.cfg := rfl
@[simp] theorem hardReset_cycle : (s.hardReset).cycle = 0 := rfl
@[simp] theorem hardReset_trace : (s.hardReset).trace = s.trace := rfl
@[simp] theorem hardReset_draws : (s.hardReset).draws = s.draws + 1 := rfl

/-! ### countDly -/

@[simp] theorem countDly_pin : (s.countDly).pin = s.pin := rfl
@[simp] theorem countDly_pinmask : (s.countDly).pinmask = s.pinmask := rfl
@[simp] theorem countDly_segcount : (s.countDly).segcount = s.segcount := rfl
@[simp] theorem countDly_ie : (s.countDly).ie = s.ie := rfl
@[simp] theorem countDly_ieSaved : (s.countDly).ieSaved = s.ieSaved := rfl
@[simp] theorem countDly_word : (s.countDly).word = s.word := rfl
@[simp] theorem countDly_bitmask : (s.countDly).bitmask = s.bitmask := rfl
@[simp] theorem countDly_dly : (s.countDly).dly = s.dly - 1 := rfl
@[simp] theorem countDly_wcnt : (s.countDly).wcnt = s.wcnt := rfl
@[simp] theorem countDly_fcnt : (s.countDly).fcnt = s.fcnt := rfl
@[simp] theorem countDly_nextWord : (s.countDly).nextWord = s.nextWord := rfl
@[simp] theorem countDly_nextValid : (s.countDly).nextValid = s.nextValid := rfl
@[simp] theorem countDly_cmd : (s.countDly).cmd = s.cmd := rfl
@[simp] theorem countDly_phase : (s.countDly).phase = s.phase := rfl
@[simp] theorem countDly_latch : (s.countDly).latch = s.latch := rfl
@[simp] theorem countDly_port : (s.countDly).port = s.port := rfl
@[simp] theorem countDly_pins : (s.countDly).pins = s.pins := rfl
@[simp] theorem countDly_stallAfter : (s.countDly).stallAfter = s.stallAfter := rfl
@[simp] theorem countDly_host : (s.countDly).host = s.host := rfl
@[simp] theorem countDly_cfg : (s.countDly).cfg = s.cfg := rfl
@[simp] theorem countDly_cycle : (s.countDly).cycle = s.cycle := rfl
@[simp] theorem countDly_trace : (s.countDly).trace = s.trace := rfl
@[simp] theorem countDly_draws : (s.countDly).draws = s.draws := rfl

/-! ### selectPin -/

@[simp] theorem selectPin_pin (p : PinIndex) : (s.selectPin p).pin = p := rfl
@[simp] theorem selectPin_pinmask (p : PinIndex) : (s.selectPin p).pinmask = maskOfPin s.cfg.portWidth p := rfl
@[simp] theorem selectPin_segcount (p : PinIndex) : (s.selectPin p).segcount = s.segcount := rfl
@[simp] theorem selectPin_ie (p : PinIndex) : (s.selectPin p).ie = s.ie := rfl
@[simp] theorem selectPin_ieSaved (p : PinIndex) : (s.selectPin p).ieSaved = s.ieSaved := rfl
@[simp] theorem selectPin_word (p : PinIndex) : (s.selectPin p).word = s.word := rfl
@[simp] theorem selectPin_bitmask (p : PinIndex) : (s.selectPin p).bitmask = s.bitmask := rfl
@[simp] theorem selectPin_dly (p : PinIndex) : (s.selectPin p).dly = s.dly := rfl
@[simp] theorem selectPin_wcnt (p : PinIndex) : (s.selectPin p).wcnt = s.wcnt := rfl
@[simp] theorem selectPin_fcnt (p : PinIndex) : (s.selectPin p).fcnt = s.fcnt := rfl
@[simp] theorem selectPin_nextWord (p : PinIndex) : (s.selectPin p).nextWord = s.nextWord := rfl
@[simp] theorem selectPin_nextValid (p : PinIndex) : (s.selectPin p).nextValid = s.nextValid := rfl
@[simp] theorem selectPin_cmd (p : PinIndex) : (s.selectPin p).cmd = s.cmd := rfl
@[simp] theorem selectPin_phase (p : PinIndex) : (s.selectPin p).phase = s.phase := rfl
@[simp] theorem selectPin_latch (p : PinIndex) : (s.selectPin p).latch = s.latch := rfl
@[simp] theorem selectPin_port (p : PinIndex) : (s.selectPin p).port = s.port := rfl
@[simp] theorem selectPin_pins (p : PinIndex) : (s.selectPin p).pins = s.pins := rfl
@[simp] theorem selectPin_stallAfter (p : PinIndex) : (s.selectPin p).stallAfter = s.stallAfter := rfl
@[simp] theorem selectPin_host (p : PinIndex) : (s.selectPin p).host = s.host := rfl
@[simp] theorem selectPin_cfg (p : PinIndex) : (s.selectPin p).cfg = s.cfg := rfl
@[simp] theorem selectPin_cycle (p : PinIndex) : (s.selectPin p).cycle = s.cycle := rfl
@[simp] theorem selectPin_trace (p : PinIndex) : (s.selectPin p).trace = s.trace := rfl
@[simp] theorem selectPin_draws (p : PinIndex) : (s.selectPin p).draws = s.draws := rfl

/-! ### configure -/

@[simp] theorem configure_pin (p : PinIndex) (g : SegCount) : (s.configure p g).pin = p := rfl
@[simp] theorem configure_pinmask (p : PinIndex) (g : SegCount) : (s.configure p g).pinmask = maskOfPin s.cfg.portWidth p := rfl
@[simp] theorem configure_segcount (p : PinIndex) (g : SegCount) : (s.configure p g).segcount = g := rfl
@[simp] theorem configure_ie (p : PinIndex) (g : SegCount) : (s.configure p g).ie = s.ie := rfl
@[simp] theorem configure_ieSaved (p : PinIndex) (g : SegCount) : (s.configure p g).ieSaved = s.ieSaved := rfl
@[simp] theorem configure_word (p : PinIndex) (g : SegCount) : (s.configure p g).word = s.word := rfl
@[simp] theorem configure_bitmask (p : PinIndex) (g : SegCount) : (s.configure p g).bitmask = s.bitmask := rfl
@[simp] theorem configure_dly (p : PinIndex) (g : SegCount) : (s.configure p g).dly = s.dly := rfl
@[simp] theorem configure_wcnt (p : PinIndex) (g : SegCount) : (s.configure p g).wcnt = s.wcnt := rfl
@[simp] theorem configure_fcnt (p : PinIndex) (g : SegCount) : (s.configure p g).fcnt = s.fcnt := rfl
@[simp] theorem configure_nextWord (p : PinIndex) (g : SegCount) : (s.configure p g).nextWord = s.nextWord := rfl
@[simp] theorem configure_nextValid (p : PinIndex) (g : SegCount) : (s.configure p g).nextValid = s.nextValid := rfl
@[simp] theorem configure_cmd (p : PinIndex) (g : SegCount) : (s.configure p g).cmd = s.cmd := rfl
@[simp] theorem configure_phase (p : PinIndex) (g : SegCount) : (s.configure p g).phase = s.phase := rfl
@[simp] theorem configure_latch (p : PinIndex) (g : SegCount) : (s.configure p g).latch = s.latch := rfl
@[simp] theorem configure_port (p : PinIndex) (g : SegCount) : (s.configure p g).port = s.port := rfl
@[simp] theorem configure_pins (p : PinIndex) (g : SegCount) : (s.configure p g).pins = s.pins := rfl
@[simp] theorem configure_stallAfter (p : PinIndex) (g : SegCount) : (s.configure p g).stallAfter = s.stallAfter := rfl
@[simp] theorem configure_host (p : PinIndex) (g : SegCount) : (s.configure p g).host = s.host := rfl
@[simp] theorem configure_cfg (p : PinIndex) (g : SegCount) : (s.configure p g).cfg = s.cfg := rfl
@[simp] theorem configure_cycle (p : PinIndex) (g : SegCount) : (s.configure p g).cycle = s.cycle := rfl
@[simp] theorem configure_trace (p : PinIndex) (g : SegCount) : (s.configure p g).trace = s.trace := rfl
@[simp] theorem configure_draws (p : PinIndex) (g : SegCount) : (s.configure p g).draws = s.draws := rfl

/-! ### maskIe -/

@[simp] theorem maskIe_pin : (s.maskIe).pin = s.pin := rfl
@[simp] theorem maskIe_pinmask : (s.maskIe).pinmask = s.pinmask := rfl
@[simp] theorem maskIe_segcount : (s.maskIe).segcount = s.segcount := rfl
@[simp] theorem maskIe_ie : (s.maskIe).ie = false := rfl
@[simp] theorem maskIe_ieSaved : (s.maskIe).ieSaved = s.ie := rfl
@[simp] theorem maskIe_word : (s.maskIe).word = s.word := rfl
@[simp] theorem maskIe_bitmask : (s.maskIe).bitmask = s.bitmask := rfl
@[simp] theorem maskIe_dly : (s.maskIe).dly = s.dly := rfl
@[simp] theorem maskIe_wcnt : (s.maskIe).wcnt = s.wcnt := rfl
@[simp] theorem maskIe_fcnt : (s.maskIe).fcnt = s.fcnt := rfl
@[simp] theorem maskIe_nextWord : (s.maskIe).nextWord = s.nextWord := rfl
@[simp] theorem maskIe_nextValid : (s.maskIe).nextValid = s.nextValid := rfl
@[simp] theorem maskIe_cmd : (s.maskIe).cmd = s.cmd := rfl
@[simp] theorem maskIe_phase : (s.maskIe).phase = s.phase := rfl
@[simp] theorem maskIe_latch : (s.maskIe).latch = s.latch := rfl
@[simp] theorem maskIe_port : (s.maskIe).port = s.port := rfl
@[simp] theorem maskIe_pins : (s.maskIe).pins = s.pins := rfl
@[simp] theorem maskIe_stallAfter : (s.maskIe).stallAfter = s.stallAfter := rfl
@[simp] theorem maskIe_host : (s.maskIe).host = s.host := rfl
@[simp] theorem maskIe_cfg : (s.maskIe).cfg = s.cfg := rfl
@[simp] theorem maskIe_cycle : (s.maskIe).cycle = s.cycle := rfl
@[simp] theorem maskIe_trace : (s.maskIe).trace = s.trace := rfl
@[simp] theorem maskIe_draws : (s.maskIe).draws = s.draws := rfl

/-! ### restoreIe -/

@[simp] theorem restoreIe_pin : (s.restoreIe).pin = s.pin := rfl
@[simp] theorem restoreIe_pinmask : (s.restoreIe).pinmask = s.pinmask := rfl
@[simp] theorem restoreIe_segcount : (s.restoreIe).segcount = s.segcount := rfl
@[simp] theorem restoreIe_ie : (s.restoreIe).ie = s.ieSaved := rfl
@[simp] theorem restoreIe_ieSaved : (s.restoreIe).ieSaved = s.ieSaved := rfl
@[simp] theorem restoreIe_word : (s.restoreIe).word = s.word := rfl
@[simp] theorem restoreIe_bitmask : (s.restoreIe).bitmask = s.bitmask := rfl
@[simp] theorem restoreIe_dly : (s.restoreIe).dly = s.dly := rfl
@[simp] theorem restoreIe_wcnt : (s.restoreIe).wcnt = s.wcnt := rfl
@[simp] theorem restoreIe_fcnt : (s.restoreIe).fcnt = s.fcnt := rfl
@[simp] theorem restoreIe_nextWord : (s.restoreIe).nextWord = s.nextWord := rfl
@[simp] theorem restoreIe_nextValid : (s.restoreIe).nextValid = s.nextValid := rfl
@[simp] theorem restoreIe_cmd : (s.restoreIe).cmd = s.cmd := rfl
@[simp] theorem restoreIe_phase : (s.restoreIe).phase = s.phase := rfl
@[simp] theorem restoreIe_latch : (s.restoreIe).latch = s.latch := rfl
@[simp] theorem restoreIe_port : (s.restoreIe).port = s.port := rfl
@[simp] theorem restoreIe_pins : (s.restoreIe).pins = s.pins := rfl
@[simp] theorem restoreIe_stallAfter : (s.restoreIe).stallAfter = s.stallAfter := rfl
@[simp] theorem restoreIe_host : (s.restoreIe).host = s.host := rfl
@[simp] theorem restoreIe_cfg : (s.restoreIe).cfg = s.cfg := rfl
@[simp] theorem restoreIe_cycle : (s.restoreIe).cycle = s.cycle := rfl
@[simp] theorem restoreIe_trace : (s.restoreIe).trace = s.trace := rfl
@[simp] theorem restoreIe_draws : (s.restoreIe).draws = s.draws := rfl

/-! ### shiftMask -/

@[simp] theorem shiftMask_pin : (s.shiftMask).pin = s.pin := rfl
@[simp] theorem shiftMask_pinmask : (s.shiftMask).pinmask = s.pinmask := rfl
@[simp] theorem shiftMask_segcount : (s.shiftMask).segcount = s.segcount := rfl
@[simp] theorem shiftMask_ie : (s.shiftMask).ie = s.ie := rfl
@[simp] theorem shiftMask_ieSaved : (s.shiftMask).ieSaved = s.ieSaved := rfl
@[simp] theorem shiftMask_word : (s.shiftMask).word = s.word := rfl
@[simp] theorem shiftMask_bitmask : (s.shiftMask).bitmask = s.bitmask <<< 1 := rfl
@[simp] theorem shiftMask_dly : (s.shiftMask).dly = s.dly := rfl
@[simp] theorem shiftMask_wcnt : (s.shiftMask).wcnt = s.wcnt := rfl
@[simp] theorem shiftMask_fcnt : (s.shiftMask).fcnt = s.fcnt := rfl
@[simp] theorem shiftMask_nextWord : (s.shiftMask).nextWord = s.nextWord := rfl
@[simp] theorem shiftMask_nextValid : (s.shiftMask).nextValid = s.nextValid := rfl
@[simp] theorem shiftMask_cmd : (s.shiftMask).cmd = s.cmd := rfl
@[simp] theorem shiftMask_phase : (s.shiftMask).phase = s.phase := rfl
@[simp] theorem shiftMask_latch : (s.shiftMask).latch = s.latch := rfl
@[simp] theorem shiftMask_port : (s.shiftMask).port = s.port := rfl
@[simp] theorem shiftMask_pins : (s.shiftMask).pins = s.pins := rfl
@[simp] theorem shiftMask_stallAfter : (s.shiftMask).stallAfter = s.stallAfter := rfl
@[simp] theorem shiftMask_host : (s.shiftMask).host = s.host := rfl
@[simp] theorem shiftMask_cfg : (s.shiftMask).cfg = s.cfg := rfl
@[simp] theorem shiftMask_cycle : (s.shiftMask).cycle = s.cycle := rfl
@[simp] theorem shiftMask_trace : (s.shiftMask).trace = s.trace := rfl
@[simp] theorem shiftMask_draws : (s.shiftMask).draws = s.draws := rfl

/-! ### countWord -/

@[simp] theorem countWord_pin : (s.countWord).pin = s.pin := rfl
@[simp] theorem countWord_pinmask : (s.countWord).pinmask = s.pinmask := rfl
@[simp] theorem countWord_segcount : (s.countWord).segcount = s.segcount := rfl
@[simp] theorem countWord_ie : (s.countWord).ie = s.ie := rfl
@[simp] theorem countWord_ieSaved : (s.countWord).ieSaved = s.ieSaved := rfl
@[simp] theorem countWord_word : (s.countWord).word = s.word := rfl
@[simp] theorem countWord_bitmask : (s.countWord).bitmask = s.bitmask := rfl
@[simp] theorem countWord_dly : (s.countWord).dly = s.dly := rfl
@[simp] theorem countWord_wcnt : (s.countWord).wcnt = s.wcnt - 1#24 := rfl
@[simp] theorem countWord_fcnt : (s.countWord).fcnt = s.fcnt := rfl
@[simp] theorem countWord_nextWord : (s.countWord).nextWord = s.nextWord := rfl
@[simp] theorem countWord_nextValid : (s.countWord).nextValid = s.nextValid := rfl
@[simp] theorem countWord_cmd : (s.countWord).cmd = s.cmd := rfl
@[simp] theorem countWord_phase : (s.countWord).phase = s.phase := rfl
@[simp] theorem countWord_latch : (s.countWord).latch = s.latch := rfl
@[simp] theorem countWord_port : (s.countWord).port = s.port := rfl
@[simp] theorem countWord_pins : (s.countWord).pins = s.pins := rfl
@[simp] theorem countWord_stallAfter : (s.countWord).stallAfter = s.stallAfter := rfl
@[simp] theorem countWord_host : (s.countWord).host = s.host := rfl
@[simp] theorem countWord_cfg : (s.countWord).cfg = s.cfg := rfl
@[simp] theorem countWord_cycle : (s.countWord).cycle = s.cycle := rfl
@[simp] theorem countWord_trace : (s.countWord).trace = s.trace := rfl
@[simp] theorem countWord_draws : (s.countWord).draws = s.draws := rfl

/-! ### takeNext -/

@[simp] theorem takeNext_pin : (s.takeNext).pin = s.pin := rfl
@[simp] theorem takeNext_pinmask : (s.takeNext).pinmask = s.pinmask := rfl
@[simp] theorem takeNext_segcount : (s.takeNext).segcount = s.segcount := rfl
@[simp] theorem takeNext_ie : (s.takeNext).ie = s.ie := rfl
@[simp] theorem takeNext_ieSaved : (s.takeNext).ieSaved = s.ieSaved := rfl
@[simp] theorem takeNext_word : (s.takeNext).word = s.nextWord := rfl
@[simp] theorem takeNext_bitmask : (s.takeNext).bitmask = 1#24 := rfl
@[simp] theorem takeNext_dly : (s.takeNext).dly = s.dly := rfl
@[simp] theorem takeNext_wcnt : (s.takeNext).wcnt = s.wcnt := rfl
@[simp] theorem takeNext_fcnt : (s.takeNext).fcnt = s.fcnt := rfl
@[simp] theorem takeNext_nextWord : (s.takeNext).nextWord = s.nextWord := rfl
@[simp] theorem takeNext_nextValid : (s.takeNext).nextValid = false := rfl
@[simp] theorem takeNext_cmd : (s.takeNext).cmd = s.cmd := rfl
@[simp] theorem takeNext_phase : (s.takeNext).phase = s.phase := rfl
@[simp] theorem takeNext_latch : (s.takeNext).latch = s.latch := rfl
@[simp] theorem takeNext_port : (s.takeNext).port = s.port := rfl
@[simp] theorem takeNext_pins : (s.takeNext).pins = s.pins := rfl
@[simp] theorem takeNext_stallAfter : (s.takeNext).stallAfter = s.stallAfter := rfl
@[simp] theorem takeNext_host : (s.takeNext).host = s.host := rfl
@[simp] theorem takeNext_cfg : (s.takeNext).cfg = s.cfg := rfl
@[simp] theorem takeNext_cycle : (s.takeNext).cycle = s.cycle := rfl
@[simp] theorem takeNext_trace : (s.takeNext).trace = s.trace := rfl
@[simp] theorem takeNext_draws : (s.takeNext).draws = s.draws := rfl

/-! ### begin -/

@[simp] theorem begin_pin (c : Cmd) (l : BitVec 24) : (s.begin c l).pin = s.pin := rfl
@[simp] theorem begin_pinmask (c : Cmd) (l : BitVec 24) : (s.begin c l).pinmask = s.pinmask := rfl
@[simp] theorem begin_segcount (c : Cmd) (l : BitVec 24) : (s.begin c l).segcount = s.segcount := rfl
@[simp] theorem begin_ie (c : Cmd) (l : BitVec 24) : (s.begin c l).ie = s.ie := rfl
@[simp] theorem begin_ieSaved (c : Cmd) (l : BitVec 24) : (s.begin c l).ieSaved = s.ieSaved := rfl
@[simp] theorem begin_word (c : Cmd) (l : BitVec 24) : (s.begin c l).word = s.word := rfl
@[simp] theorem begin_bitmask (c : Cmd) (l : BitVec 24) : (s.begin c l).bitmask = s.bitmask := rfl
@[simp] theorem begin_dly (c : Cmd) (l : BitVec 24) : (s.begin c l).dly = s.dly := rfl
@[simp] theorem begin_wcnt (c : Cmd) (l : BitVec 24) : (s.begin c l).wcnt = s.wcnt := rfl
@[simp] theorem begin_fcnt (c : Cmd) (l : BitVec 24) : (s.begin c l).fcnt = s.fcnt := rfl
@[simp] theorem begin_nextWord (c : Cmd) (l : BitVec 24) : (s.begin c l).nextWord = s.nextWord := rfl
@[simp] theorem begin_nextValid (c : Cmd) (l : BitVec 24) : (s.begin c l).nextValid = s.nextValid := rfl
@[simp] theorem begin_cmd (c : Cmd) (l : BitVec 24) : (s.begin c l).cmd = c := rfl
@[simp] theorem begin_phase (c : Cmd) (l : BitVec 24) : (s.begin c l).phase = s.phase := rfl
@[simp] theorem begin_latch (c : Cmd) (l : BitVec 24) : (s.begin c l).latch = l := rfl
@[simp] theorem begin_port (c : Cmd) (l : BitVec 24) : (s.begin c l).port = s.port := rfl
@[simp] theorem begin_pins (c : Cmd) (l : BitVec 24) : (s.begin c l).pins = s.pins := rfl
@[simp] theorem begin_stallAfter (c : Cmd) (l : BitVec 24) : (s.begin c l).stallAfter = s.stallAfter := rfl
@[simp] theorem begin_host (c : Cmd) (l : BitVec 24) : (s.begin c l).host = s.host := rfl
@[simp] theorem begin_cfg (c : Cmd) (l : BitVec 24) : (s.begin c l).cfg = s.cfg := rfl
@[simp] theorem begin_cycle (c : Cmd) (l : BitVec 24) : (s.begin c l).cycle = s.cycle := rfl
@[simp] theorem begin_trace (c : Cmd) (l : BitVec 24) : (s.begin c l).trace = s.trace := rfl
@[simp] theorem begin_draws (c : Cmd) (l : BitVec 24) : (s.begin c l).draws = s.draws := rfl

/-! ### loadCounts -/

@[simp] theorem loadCounts_pin (n : WordCount) : (s.loadCounts n).pin = s.pin := rfl
@[simp] theorem loadCounts_pinmask (n : WordCount) : (s.loadCounts n).pinmask = s.pinmask := rfl
@[simp] theorem loadCounts_segcount (n : WordCount) : (s.loadCounts n).segcount = s.segcount := rfl
@[simp] theorem loadCounts_ie (n : WordCount) : (s.loadCounts n).ie = s.ie := rfl
@[simp] theorem loadCounts_ieSaved (n : WordCount) : (s.loadCounts n).ieSaved = s.ieSaved := rfl
@[simp] theorem loadCounts_word (n : WordCount) : (s.loadCounts n).word = s.word := rfl
@[simp] theorem loadCounts_bitmask (n : WordCount) : (s.loadCounts n).bitmask = s.bitmask := rfl
@[simp] theorem loadCounts_dly (n : WordCount) : (s.loadCounts n).dly = s.dly := rfl
@[simp] theorem loadCounts_wcnt (n : WordCount) : (s.loadCounts n).wcnt = n := rfl
@[simp] theorem loadCounts_fcnt (n : WordCount) : (s.loadCounts n).fcnt = n := rfl
@[simp] theorem loadCounts_nextWord (n : WordCount) : (s.loadCounts n).nextWord = s.nextWord := rfl
@[simp] theorem loadCounts_nextValid (n : WordCount) : (s.loadCounts n).nextValid = false := rfl
@[simp] theorem loadCounts_cmd (n : WordCount) : (s.loadCounts n).cmd = s.cmd := rfl
@[simp] theorem loadCounts_phase (n : WordCount) : (s.loadCounts n).phase = s.phase := rfl
@[simp] theorem loadCounts_latch (n : WordCount) : (s.loadCounts n).latch = s.latch := rfl
@[simp] theorem loadCounts_port (n : WordCount) : (s.loadCounts n).port = s.port := rfl
@[simp] theorem loadCounts_pins (n : WordCount) : (s.loadCounts n).pins = s.pins := rfl
@[simp] theorem loadCounts_stallAfter (n : WordCount) : (s.loadCounts n).stallAfter = s.stallAfter := rfl
@[simp] theorem loadCounts_host (n : WordCount) : (s.loadCounts n).host = s.host := rfl
@[simp] theorem loadCounts_cfg (n : WordCount) : (s.loadCounts n).cfg = s.cfg := rfl
@[simp] theorem loadCounts_cycle (n : WordCount) : (s.loadCounts n).cycle = s.cycle := rfl
@[simp] theorem loadCounts_trace (n : WordCount) : (s.loadCounts n).trace = s.trace := rfl
@[simp] theorem loadCounts_draws (n : WordCount) : (s.loadCounts n).draws = s.draws := rfl

/-! ### loadSegments -/

@[simp] theorem loadSegments_pin : (s.loadSegments).pin = s.pin := rfl
@[simp] theorem loadSegments_pinmask : (s.loadSegments).pinmask = s.pinmask := rfl
@[simp] theorem loadSegments_segcount : (s.loadSegments).segcount = s.segcount := rfl
@[simp] theorem loadSegments_ie : (s.loadSegments).ie = s.ie := rfl
@[simp] theorem loadSegments_ieSaved : (s.loadSegments).ieSaved = s.ieSaved := rfl
@[simp] theorem loadSegments_word : (s.loadSegments).word = s.word := rfl
@[simp] theorem loadSegments_bitmask : (s.loadSegments).bitmask = s.bitmask := rfl
@[simp] theorem loadSegments_dly : (s.loadSegments).dly = s.dly := rfl
@[simp] theorem loadSegments_wcnt : (s.loadSegments).wcnt = s.segcount.setWidth 24 := rfl
@[simp] theorem loadSegments_fcnt : (s.loadSegments).fcnt = s.fcnt := rfl
@[simp] theorem loadSegments_nextWord : (s.loadSegments).nextWord = s.nextWord := rfl
@[simp] theorem loadSegments_nextValid : (s.loadSegments).nextValid = s.nextValid := rfl
@[simp] theorem loadSegments_cmd : (s.loadSegments).cmd = s.cmd := rfl
@[simp] theorem loadSegments_phase : (s.loadSegments).phase = s.phase := rfl
@[simp] theorem loadSegments_latch : (s.loadSegments).latch = s.latch := rfl
@[simp] theorem loadSegments_port : (s.loadSegments).port = s.port := rfl
@[simp] theorem loadSegments_pins : (s.loadSegments).pins = s.pins := rfl
@[simp] theorem loadSegments_stallAfter : (s.loadSegments).stallAfter = s.stallAfter := rfl
@[simp] theorem loadSegments_host : (s.loadSegments).host = s.host := rfl
@[simp] theorem loadSegments_cfg : (s.loadSegments).cfg = s.cfg := rfl
@[simp] theorem loadSegments_cycle : (s.loadSegments).cycle = s.cycle := rfl
@[simp] theorem loadSegments_trace : (s.loadSegments).trace = s.trace := rfl
@[simp] theorem loadSegments_draws : (s.loadSegments).draws = s.draws := rfl

/-! ### finish -/

@[simp] theorem finish_pin : (s.finish).pin = s.pin := rfl
@[simp] theorem finish_pinmask : (s.finish).pinmask = s.pinmask := rfl
@[simp] theorem finish_segcount : (s.finish).segcount = s.segcount := rfl
@[simp] theorem finish_ie : (s.finish).ie = s.ie := rfl
@[simp] theorem finish_ieSaved : (s.finish).ieSaved = s.ieSaved := rfl
@[simp] theorem finish_word : (s.finish).word = Config.freeWord s.draws := rfl
@[simp] theorem finish_bitmask : (s.finish).bitmask = Config.freeBitmask s.draws := rfl
@[simp] theorem finish_dly : (s.finish).dly = Config.freeDly s.draws := rfl
@[simp] theorem finish_wcnt : (s.finish).wcnt = s.wcnt := rfl
@[simp] theorem finish_fcnt : (s.finish).fcnt = s.fcnt := rfl
@[simp] theorem finish_nextWord : (s.finish).nextWord = Config.freeNext s.draws := rfl
@[simp] theorem finish_nextValid : (s.finish).nextValid = s.nextValid := rfl
@[simp] theorem finish_cmd : (s.finish).cmd = .none := rfl
@[simp] theorem finish_phase : (s.finish).phase = .idle := rfl
@[simp] theorem finish_latch : (s.finish).latch = Config.freeLatch s.draws := rfl
@[simp] theorem finish_port : (s.finish).port = s.port := rfl
@[simp] theorem finish_pins : (s.finish).pins = s.pins := rfl
@[simp] theorem finish_stallAfter : (s.finish).stallAfter = s.stallAfter := rfl
@[simp] theorem finish_host : (s.finish).host = s.host := rfl
@[simp] theorem finish_cfg : (s.finish).cfg = s.cfg := rfl
@[simp] theorem finish_cycle : (s.finish).cycle = s.cycle := rfl
@[simp] theorem finish_trace : (s.finish).trace = s.trace := rfl
@[simp] theorem finish_draws : (s.finish).draws = s.draws + 1 := rfl

end Sys2Proof.Machine
end

