-- ==== Sys2Proof/Laws/Cycle.lean ====
section
/-! SUPPORT. What one clock cycle leaves in each field: the host's write of IE, the command port, and the three kinds of
cycle. -/

namespace Sys2Proof.Machine

variable (s : State)

/-! ### The host's write of IE -/

theorem hostWriteIe_ie (p : PinIn) : (s.hostWriteIe p).ie = if s.phase.isIdle && p.ieWe then p.ieData else s.ie := by
  unfold State.hostWriteIe; split <;> rfl

@[simp] theorem hostWriteIe_pin (p : PinIn) : (s.hostWriteIe p).pin = s.pin := by
  unfold State.hostWriteIe; split <;> rfl
@[simp] theorem hostWriteIe_pinmask (p : PinIn) : (s.hostWriteIe p).pinmask = s.pinmask := by
  unfold State.hostWriteIe; split <;> rfl
@[simp] theorem hostWriteIe_segcount (p : PinIn) : (s.hostWriteIe p).segcount = s.segcount := by
  unfold State.hostWriteIe; split <;> rfl
@[simp] theorem hostWriteIe_ieSaved (p : PinIn) : (s.hostWriteIe p).ieSaved = s.ieSaved := by
  unfold State.hostWriteIe; split <;> rfl
@[simp] theorem hostWriteIe_word (p : PinIn) : (s.hostWriteIe p).word = s.word := by
  unfold State.hostWriteIe; split <;> rfl
@[simp] theorem hostWriteIe_bitmask (p : PinIn) : (s.hostWriteIe p).bitmask = s.bitmask := by
  unfold State.hostWriteIe; split <;> rfl
@[simp] theorem hostWriteIe_dly (p : PinIn) : (s.hostWriteIe p).dly = s.dly := by
  unfold State.hostWriteIe; split <;> rfl
@[simp] theorem hostWriteIe_wcnt (p : PinIn) : (s.hostWriteIe p).wcnt = s.wcnt := by
  unfold State.hostWriteIe; split <;> rfl
@[simp] theorem hostWriteIe_fcnt (p : PinIn) : (s.hostWriteIe p).fcnt = s.fcnt := by
  unfold State.hostWriteIe; split <;> rfl
@[simp] theorem hostWriteIe_nextWord (p : PinIn) : (s.hostWriteIe p).nextWord = s.nextWord := by
  unfold State.hostWriteIe; split <;> rfl
@[simp] theorem hostWriteIe_nextValid (p : PinIn) : (s.hostWriteIe p).nextValid = s.nextValid := by
  unfold State.hostWriteIe; split <;> rfl
@[simp] theorem hostWriteIe_cmd (p : PinIn) : (s.hostWriteIe p).cmd = s.cmd := by
  unfold State.hostWriteIe; split <;> rfl
@[simp] theorem hostWriteIe_phase (p : PinIn) : (s.hostWriteIe p).phase = s.phase := by
  unfold State.hostWriteIe; split <;> rfl
@[simp] theorem hostWriteIe_latch (p : PinIn) : (s.hostWriteIe p).latch = s.latch := by
  unfold State.hostWriteIe; split <;> rfl
@[simp] theorem hostWriteIe_port (p : PinIn) : (s.hostWriteIe p).port = s.port := by
  unfold State.hostWriteIe; split <;> rfl
@[simp] theorem hostWriteIe_pins (p : PinIn) : (s.hostWriteIe p).pins = s.pins := by
  unfold State.hostWriteIe; split <;> rfl
@[simp] theorem hostWriteIe_stallAfter (p : PinIn) : (s.hostWriteIe p).stallAfter = s.stallAfter := by
  unfold State.hostWriteIe; split <;> rfl
@[simp] theorem hostWriteIe_host (p : PinIn) : (s.hostWriteIe p).host = s.host := by
  unfold State.hostWriteIe; split <;> rfl
@[simp] theorem hostWriteIe_cfg (p : PinIn) : (s.hostWriteIe p).cfg = s.cfg := by
  unfold State.hostWriteIe; split <;> rfl
@[simp] theorem hostWriteIe_cycle (p : PinIn) : (s.hostWriteIe p).cycle = s.cycle := by
  unfold State.hostWriteIe; split <;> rfl
@[simp] theorem hostWriteIe_trace (p : PinIn) : (s.hostWriteIe p).trace = s.trace := by
  unfold State.hostWriteIe; split <;> rfl
@[simp] theorem hostWriteIe_draws (p : PinIn) : (s.hostWriteIe p).draws = s.draws := by
  unfold State.hostWriteIe; split <;> rfl

/-! ### The command port -/

@[simp] theorem accept_pin (cw : CommandWord) : (s.accept cw).pin = s.pin := by
  unfold State.accept; split <;> rfl
@[simp] theorem accept_pinmask (cw : CommandWord) : (s.accept cw).pinmask = s.pinmask := by
  unfold State.accept; split <;> rfl
@[simp] theorem accept_segcount (cw : CommandWord) : (s.accept cw).segcount = s.segcount := by
  unfold State.accept; split <;> rfl
@[simp] theorem accept_ie (cw : CommandWord) : (s.accept cw).ie = s.ie := by
  unfold State.accept; split <;> rfl
@[simp] theorem accept_ieSaved (cw : CommandWord) : (s.accept cw).ieSaved = s.ieSaved := by
  unfold State.accept; split <;> rfl
@[simp] theorem accept_wcnt (cw : CommandWord) : (s.accept cw).wcnt = s.wcnt := by
  unfold State.accept; split <;> rfl
@[simp] theorem accept_cmd (cw : CommandWord) : (s.accept cw).cmd = s.cmd := by
  unfold State.accept; split <;> rfl
@[simp] theorem accept_latch (cw : CommandWord) : (s.accept cw).latch = s.latch := by
  unfold State.accept; split <;> rfl
@[simp] theorem accept_port (cw : CommandWord) : (s.accept cw).port = s.port := by
  unfold State.accept; split <;> rfl
@[simp] theorem accept_pins (cw : CommandWord) : (s.accept cw).pins = s.pins := by
  unfold State.accept; split <;> rfl
@[simp] theorem accept_stallAfter (cw : CommandWord) : (s.accept cw).stallAfter = s.stallAfter := by
  unfold State.accept; split <;> rfl
@[simp] theorem accept_cfg (cw : CommandWord) : (s.accept cw).cfg = s.cfg := by
  unfold State.accept; split <;> rfl
@[simp] theorem accept_cycle (cw : CommandWord) : (s.accept cw).cycle = s.cycle := by
  unfold State.accept; split <;> rfl
@[simp] theorem accept_trace (cw : CommandWord) : (s.accept cw).trace = s.trace := by
  unfold State.accept; split <;> rfl
@[simp] theorem accept_draws (cw : CommandWord) : (s.accept cw).draws = s.draws := by
  unfold State.accept; split <;> rfl
@[simp] theorem servePort_pin : s.servePort.pin = s.pin := by
  unfold State.servePort; repeat' split
  all_goals simp
@[simp] theorem servePort_pinmask : s.servePort.pinmask = s.pinmask := by
  unfold State.servePort; repeat' split
  all_goals simp
@[simp] theorem servePort_segcount : s.servePort.segcount = s.segcount := by
  unfold State.servePort; repeat' split
  all_goals simp
@[simp] theorem servePort_ie : s.servePort.ie = s.ie := by
  unfold State.servePort; repeat' split
  all_goals simp
@[simp] theorem servePort_ieSaved : s.servePort.ieSaved = s.ieSaved := by
  unfold State.servePort; repeat' split
  all_goals simp
@[simp] theorem servePort_wcnt : s.servePort.wcnt = s.wcnt := by
  unfold State.servePort; repeat' split
  all_goals simp
@[simp] theorem servePort_cmd : s.servePort.cmd = s.cmd := by
  unfold State.servePort; repeat' split
  all_goals simp
@[simp] theorem servePort_latch : s.servePort.latch = s.latch := by
  unfold State.servePort; repeat' split
  all_goals simp
@[simp] theorem servePort_port : s.servePort.port = s.port := by
  unfold State.servePort; repeat' split
  all_goals simp
@[simp] theorem servePort_pins : s.servePort.pins = s.pins := by
  unfold State.servePort; repeat' split
  all_goals simp
@[simp] theorem servePort_stallAfter : s.servePort.stallAfter = s.stallAfter := by
  unfold State.servePort; repeat' split
  all_goals simp
@[simp] theorem servePort_cfg : s.servePort.cfg = s.cfg := by
  unfold State.servePort; repeat' split
  all_goals simp
@[simp] theorem servePort_cycle : s.servePort.cycle = s.cycle := by
  unfold State.servePort; repeat' split
  all_goals simp
@[simp] theorem servePort_trace : s.servePort.trace = s.trace := by
  unfold State.servePort; repeat' split
  all_goals simp
@[simp] theorem servePort_draws : s.servePort.draws = s.draws := by
  unfold State.servePort; repeat' split
  all_goals simp

/-- Outside FETCH a word of the command stream leaves PHASE, DLY, WORD and BITMASK alone. -/
theorem accept_position (cw : CommandWord) (h : s.phase ≠ .fetch) :
    (s.accept cw).phase = s.phase ∧ (s.accept cw).dly = s.dly ∧ (s.accept cw).word = s.word ∧
      (s.accept cw).bitmask = s.bitmask := by
  unfold State.accept; split <;> simp_all

theorem servePort_position (h : s.phase ≠ .fetch) :
    s.servePort.phase = s.phase ∧ s.servePort.dly = s.dly ∧ s.servePort.word = s.word ∧
      s.servePort.bitmask = s.bitmask := by
  unfold State.servePort
  repeat' split
  · exact accept_position _ _ h
  all_goals simp

/-- Without `cmd_ready` the command port only lets the host wait. -/
theorem servePort_not_ready (h : ready s = false) :
    s.servePort.fcnt = s.fcnt ∧ s.servePort.nextWord = s.nextWord ∧ s.servePort.nextValid = s.nextValid ∧
      s.servePort.phase = s.phase ∧ s.servePort.dly = s.dly ∧ s.servePort.word = s.word ∧
      s.servePort.bitmask = s.bitmask := by
  unfold State.servePort
  repeat' split
  all_goals simp_all

/-! ### An advancing cycle -/

@[simp] theorem advanceCycle_pin (a b : PortWord) : (s.advanceCycle a b).pin = s.pin := by
  simp [State.advanceCycle]
@[simp] theorem advanceCycle_pinmask (a b : PortWord) : (s.advanceCycle a b).pinmask = s.pinmask := by
  simp [State.advanceCycle]
@[simp] theorem advanceCycle_segcount (a b : PortWord) : (s.advanceCycle a b).segcount = s.segcount := by
  simp [State.advanceCycle]
@[simp] theorem advanceCycle_ieSaved (a b : PortWord) : (s.advanceCycle a b).ieSaved = s.ieSaved := by
  simp [State.advanceCycle]
@[simp] theorem advanceCycle_wcnt (a b : PortWord) : (s.advanceCycle a b).wcnt = s.wcnt := by
  simp [State.advanceCycle]
@[simp] theorem advanceCycle_cmd (a b : PortWord) : (s.advanceCycle a b).cmd = s.cmd := by
  simp [State.advanceCycle]
@[simp] theorem advanceCycle_latch (a b : PortWord) : (s.advanceCycle a b).latch = s.latch := by
  simp [State.advanceCycle]
@[simp] theorem advanceCycle_port (a b : PortWord) : (s.advanceCycle a b).port = nextPort a b s := by
  simp [State.advanceCycle]
@[simp] theorem advanceCycle_pins (a b : PortWord) : (s.advanceCycle a b).pins = s.pins.tail := by
  simp [State.advanceCycle]
@[simp] theorem advanceCycle_stallAfter (a b : PortWord) : (s.advanceCycle a b).stallAfter = s.stallAfter := by
  simp [State.advanceCycle]
@[simp] theorem advanceCycle_cfg (a b : PortWord) : (s.advanceCycle a b).cfg = s.cfg := by
  simp [State.advanceCycle]
@[simp] theorem advanceCycle_cycle (a b : PortWord) : (s.advanceCycle a b).cycle = s.cycle + 1 := by
  simp [State.advanceCycle]
@[simp] theorem advanceCycle_trace (a b : PortWord) : (s.advanceCycle a b).trace = outputs (ready s) a b s :: s.trace := by
  simp [State.advanceCycle]
@[simp] theorem advanceCycle_draws (a b : PortWord) : (s.advanceCycle a b).draws = s.draws := by
  simp [State.advanceCycle]

theorem advanceCycle_ie (a b : PortWord) :
    (s.advanceCycle a b).ie = if s.phase.isIdle && (nowPins s).ieWe then (nowPins s).ieData else s.ie := by
  simp [State.advanceCycle, hostWriteIe_ie]

/-- Outside IDLE an advancing cycle leaves IE alone (10_state.md R21). -/
theorem advanceCycle_ie_busy (a b : PortWord) (h : s.phase ≠ .idle) : (s.advanceCycle a b).ie = s.ie := by
  rw [advanceCycle_ie]
  cases hp : s.phase <;> simp_all [Phase.isIdle]

/-- Outside FETCH an advancing cycle leaves PHASE, DLY, WORD and BITMASK to the sequencer. -/
theorem advanceCycle_position (a b : PortWord) (h : s.phase ≠ .fetch) :
    (s.advanceCycle a b).phase = s.phase ∧ (s.advanceCycle a b).dly = s.dly ∧ (s.advanceCycle a b).word = s.word ∧
      (s.advanceCycle a b).bitmask = s.bitmask := by
  have := servePort_position ((s.elapse (outputs (ready s) a b s) a b).hostWriteIe (nowPins s)) (by simpa using h)
  simpa [State.advanceCycle] using this

/-! ### A stalled cycle -/

@[simp] theorem stallCycle_pin : s.stallCycle.pin = s.pin := rfl
@[simp] theorem stallCycle_pinmask : s.stallCycle.pinmask = s.pinmask := rfl
@[simp] theorem stallCycle_segcount : s.stallCycle.segcount = s.segcount := rfl
@[simp] theorem stallCycle_ie : s.stallCycle.ie = s.ie := rfl
@[simp] theorem stallCycle_ieSaved : s.stallCycle.ieSaved = s.ieSaved := rfl
@[simp] theorem stallCycle_word : s.stallCycle.word = s.word := rfl
@[simp] theorem stallCycle_bitmask : s.stallCycle.bitmask = s.bitmask := rfl
@[simp] theorem stallCycle_dly : s.stallCycle.dly = s.dly := rfl
@[simp] theorem stallCycle_wcnt : s.stallCycle.wcnt = s.wcnt := rfl
@[simp] theorem stallCycle_fcnt : s.stallCycle.fcnt = s.fcnt := rfl
@[simp] theorem stallCycle_nextWord : s.stallCycle.nextWord = s.nextWord := rfl
@[simp] theorem stallCycle_nextValid : s.stallCycle.nextValid = s.nextValid := rfl
@[simp] theorem stallCycle_cmd : s.stallCycle.cmd = s.cmd := rfl
@[simp] theorem stallCycle_phase : s.stallCycle.phase = s.phase := rfl
@[simp] theorem stallCycle_latch : s.stallCycle.latch = s.latch := rfl
@[simp] theorem stallCycle_port : s.stallCycle.port = nextPort 0#256 0#256 s := rfl
@[simp] theorem stallCycle_pins : s.stallCycle.pins = s.pins.tail := rfl
@[simp] theorem stallCycle_stallAfter : s.stallCycle.stallAfter = s.stallAfter := rfl
@[simp] theorem stallCycle_host : s.stallCycle.host = waitHost s.host := rfl
@[simp] theorem stallCycle_cfg : s.stallCycle.cfg = s.cfg := rfl
@[simp] theorem stallCycle_cycle : s.stallCycle.cycle = s.cycle + 1 := rfl
@[simp] theorem stallCycle_trace : s.stallCycle.trace = outputs false 0#256 0#256 s :: s.trace := rfl
@[simp] theorem stallCycle_draws : s.stallCycle.draws = s.draws := rfl

/-! ### A cycle with `rst` = 1 -/

@[simp] theorem resetCycle_pin : s.resetCycle.pin = 0#8 := rfl
@[simp] theorem resetCycle_pinmask : s.resetCycle.pinmask = 0#256 := rfl
@[simp] theorem resetCycle_segcount : s.resetCycle.segcount = 0#16 := rfl
@[simp] theorem resetCycle_ie : s.resetCycle.ie = false := rfl
@[simp] theorem resetCycle_ieSaved : s.resetCycle.ieSaved = Config.freeIeSaved s.draws := rfl
@[simp] theorem resetCycle_word : s.resetCycle.word = Config.freeWord s.draws := rfl
@[simp] theorem resetCycle_bitmask : s.resetCycle.bitmask = Config.freeBitmask s.draws := rfl
@[simp] theorem resetCycle_dly : s.resetCycle.dly = Config.freeDly s.draws := rfl
@[simp] theorem resetCycle_wcnt : s.resetCycle.wcnt = 0#24 := rfl
@[simp] theorem resetCycle_fcnt : s.resetCycle.fcnt = 0#24 := rfl
@[simp] theorem resetCycle_nextWord : s.resetCycle.nextWord = Config.freeNext s.draws := rfl
@[simp] theorem resetCycle_nextValid : s.resetCycle.nextValid = false := rfl
@[simp] theorem resetCycle_cmd : s.resetCycle.cmd = .none := rfl
@[simp] theorem resetCycle_phase : s.resetCycle.phase = .idle := rfl
@[simp] theorem resetCycle_latch : s.resetCycle.latch = Config.freeLatch s.draws := rfl
@[simp] theorem resetCycle_port : s.resetCycle.port = nextPort 0#256 0#256 s := rfl
@[simp] theorem resetCycle_pins : s.resetCycle.pins = s.pins.tail := rfl
@[simp] theorem resetCycle_stallAfter : s.resetCycle.stallAfter = s.stallAfter := rfl
@[simp] theorem resetCycle_host : s.resetCycle.host = waitHost s.host := rfl
@[simp] theorem resetCycle_cfg : s.resetCycle.cfg = s.cfg := rfl
@[simp] theorem resetCycle_cycle : s.resetCycle.cycle = 0 := rfl
@[simp] theorem resetCycle_trace : s.resetCycle.trace = resetOutputs s :: s.trace := rfl
@[simp] theorem resetCycle_draws : s.resetCycle.draws = s.draws + 1 := rfl

/-! ### Which kind of cycle it is -/

/-- Everything one clock cycle can do. -/
theorem tick_cases (a b : PortWord) :
    (secondWriter s = true ∧ tick a b s = .refused .secondWriter) ∨
    (secondWriter s = false ∧ (nowPins s).rst = true ∧ tick a b s = .reset s.resetCycle) ∨
    (secondWriter s = false ∧ (nowPins s).rst = false ∧ advances s = true ∧ tick a b s = .advanced (s.advanceCycle a b)) ∨
    (secondWriter s = false ∧ (nowPins s).rst = false ∧ advances s = false ∧ tick a b s = .stalled s.stallCycle) := by
  unfold tick
  cases secondWriter s <;> cases (nowPins s).rst <;> cases advances s <;> simp

/-- While IE = 0 every cycle advances (46_interrupt_sync.md R108). -/
theorem advances_of_masked (h : s.ie = false) : advances s = true := by simp [advances, h]

/-- A stalled cycle past the end of the schedule is one of an endless stall (70_reset_and_hazards.md R138). -/
theorem hung_of_stalled (h : advances s = false) (hp : s.pins = []) : hung s = true := by
  simpa [hung, advances, nowPins, afterPins, hp] using h

/-- An endless stall goes on. -/
theorem hung_stallCycle (h : hung s = true) : hung s.stallCycle = true := by
  simp only [hung, Bool.and_eq_true, List.isEmpty_iff] at h ⊢
  simp [h]

end Sys2Proof.Machine
end

