-- ==== Sys2Proof/Laws/Run.lean ====
section
/-! SUPPORT. What a run can do, said once for each shared operation. A micro-operation's advancing cycles follow a fixed
script (its phases and pulses); a property that every cycle of the script keeps holds at its end. -/

namespace Sys2Proof.Machine

/-! ### Sequencing -/

@[simp] theorem andThen_on (s : State) (f : State → Run) : (Run.on s).andThen f = f s := rfl
@[simp] theorem andThen_over (s : State) (f : State → Run) : (Run.over s).andThen f = .over s := rfl
@[simp] theorem andThen_refused (r : Refusal) (f : State → Run) : (Run.refused r).andThen f = .refused r := rfl
@[simp] theorem outcome_on (s : State) : (Run.on s).outcome = .next s := rfl
@[simp] theorem outcome_over (s : State) : (Run.over s).outcome = .next s := rfl
@[simp] theorem outcome_refused (r : Refusal) : (Run.refused r).outcome = .refused r := rfl

theorem andThen_assoc (r : Run) (f g : State → Run) :
    (r.andThen f).andThen g = r.andThen fun s => (f s).andThen g := by
  cases r <;> rfl

/-- What a run's end satisfies: `P` when it completed, `Q` when it was cut short, `X` when the model stopped. -/
def Run.Sat (P Q : State → Prop) (X : Prop) : Run → Prop
  | .on t => P t
  | .over t => Q t
  | .refused _ => X

theorem Run.Sat.mono {P P' Q Q' : State → Prop} {X X' : Prop} {r : Run} (h : r.Sat P Q X)
    (hP : ∀ t, P t → P' t) (hQ : ∀ t, Q t → Q' t) (hX : X → X') : r.Sat P' Q' X' := by
  cases r
  · exact hP _ h
  · exact hQ _ h
  · exact hX h

theorem Run.Sat.imp {P P' Q : State → Prop} {X : Prop} {r : Run} (h : r.Sat P Q X) (hP : ∀ t, P t → P' t) :
    r.Sat P' Q X := h.mono hP (fun _ hq => hq) id

theorem Run.Sat.andThen {P P' Q : State → Prop} {X : Prop} {r : Run} {f : State → Run} (h : r.Sat P Q X)
    (hf : ∀ t, P t → (f t).Sat P' Q X) : (r.andThen f).Sat P' Q X := by
  cases r
  · exact hf _ h
  · exact h
  · exact h

/-- A run that can neither be cut short nor stop completes. -/
theorem Run.Sat.exists_on {P : State → Prop} {r : Run} (h : r.Sat P (fun _ => False) False) : ∃ t, r = .on t ∧ P t := by
  cases r
  · exact ⟨_, rfl, h⟩
  · exact h.elim
  · exact h.elim

/-- What holds of the answer of a run that satisfies `Q` too when it is cut short. -/
theorem Run.Sat.of_outcome {P Q : State → Prop} {X : Prop} {r : Run} {t : State} (h : r.Sat P Q X)
    (ht : r.outcome = .next t) : P t ∨ Q t := by
  cases r
  · simp at ht; subst ht; exact .inl h
  · simp at ht; subst ht; exact .inr h
  · simp at ht

/-! ### One advancing cycle -/

/-- `advance` is right whatever happens before its advancing cycle: stalled cycles, a stall without end, a hardware reset, or a
stop. -/
theorem advance_sat {I P Q : State → Prop} {X : Prop} {a b : PortWord} {s : State} (hs : I s)
    (hrefuse : ∀ u, I u → secondWriter u = true → X)
    (hreset : ∀ u, I u → secondWriter u = false → (nowPins u).rst = true → Q u.resetCycle)
    (hstall : ∀ u, I u → secondWriter u = false → (nowPins u).rst = false → advances u = false → I u.stallCycle)
    (hhung : ∀ u, I u → hung u = true → Q u)
    (hadv : ∀ u, I u → secondWriter u = false → (nowPins u).rst = false → advances u = true → P (u.advanceCycle a b)) :
    (advance a b s).Sat P Q X := by
  suffices h : ∀ n u, u.pins.length < n ∨ hung u = true → I u → (advanceWithin a b n u).Sat P Q X from
    h _ _ (.inl (Nat.lt_succ_self _)) hs
  intro n
  induction n with
  | zero => exact fun u hn hu => hhung u hu (hn.resolve_left (Nat.not_lt_zero _))
  | succ n ih =>
    intro u hn hu
    unfold advanceWithin
    rcases tick_cases u a b with ⟨h1, h⟩ | ⟨h1, h2, h⟩ | ⟨h1, h2, h3, h⟩ | ⟨h1, h2, h3, h⟩ <;> rw [h]
    · exact hrefuse u hu h1
    · exact hreset u hu h1 h2
    · exact hadv u hu h1 h2 h3
    · refine ih _ ?_ (hstall u hu h1 h2 h3)
      rcases hn with hn | hn
      · by_cases hp : u.pins = []
        · exact .inr (hung_stallCycle u (hung_of_stalled u h3 hp))
        · have := List.length_pos_of_ne_nil hp
          refine .inl ?_
          simp only [stallCycle_pins, List.length_tail]
          omega
      · exact .inr (hung_stallCycle u hn)

/-! ### Scripts -/

/-- What the block does to its line in an advancing cycle. -/
inductive Drive where
  | none | high | low
  deriving DecidableEq, Repr

/-- `port_set` of a drive with PINMASK `m`. -/
def Drive.set : Drive → PortWord → PortWord
  | .high, m => m
  | .none, _ | .low, _ => 0#256

/-- `port_clr` of a drive with PINMASK `m`. -/
def Drive.clr : Drive → PortWord → PortWord
  | .low, m => m
  | .none, _ | .high, _ => 0#256

/-- The advancing cycles of a micro-operation: their phases and drives. -/
abbrev Script := List (Phase × Drive)

/-- `n` cycles in a phase, the last with the drive `d`. -/
def driveScript (ph : Phase) (n : Nat) (d : Drive) : Script := List.replicate (n - 1) (ph, .none) ++ [(ph, d)]

/-- `n` cycles in a phase. -/
def waitScript (ph : Phase) (n : Nat) : Script := List.replicate n (ph, .none)

/-- ENCODEBIT of value `v`. -/
def encodeScript (c : Params) (v : Bool) : Script :=
  driveScript .bitRise c.cDrive .high ++ waitScript .bitHigh (c.high v) ++ driveScript .bitFall c.cDrive .low ++
    waitScript .bitLow (c.low v)

/-- Bits k, k+1, ..., k+n-1 of TRANSMIT(w). -/
def bitsScript (c : Params) (w : ColorWord) : Nat → Nat → Script
  | _, 0 => []
  | k, n + 1 => encodeScript c (w.getLsbD k) ++ waitScript .bitGap c.gBit ++ bitsScript c w (k + 1) n

/-- TRANSMIT(w). -/
def wordScript (c : Params) (w : ColorWord) : Script := bitsScript c w 0 24

/-- RESET. -/
def resetScript (c : Params) : Script := driveScript .rstDrive c.cDrive .low ++ waitScript .rstHold c.tRst

/-- What no cycle of a micro-operation changes: the configuration, IE_SAVED, WCNT, CMD, the latch, and whether a stall without end is to come. -/
structure Kept (s t : State) : Prop where
  cfg : t.cfg = s.cfg
  pin : t.pin = s.pin
  pinmask : t.pinmask = s.pinmask
  segcount : t.segcount = s.segcount
  ieSaved : t.ieSaved = s.ieSaved
  wcnt : t.wcnt = s.wcnt
  cmd : t.cmd = s.cmd
  latch : t.latch = s.latch
  draws : t.draws = s.draws
  stallAfter : t.stallAfter = s.stallAfter

theorem Kept.refl (s : State) : Kept s s := ⟨rfl, rfl, rfl, rfl, rfl, rfl, rfl, rfl, rfl, rfl⟩

theorem Kept.trans {s t u : State} (h : Kept s t) (k : Kept t u) : Kept s u :=
  ⟨k.cfg.trans h.cfg, k.pin.trans h.pin, k.pinmask.trans h.pinmask, k.segcount.trans h.segcount,
    k.ieSaved.trans h.ieSaved, k.wcnt.trans h.wcnt, k.cmd.trans h.cmd, k.latch.trans h.latch, k.draws.trans h.draws,
    k.stallAfter.trans h.stallAfter⟩

/-- Nor, outside FETCH, WORD and BITMASK. -/
structure KeptWord (s t : State) : Prop extends Kept s t where
  word : t.word = s.word
  bitmask : t.bitmask = s.bitmask

theorem KeptWord.refl (s : State) : KeptWord s s := ⟨Kept.refl s, rfl, rfl⟩

theorem KeptWord.trans {s t u : State} (h : KeptWord s t) (k : KeptWord t u) : KeptWord s u :=
  ⟨h.toKept.trans k.toKept, k.word.trans h.word, k.bitmask.trans h.bitmask⟩

theorem KeptWord.ofEnter (s : State) (ph : Phase) (n : Nat) : KeptWord s (s.enter ph n) :=
  ⟨⟨rfl, rfl, rfl, rfl, rfl, rfl, rfl, rfl, rfl, rfl⟩, rfl, rfl⟩

theorem KeptWord.ofDly (s : State) (n : Nat) : KeptWord s { s with dly := n } :=
  ⟨⟨rfl, rfl, rfl, rfl, rfl, rfl, rfl, rfl, rfl, rfl⟩, rfl, rfl⟩

theorem KeptWord.ofStall (s : State) : KeptWord s s.stallCycle :=
  ⟨⟨rfl, rfl, rfl, rfl, rfl, rfl, rfl, rfl, rfl, rfl⟩, rfl, rfl⟩

theorem Kept.ofAdvance (s : State) (a b : PortWord) : Kept s (s.advanceCycle a b) := by
  constructor <;> simp

theorem KeptWord.ofAdvance (s : State) (a b : PortWord) (h : s.phase ≠ .fetch) : KeptWord s (s.advanceCycle a b) :=
  ⟨Kept.ofAdvance s a b, (advanceCycle_position s a b h).2.2.1, (advanceCycle_position s a b h).2.2.2⟩

theorem Kept.ofShift (s : State) : Kept s s.shiftMask := ⟨rfl, rfl, rfl, rfl, rfl, rfl, rfl, rfl, rfl, rfl⟩

theorem Kept.ofLoad (s : State) (w : ColorWord) : Kept s (s.loadWord w) := ⟨rfl, rfl, rfl, rfl, rfl, rfl, rfl, rfl, rfl, rfl⟩

/-- FCNT, NEXT and NEXT_VALID are the same. -/
structure KeptFeed (s t : State) : Prop where
  fcnt : t.fcnt = s.fcnt
  nextWord : t.nextWord = s.nextWord
  nextValid : t.nextValid = s.nextValid

theorem KeptFeed.refl (s : State) : KeptFeed s s := ⟨rfl, rfl, rfl⟩

theorem KeptFeed.trans {s t u : State} (h : KeptFeed s t) (k : KeptFeed t u) : KeptFeed s u :=
  ⟨k.fcnt.trans h.fcnt, k.nextWord.trans h.nextWord, k.nextValid.trans h.nextValid⟩

theorem KeptFeed.ofDly (s : State) (n : Nat) : KeptFeed s { s with dly := n } := ⟨rfl, rfl, rfl⟩

theorem KeptFeed.ofEnter (s : State) (ph : Phase) (n : Nat) : KeptFeed s (s.enter ph n) := ⟨rfl, rfl, rfl⟩

theorem KeptFeed.ofStall (s : State) : KeptFeed s s.stallCycle := ⟨rfl, rfl, rfl⟩

/-- A cycle in which no payload word is wanted leaves the prefetch alone (10_state.md R33). -/
theorem KeptFeed.ofAdvance (s : State) (a b : PortWord) (h : ready s = false ∨ s.phase = .idle) :
    KeptFeed s (s.advanceCycle a b) := by
  rcases h with h | h
  · have := servePort_not_ready ((s.elapse (outputs (ready s) a b s) a b).hostWriteIe (nowPins s)) (by
      simpa [ready, wantsNext] using h)
    exact ⟨by simpa [State.advanceCycle] using this.1, by simpa [State.advanceCycle] using this.2.1,
      by simpa [State.advanceCycle] using this.2.2.1⟩
  · constructor <;>
    · unfold State.advanceCycle State.servePort
      split
      · split
        · simp [State.accept, h]
        · simp
      · simp

/-- The phases in which no word is accepted (10_state.md R33). -/
theorem ready_of_quiet (s : State) (h1 : s.phase.isBit = false) (h2 : s.phase ≠ .idle) (h3 : s.phase ≠ .fetch) :
    ready s = false := by
  unfold ready
  cases h : s.phase <;> simp_all [Phase.isBit]

/-- `P l u` holds when the last cycle of the script `l` has just passed, or nothing has; `W l u` also in the stalled cycles after that.
Every cycle in a phase of `A` and every update of a micro-operation keeps them. -/
structure Stable (A : Phase → Prop) (P W : Script → State → Prop) (Q : State → Prop) (X : Prop) : Prop where
  live : ∀ ph, A ph → ph ≠ .idle ∧ ph ≠ .fetch
  weak : ∀ l u, P l u → W l u
  adv : ∀ l u d, W l u → A u.phase → secondWriter u = false → (nowPins u).rst = false → advances u = true →
    P (l ++ [(u.phase, d)]) (u.advanceCycle (d.set u.pinmask) (d.clr u.pinmask))
  stall : ∀ l u, W l u → A u.phase → secondWriter u = false → (nowPins u).rst = false → advances u = false →
    W l u.stallCycle
  hung : ∀ l u, W l u → A u.phase → hung u = true → Q u
  reset : ∀ l u, W l u → A u.phase → secondWriter u = false → (nowPins u).rst = true → Q u.resetCycle
  refuse : ∀ l u, W l u → A u.phase → secondWriter u = true → X
  enter : ∀ l u ph n, A ph → P l u → P l (u.enter ph n)
  dly : ∀ l u n, P l u → P l { u with dly := n }

section
variable {A : Phase → Prop} {P W : Script → State → Prop} {Q : State → Prop} {X : Prop}

theorem Stable.advance (S : Stable A P W Q X) {l : Script} {s : State} (d : Drive) (hs : P l s) (ha : A s.phase) :
    (advance (d.set s.pinmask) (d.clr s.pinmask) s).Sat
      (fun t => P (l ++ [(s.phase, d)]) t ∧ KeptWord s t ∧ t.phase = s.phase) Q X := by
  have key : ∀ u, (W l u ∧ KeptWord s u ∧ u.phase = s.phase) → secondWriter u = false → (nowPins u).rst = false →
      advances u = true → P (l ++ [(s.phase, d)]) (u.advanceCycle (d.set s.pinmask) (d.clr s.pinmask)) ∧
        KeptWord s (u.advanceCycle (d.set s.pinmask) (d.clr s.pinmask)) ∧
        (u.advanceCycle (d.set s.pinmask) (d.clr s.pinmask)).phase = s.phase := by
    rintro u ⟨hp, hk, hph⟩ h1 h2 h3
    have hpos := advanceCycle_position u (d.set s.pinmask) (d.clr s.pinmask) (by rw [hph]; exact (S.live _ ha).2)
    have := S.adv l u d hp (by rwa [hph]) h1 h2 h3
    rw [hph, hk.pinmask] at this
    exact ⟨this, hk.trans (KeptWord.ofAdvance u _ _ (by rw [hph]; exact (S.live _ ha).2)), hpos.1.trans hph⟩
  refine advance_sat (I := fun u => W l u ∧ KeptWord s u ∧ u.phase = s.phase) ⟨S.weak _ _ hs, KeptWord.refl s, rfl⟩
    ?_ ?_ ?_ ?_ key
  · rintro u ⟨hp, -, hph⟩ h; exact S.refuse l u hp (by rwa [hph]) h
  · rintro u ⟨hp, -, hph⟩ h1 h2; exact S.reset l u hp (by rwa [hph]) h1 h2
  · rintro u ⟨hp, hk, hph⟩ h1 h2 h3
    exact ⟨S.stall l u hp (by rwa [hph]) h1 h2 h3, hk.trans (KeptWord.ofStall u), hph⟩
  · rintro u ⟨hp, -, hph⟩ h; exact S.hung l u hp (by rwa [hph]) h

theorem Stable.waitCycles (S : Stable A P W Q X) (n : Nat) {l : Script} {s : State} (hs : P l s) (ha : A s.phase) :
    (waitCycles n s).Sat (fun t => P (l ++ waitScript s.phase n) t ∧ KeptWord s t ∧ t.phase = s.phase) Q X := by
  induction n generalizing l s with
  | zero => exact ⟨by simpa [waitScript] using hs, KeptWord.refl s, rfl⟩
  | succ n ih =>
    refine (S.advance .none hs ha).andThen ?_
    rintro t ⟨hp, hk, hph⟩
    have hp' : P (l ++ [(s.phase, .none)]) t.countDly := S.dly _ t (t.dly - 1) hp
    refine (ih hp' (by simpa [hph] using ha)).imp ?_
    rintro u ⟨hu, hk', hph'⟩
    refine ⟨?_, hk.trans ((KeptWord.ofDly t (t.dly - 1)).trans hk'), by simpa [hph] using hph'⟩
    have : (l ++ [(s.phase, Drive.none)]) ++ waitScript t.countDly.phase n = l ++ waitScript s.phase (n + 1) := by
      simp [waitScript, List.replicate_succ, hph]
    rwa [this] at hu

theorem Stable.waitPhase (S : Stable A P W Q X) (ph : Phase) (n : Nat) {l : Script} {s : State} (hs : P l s) (ha : A ph) :
    (waitPhase ph n s).Sat (fun t => P (l ++ waitScript ph n) t ∧ KeptWord s t) Q X := by
  unfold Sys2Proof.Machine.waitPhase
  split
  · next h => subst h; exact ⟨by simpa [waitScript] using hs, KeptWord.refl s⟩
  · refine (S.waitCycles n (S.enter l s ph n ha hs) ha).imp ?_
    rintro t ⟨hp, hk, -⟩
    exact ⟨hp, (KeptWord.ofEnter s ph n).trans hk⟩

/-- A micro-operation with a write at its end: `P` holds of the state the write is applied to. -/
theorem Stable.operate (S : Stable A P W Q X) (ph : Phase) (n : Nat) (d : Drive) (write : State → State) {l : Script}
    {s : State} (hs : P l s) (ha : A ph) :
    (operate ph n (d.set s.pinmask) (d.clr s.pinmask) write s).Sat
      (fun t => ∃ u, t = write u ∧ P (l ++ driveScript ph n d) u ∧ KeptWord s u) Q X := by
  unfold Sys2Proof.Machine.operate
  refine (S.waitCycles (n - 1) (S.enter l s ph n ha hs) ha).andThen ?_
  rintro t ⟨hp, hk, hph⟩
  simp only [enter_phase] at hph
  have hm : t.pinmask = s.pinmask := by simpa using hk.pinmask
  have := S.advance d hp (by rwa [hph])
  rw [hm] at this
  refine this.andThen ?_
  rintro u ⟨hu, hk', -⟩
  refine ⟨_, rfl, ?_, ((KeptWord.ofEnter s ph n).trans hk).trans (hk'.trans (KeptWord.ofDly u 0))⟩
  have := S.dly _ u 0 hu
  simpa [driveScript, waitScript, hph] using this

theorem Stable.driveHigh (S : Stable A P W Q X) {l : Script} {s : State} (hs : P l s) (ha : A .bitRise) :
    (driveHigh s).Sat (fun t => P (l ++ driveScript .bitRise s.cfg.cDrive .high) t ∧ KeptWord s t) Q X := by
  refine (S.operate .bitRise s.cfg.cDrive .high id hs ha).imp ?_
  rintro t ⟨u, rfl, h⟩
  exact h

theorem Stable.driveLow (S : Stable A P W Q X) (ph : Phase) {l : Script} {s : State} (hs : P l s) (ha : A ph) :
    (driveLow ph s).Sat (fun t => P (l ++ driveScript ph s.cfg.cDrive .low) t ∧ KeptWord s t) Q X := by
  refine (S.operate ph s.cfg.cDrive .low id hs ha).imp ?_
  rintro t ⟨u, rfl, h⟩
  exact h

theorem hung_resetCycle (s : State) : hung s.resetCycle = false := rfl

/-- Outside TRANSMIT, WORD and BITMASK are kept too, also where a stall without end cuts the run short. -/
theorem Stable.withWord (S : Stable A P W Q X) (s : State) :
    Stable A (fun l u => P l u ∧ KeptWord s u) (fun l u => W l u ∧ KeptWord s u)
      (fun t => Q t ∧ (Sys2Proof.Machine.hung t = true → KeptWord s t)) X where
  live := S.live
  weak := fun l u h => ⟨S.weak l u h.1, h.2⟩
  adv := fun l u d h ha h1 h2 h3 =>
    ⟨S.adv l u d h.1 ha h1 h2 h3, h.2.trans (KeptWord.ofAdvance u _ _ (S.live _ ha).2)⟩
  stall := fun l u h ha h1 h2 h3 => ⟨S.stall l u h.1 ha h1 h2 h3, h.2.trans (KeptWord.ofStall u)⟩
  hung := fun l u h ha hh => ⟨S.hung l u h.1 ha hh, fun _ => h.2⟩
  reset := fun l u h ha h1 h2 => ⟨S.reset l u h.1 ha h1 h2, fun hh => by rw [hung_resetCycle] at hh; simp at hh⟩
  refuse := fun l u h ha h1 => S.refuse l u h.1 ha h1
  enter := fun l u ph n ha h => ⟨S.enter l u ph n ha h.1, h.2.trans (KeptWord.ofEnter u ph n)⟩
  dly := fun l u n h => ⟨S.dly l u n h.1, h.2.trans (KeptWord.ofDly u n)⟩

theorem encodeBit_eq (v : Bool) (s : State) :
    (if v then encodeBit1 s else encodeBit0 s) =
      (driveHigh s).andThen fun t => (hold .bitHigh (t.cfg.high v) t).andThen fun u =>
        (driveLow .bitFall u).andThen fun x => hold .bitLow (x.cfg.low v) x := by
  cases v <;> rfl

theorem Stable.encodeBit (S : Stable A P W Q X) (v : Bool) {l : Script} {s : State} (hs : P l s)
    (ha : ∀ ph : Phase, ph.isBit = true → A ph) :
    (if v then encodeBit1 s else encodeBit0 s).Sat (fun t => P (l ++ encodeScript s.cfg v) t ∧ KeptWord s t) Q X := by
  rw [encodeBit_eq]
  refine (S.driveHigh hs (ha _ rfl)).andThen ?_
  rintro t ⟨ht, kt⟩
  refine (S.waitPhase .bitHigh _ ht (ha _ rfl)).andThen ?_
  rintro u ⟨hu, ku⟩
  refine (S.driveLow .bitFall hu (ha _ rfl)).andThen ?_
  rintro x ⟨hx, kx⟩
  refine (S.waitPhase .bitLow _ hx (ha _ rfl)).imp ?_
  rintro y ⟨hy, ky⟩
  have ku' := kt.trans ku
  have kx' := ku'.trans kx
  refine ⟨?_, kx'.trans ky⟩
  rw [kt.cfg, ku'.cfg, kx'.cfg] at hy
  simpa [encodeScript] using hy

/-- The bit the mask `1 << k` selects. -/
theorem and_shift_ne_zero (w : ColorWord) (k : Nat) (hk : k < 24) :
    ((w &&& (1#24 <<< k)) != 0#24) = w.getLsbD k := by
  have hmask : (1#24 <<< k) = BitVec.twoPow 24 k := by
    apply BitVec.eq_of_getLsbD_eq; intro i hi
    simp only [BitVec.getLsbD_shiftLeft, BitVec.getLsbD_one, BitVec.getLsbD_twoPow]
    rw [Bool.eq_iff_iff]; simp; omega
  rw [hmask, BitVec.and_twoPow]
  cases w.getLsbD k
  · rfl
  · simp only [if_true, bne_iff_ne, ne_eq]
    intro h
    have := congrArg (·.getLsbD k) h
    simp [hk] at this

theorem Stable.transmitBits (S : Stable A P W Q X) (w : ColorWord) (ha : ∀ ph : Phase, ph.isBit = true → A ph)
    (hshift : ∀ l u, P l u → P l u.shiftMask) (n k : Nat) (hk : k + n = 24) {l : Script} {s : State} (hs : P l s)
    (hw : s.word = w) (hb : s.bitmask = 1#24 <<< k) :
    (transmitBits n s).Sat
      (fun t => P (l ++ bitsScript s.cfg w k n) t ∧ Kept s t ∧ t.word = w ∧ t.bitmask = 1#24 <<< (k + n)) Q X := by
  induction n generalizing k l s with
  | zero => exact ⟨by simpa [bitsScript] using hs, Kept.refl s, hw, hb⟩
  | succ n ih =>
    have hv : s.bitValue = w.getLsbD k := by
      rw [State.bitValue, hw, hb]; exact and_shift_ne_zero w k (by omega)
    unfold Sys2Proof.Machine.transmitBits
    rw [hv]
    refine (S.encodeBit (w.getLsbD k) hs ha).andThen ?_
    rintro t ⟨ht, kt⟩
    refine (S.waitPhase .bitGap _ (hshift _ t ht) (ha _ rfl)).andThen ?_
    rintro u ⟨hu, ku⟩
    have hwu : u.word = w := by rw [ku.word]; simpa [hw] using kt.word
    have hbu : u.bitmask = 1#24 <<< (k + 1) := by
      rw [ku.bitmask, shiftMask_bitmask, kt.bitmask, hb, ← BitVec.shiftLeft_add]
    refine (ih (k + 1) (by omega) hu hwu hbu).imp ?_
    rintro x ⟨hx, kx, hxw, hxb⟩
    have ku' : Kept s u := (kt.toKept.trans (Kept.ofShift t)).trans ku.toKept
    refine ⟨?_, ku'.trans kx, hxw, by rw [hxb]; congr 1; omega⟩
    rw [kt.cfg, ku'.cfg] at hx
    simpa [bitsScript] using hx

theorem Stable.transmit (S : Stable A P W Q X) (w : ColorWord) (ha : ∀ ph : Phase, ph.isBit = true → A ph)
    (hshift : ∀ l u, P l u → P l u.shiftMask) {l : Script} {s : State} (hs : P l (s.loadWord w)) :
    (transmit w s).Sat
      (fun t => P (l ++ wordScript s.cfg w) t ∧ Kept s t ∧ t.word = w ∧ t.bitmask = 0#24) Q X := by
  have := S.transmitBits w ha hshift 24 0 rfl hs rfl (by simp)
  refine this.imp ?_
  rintro t ⟨ht, kt, hw, hb⟩
  exact ⟨ht, (Kept.ofLoad s w).trans kt, hw, by rw [hb]; decide⟩

theorem Stable.resetSignal (S : Stable A P W Q X) {l : Script} {s : State} (hs : P l s) (h1 : A .rstDrive) (h2 : A .rstHold) :
    (resetSignal s).Sat (fun t => P (l ++ resetScript s.cfg) t ∧ KeptWord s t) Q X := by
  refine (S.driveLow .rstDrive hs h1).andThen ?_
  rintro t ⟨ht, kt⟩
  refine (S.waitPhase .rstHold _ ht h2).imp ?_
  rintro u ⟨hu, ku⟩
  refine ⟨?_, kt.trans ku⟩
  rw [kt.cfg] at hu
  simpa [resetScript] using hu

theorem Stable.irqMask (S : Stable A P W Q X) {l : Script} {s : State} (hs : P l s) (ha : A .syncMask) :
    (irqMask s).Sat (fun t => ∃ u, t = u.maskIe ∧ P (l ++ driveScript .syncMask s.cfg.cSync .none) u ∧ KeptWord s u) Q X :=
  S.operate .syncMask s.cfg.cSync .none State.maskIe hs ha

theorem Stable.irqRestore (S : Stable A P W Q X) {l : Script} {s : State} (hs : P l s) (ha : A .syncRestore) :
    (irqRestore s).Sat
      (fun t => ∃ u, t = u.restoreIe ∧ P (l ++ driveScript .syncRestore s.cfg.cSync .none) u ∧ KeptWord s u) Q X :=
  S.operate .syncRestore s.cfg.cSync .none State.restoreIe hs ha

end

end Sys2Proof.Machine
end

