-- ==== Sys2Proof/Laws/Follow.lean ====
section
/-! SUPPORT. How the sequencer, one clock cycle at a time, follows the shared operations: a run that the operations give
is reached by clock cycles. Each lemma takes what follows the operation as `f`. -/

namespace Sys2Proof.Machine

/-- Some number of clock cycles from `s` give the answer of the run `r`, and each leaves one record. -/
def Leads (s : State) (r : Run) : Prop :=
  ∃ n, clocks n s = r.outcome ∧ ∀ t, r.outcome = .next t → t.trace.length = s.trace.length + n

theorem Leads.done (s : State) : Leads s (.on s) := ⟨0, rfl, by simp⟩

theorem Leads.stopped (s : State) : Leads s (.over s) := ⟨0, rfl, by simp⟩

/-- One more clock cycle in front. -/
theorem Leads.tick {s t : State} {r : Run} (h : clock s = .next t) (hl : t.trace.length = s.trace.length + 1)
    (k : Leads t r) : Leads s r := by
  obtain ⟨n, h1, h2⟩ := k
  refine ⟨n + 1, by simp [clocks, h, h1], fun u hu => ?_⟩
  rw [h2 u hu, hl]; omega

theorem Leads.refused {s : State} {r : Refusal} (h : clock s = .refused r) : Leads s (.refused r) :=
  ⟨1, by simp [clocks, h], by simp⟩

/-- The sequencer's move depends on nothing of the state before an advancing cycle but PHASE and DLY, outside IDLE. -/
theorem sequence_congr (s u t : State) (hp : u.phase = s.phase) (hd : u.dly = s.dly) (hi : s.phase ≠ .idle) :
    sequence u t = sequence s t := by
  unfold sequence
  rw [hp, hd]
  cases h : s.phase with
  | idle => exact absurd h hi
  | _ => rfl

theorem sequence_busy (s t : State) (hi : s.phase ≠ .idle) (hf : s.phase ≠ .fetch) :
    sequence s t = if s.dly ≤ 1 then State.leavePhase { t with dly := 0 } else t.countDly := by
  unfold sequence
  cases h : s.phase with
  | idle => exact absurd h hi
  | fetch => exact absurd h hf
  | _ => rfl

theorem pulseSet_congr (s u : State) (hp : u.phase = s.phase) (hd : u.dly = s.dly) (hm : u.pinmask = s.pinmask) :
    pulseSet u = pulseSet s := by
  unfold pulseSet; rw [hp, hd, hm]

theorem pulseClr_congr (s u : State) (hp : u.phase = s.phase) (hd : u.dly = s.dly) (hm : u.pinmask = s.pinmask) :
    pulseClr u = pulseClr s := by
  unfold pulseClr; rw [hp, hd, hm]

/-! The end of a phase records nothing. -/

theorem endWords_trace (s : State) : s.endWords.trace = s.trace := by
  unfold State.endWords; split <;> rfl

theorem firstWord_trace (s : State) : s.firstWord.trace = s.trace := by
  unfold State.firstWord
  split
  · rfl
  · split
    · exact endWords_trace s
    · rfl
  · split
    · exact endWords_trace s
    · rfl
  · rfl
  · rfl

theorem endWord_trace (s : State) : s.endWord.trace = s.trace := by
  unfold State.endWord
  split
  · exact endWords_trace s
  · split
    · exact endWords_trace _
    · rfl
  · split
    · exact endWords_trace _
    · split <;> rfl
  · rfl
  · rfl

theorem nextBit_trace (s : State) : s.nextBit.trace = s.trace := by
  unfold State.nextBit
  split
  · exact endWord_trace s
  · rfl

theorem enterOr_trace (ph : Phase) (n : Nat) (k : State → State) (s : State) (hk : (k s).trace = s.trace) :
    (s.enterOr ph n k).trace = s.trace := by
  unfold State.enterOr
  split
  · exact hk
  · rfl

theorem endBit_trace (s : State) : s.endBit.trace = s.trace :=
  enterOr_trace .bitGap _ _ _ (nextBit_trace _)

theorem endReset_trace (s : State) : s.endReset.trace = s.trace := by
  unfold State.endReset
  split
  · split
    · rfl
    · exact firstWord_trace s
  all_goals rfl

theorem leavePhase_trace (s : State) : s.leavePhase.trace = s.trace := by
  unfold State.leavePhase
  split
  · rfl
  · rfl
  · rfl
  · exact enterOr_trace _ _ _ _ (endReset_trace s)
  · exact endReset_trace s
  · exact firstWord_trace _
  · rfl
  · exact enterOr_trace _ _ _ _ rfl
  · rfl
  · exact enterOr_trace _ _ _ _ (endBit_trace s)
  · exact endBit_trace s
  · exact nextBit_trace s

theorem startCommand_trace (i : Instr) (s : State) : (s.startCommand i).trace = s.trace := by
  cases i with
  | send w => simp only [State.startCommand]; split <;> rfl
  | _ => rfl

theorem sequence_trace (s t : State) : (sequence s t).trace = t.trace := by
  by_cases hi : s.phase = .idle
  · unfold sequence
    rw [hi]
    cases acceptedHeader s with
    | none => rfl
    | some cw => exact startCommand_trace _ t
  by_cases hf : s.phase = .fetch
  · unfold sequence
    rw [hf]
  · rw [sequence_busy s t hi hf]
    split
    · exact leavePhase_trace _
    · rfl

/-- One advancing cycle outside IDLE, with the pulses of the phase. -/
theorem Leads.advance {s : State} {a b : PortWord} {f : State → Run} (hi : s.phase ≠ .idle) (ha : pulseSet s = a)
    (hb : pulseClr s = b)
    (hf : ∀ u, u.phase = s.phase → u.dly = s.dly → KeptWord s u → KeptFeed s u →
      Leads (sequence s (u.advanceCycle a b)) (f (u.advanceCycle a b))) :
    Leads s ((advance a b s).andThen f) := by
  suffices h : ∀ n u, u.phase = s.phase → u.dly = s.dly → KeptWord s u → KeptFeed s u →
      Leads u ((advanceWithin a b n u).andThen f) from h _ _ rfl rfl (KeptWord.refl s) (KeptFeed.refl s)
  intro n
  induction n with
  | zero => exact fun u _ _ _ _ => Leads.stopped u
  | succ n ih =>
    intro u hp hd hk hkf
    have e1 : pulseSet u = a := (pulseSet_congr s u hp hd hk.pinmask).trans ha
    have e2 : pulseClr u = b := (pulseClr_congr s u hp hd hk.pinmask).trans hb
    unfold advanceWithin
    rcases tick_cases u a b with ⟨h1, h⟩ | ⟨h1, h2, h⟩ | ⟨h1, h2, h3, h⟩ | ⟨h1, h2, h3, h⟩ <;> rw [h]
    · exact Leads.refused (by simp [clock, e1, e2, h])
    · exact Leads.tick (t := u.resetCycle) (by simp [clock, e1, e2, h]) (by simp) (Leads.stopped _)
    · refine Leads.tick (t := sequence s (u.advanceCycle a b)) ?_ ?_ (hf u hp hd hk hkf)
      · simp [clock, e1, e2, h, sequence_congr s u _ hp hd hi]
      · rw [sequence_trace]; simp
    · exact Leads.tick (t := u.stallCycle) (by simp [clock, e1, e2, h]) (by simp)
        (ih _ hp hd (hk.trans (KeptWord.ofStall u)) (hkf.trans (KeptFeed.ofStall u)))

/-- Cycles of a phase before its last. -/
theorem Leads.waitCycles {s : State} {f : State → Run} (n m : Nat) (hi : s.phase ≠ .idle) (hfe : s.phase ≠ .fetch)
    (hd : s.dly = n + m) (hm : 1 ≤ m)
    (hf : ∀ u, u.phase = s.phase → u.dly = m → KeptWord s u → (s.phase.isBit = false → KeptFeed s u) → Leads u (f u)) :
    Leads s ((waitCycles n s).andThen f) := by
  induction n generalizing s with
  | zero => exact hf s rfl (by omega) (KeptWord.refl s) fun _ => KeptFeed.refl s
  | succ n ih =>
    unfold Sys2Proof.Machine.waitCycles
    rw [andThen_assoc]
    have hd1 : ¬ s.dly ≤ 1 := by omega
    refine Leads.advance hi (by unfold pulseSet; split <;> simp [hd1]) (by unfold pulseClr; split <;> simp [hd1]) ?_
    intro u hp hdu hk hkf
    have hpos := advanceCycle_position u 0#256 0#256 (by rwa [hp])
    have hseq : sequence s (u.advanceCycle 0#256 0#256) = (u.advanceCycle 0#256 0#256).countDly := by
      rw [sequence_busy _ _ hi hfe, if_neg hd1]
    rw [hseq]
    have hk' := hk.trans (KeptWord.ofAdvance u 0#256 0#256 (by rwa [hp]))
    have hk2 := hk'.trans (KeptWord.ofDly (u.advanceCycle 0#256 0#256) ((u.advanceCycle 0#256 0#256).dly - 1))
    refine ih ?_ ?_ ?_ ?_
    · simpa [hpos.1, hp] using hi
    · simpa [hpos.1, hp] using hfe
    · simp [hpos.2.1, hdu, hd]
    · intro x hx hxd hxk hxf
      refine hf x (hx.trans (hpos.1.trans hp)) hxd (hk2.trans hxk) fun hb => ?_
      have hr : ready u = false := ready_of_quiet u (by rwa [hp]) (by rwa [hp]) (by rwa [hp])
      exact (hkf.trans (KeptFeed.ofAdvance u _ _ (.inl hr))).trans
        ((KeptFeed.ofDly (u.advanceCycle 0#256 0#256) _).trans (hxf (by simpa [hpos.1, hp] using hb)))

/-- A micro-operation with its pulses in the last cycle, followed by the end of its phase. -/
theorem Leads.operate {s : State} {a b : PortWord} {write : State → State} {f : State → Run} (ph : Phase) (n : Nat)
    (hi : ph ≠ .idle) (hfe : ph ≠ .fetch)
    (ha : ∀ u : State, u.phase = ph → u.dly ≤ 1 → u.pinmask = s.pinmask → pulseSet u = a)
    (hb : ∀ u : State, u.phase = ph → u.dly ≤ 1 → u.pinmask = s.pinmask → pulseClr u = b)
    (hf : ∀ u, u.phase = ph → u.dly = 0 → KeptWord s u → (ph.isBit = false → KeptFeed s u) →
      Leads u.leavePhase (f (write u))) :
    Leads (s.enter ph n) ((operate ph n a b write s).andThen f) := by
  unfold Sys2Proof.Machine.operate
  rw [andThen_assoc]
  have last : ∀ u : State, u.phase = ph → u.dly ≤ 1 → KeptWord s u → (ph.isBit = false → KeptFeed s u) →
      Leads u (((Sys2Proof.Machine.advance a b u).andThen fun x => .on (write { x with dly := 0 })).andThen f) := by
    intro u hp hd hk hkf
    rw [andThen_assoc]
    refine Leads.advance (by rwa [hp]) (ha u hp hd hk.pinmask) (hb u hp hd hk.pinmask) ?_
    intro x hx hxd hxk hxf
    have hpos := advanceCycle_position x a b (by rwa [hx, hp])
    have hseq : sequence u (x.advanceCycle a b) = State.leavePhase { x.advanceCycle a b with dly := 0 } := by
      rw [sequence_busy _ _ (by rwa [hp]) (by rwa [hp]), if_pos hd]
    rw [hseq]
    refine hf _ (hpos.1.trans (hx.trans hp)) rfl
      ((hk.trans hxk).trans ((KeptWord.ofAdvance x a b (by rwa [hx, hp])).trans (KeptWord.ofDly _ 0))) fun hb => ?_
    have hr : ready x = false :=
      ready_of_quiet x (by rwa [hx, hp]) (by rwa [hx, hp]) (by rwa [hx, hp])
    exact ((hkf hb).trans hxf).trans ((KeptFeed.ofAdvance x _ _ (.inl hr)).trans ⟨rfl, rfl, rfl⟩)
  rcases Nat.eq_zero_or_pos n with rfl | hn
  · exact last _ rfl (by simp) (KeptWord.ofEnter s ph 0) fun _ => ⟨rfl, rfl, rfl⟩
  · refine Leads.waitCycles (n - 1) 1 hi hfe (by simp; omega) le_rfl ?_
    intro u hp hd hk hkf
    exact last u hp (by omega) ((KeptWord.ofEnter s ph n).trans hk) fun hb => (KeptFeed.ofEnter s ph n).trans (hkf hb)

/-- Waiting can be counted from its end. -/
theorem waitCycles_succ (n : Nat) (s : State) :
    waitCycles (n + 1) s = (waitCycles n s).andThen fun t => (advance 0#256 0#256 t).andThen fun u => .on u.countDly := by
  induction n generalizing s with
  | zero => rfl
  | succ n ih =>
    rw [waitCycles]
    conv => rhs; unfold waitCycles
    rw [andThen_assoc]
    congr 1; funext t; exact ih _

/-- A hold, followed by the end of its phase; none at all when it takes no cycle. -/
theorem Leads.waitPhase {s : State} {K : State → State} {f : State → Run} (ph : Phase) (n : Nat)
    (hi : ph ≠ .idle) (hfe : ph ≠ .fetch)
    (ha : ∀ u : State, u.phase = ph → pulseSet u = 0#256) (hb : ∀ u : State, u.phase = ph → pulseClr u = 0#256)
    (h0 : n = 0 → Leads (K s) (f s))
    (hf : ∀ u, u.phase = ph → u.dly = 0 → KeptWord s u → Leads u.leavePhase (f u)) :
    Leads (s.enterOr ph n K) ((waitPhase ph n s).andThen f) := by
  unfold State.enterOr Sys2Proof.Machine.waitPhase
  split
  · next h => exact h0 h
  · next h =>
    obtain ⟨m, rfl⟩ := Nat.exists_eq_succ_of_ne_zero h
    rw [Nat.succ_eq_add_one, waitCycles_succ, andThen_assoc]
    refine Leads.waitCycles m 1 hi hfe (by simp) le_rfl ?_
    intro u hp hd hk _
    simp only [enter_phase] at hp
    rw [andThen_assoc]
    refine Leads.advance (by rwa [hp]) (ha u hp) (hb u hp) ?_
    intro x hx hxd hxk _
    have hpos := advanceCycle_position x 0#256 0#256 (by rwa [hx, hp])
    have hcd : State.countDly (x.advanceCycle 0#256 0#256) = { x.advanceCycle 0#256 0#256 with dly := 0 } := by
      simp [State.countDly, hpos.2.1, hxd, hd]
    have hseq : sequence u (x.advanceCycle 0#256 0#256) =
        State.leavePhase { x.advanceCycle 0#256 0#256 with dly := 0 } := by
      rw [sequence_busy _ _ (by rwa [hp]) (by rwa [hp]), if_pos (by omega)]
    rw [hseq, andThen_on, hcd]
    exact hf _ (hpos.1.trans (hx.trans hp)) rfl
      ((((KeptWord.ofEnter s ph _).trans hk).trans hxk).trans
        ((KeptWord.ofAdvance x _ _ (by rwa [hx, hp])).trans (KeptWord.ofDly _ 0)))

end Sys2Proof.Machine
end

