-- ==== Sys2Proof/Laws/Operands.lean ====
section
/-! SUPPORT. The header fields by arithmetic, and what the operand latch gives back. -/

namespace Sys2Proof

theorem append_toNat {a b : Nat} (x : BitVec a) (y : BitVec b) : (x ++ y).toNat = x.toNat * 2 ^ b + y.toNat := by
  rw [BitVec.toNat_append, ← Nat.shiftLeft_add_eq_or_of_lt y.isLt, Nat.shiftLeft_eq]

theorem opField_eq (cw : CommandWord) : opField cw = BitVec.ofNat 4 (cw.toNat / 2 ^ 28) := by
  apply BitVec.eq_of_toNat_eq; simp [opField, Nat.shiftRight_eq_div_pow]

theorem pinField_eq (cw : CommandWord) : pinField cw = BitVec.ofNat 8 cw.toNat := by
  apply BitVec.eq_of_toNat_eq; simp [pinField]

theorem segField_eq (cw : CommandWord) : segField cw = BitVec.ofNat 16 (cw.toNat / 2 ^ 8) := by
  apply BitVec.eq_of_toNat_eq; simp [segField, Nat.shiftRight_eq_div_pow]

theorem colorField_eq (cw : CommandWord) : colorField cw = BitVec.ofNat 24 cw.toNat := by
  apply BitVec.eq_of_toNat_eq; simp [colorField]

theorem countField_eq (cw : CommandWord) : countField cw = BitVec.ofNat 24 cw.toNat := by
  apply BitVec.eq_of_toNat_eq; simp [countField]

@[simp] theorem latchedPin_pack (p : PinIndex) (g : SegCount) : latchedPin (packConstruct p g) = p := by
  have := p.isLt
  apply BitVec.eq_of_toNat_eq
  simp only [latchedPin, packConstruct, BitVec.extractLsb'_toNat]
  rw [append_toNat]
  omega

@[simp] theorem latchedSeg_pack (p : PinIndex) (g : SegCount) : latchedSeg (packConstruct p g) = g := by
  have := p.isLt
  have := g.isLt
  apply BitVec.eq_of_toNat_eq
  simp only [latchedSeg, packConstruct, BitVec.extractLsb'_toNat, Nat.shiftRight_eq_div_pow]
  rw [append_toNat]
  omega

theorem decodeHeader_isHeader (cw : CommandWord) : (decodeHeader cw).isHeader = true := by
  unfold decodeHeader; split <;> rfl

end Sys2Proof
end

