-- ==== Sys2Proof/Laws/Commands.lean ====
section
/-! SUPPORT. The sequencer follows every shared operation and every command of Machine/Controller.lean. -/

namespace Sys2Proof.Machine

/-- A HOLD. -/
theorem leads_hold {s : State} {K : State → State} {f : State → Run} (ph : Phase) (n : Nat)
    (hph : ph = .rstHold ∨ ph = .bitHigh ∨ ph = .bitLow ∨ ph = .bitGap) (h0 : n = 0 → Leads (K s) (f s))
    (hf : ∀ u, u.phase = ph → u.dly = 0 → KeptWord s u → Leads u.leavePhase (f u)) :
    Leads (s.enterOr ph n K) ((hold ph n s).andThen f) := by
  refine Leads.waitPhase ph n ?_ ?_ ?_ ?_ h0 hf
  all_goals rcases hph with rfl | rfl | rfl | rfl <;> first | decide | (intro u h; simp [pulseSet, pulseClr, h])

/-- DRIVEHIGH. -/
theorem leads_driveHigh {s : State} {f : State → Run}
    (hf : ∀ u, u.phase = .bitRise → u.dly = 0 → KeptWord s u → Leads u.leavePhase (f u)) :
    Leads (s.enter .bitRise s.cfg.cDrive) ((driveHigh s).andThen f) := by
  refine Leads.operate .bitRise s.cfg.cDrive (by decide) (by decide) ?_ ?_ (fun u h1 h2 h3 _ => hf u h1 h2 h3)
  · intro u h hd hm; simp [pulseSet, h, hd, hm]
  · intro u h hd hm; simp [pulseClr, h]

/-- DRIVELOW. -/
theorem leads_driveLow {s : State} {f : State → Run} (ph : Phase) (hph : ph = .bitFall ∨ ph = .rstDrive)
    (hf : ∀ u, u.phase = ph → u.dly = 0 → KeptWord s u → Leads u.leavePhase (f u)) :
    Leads (s.enter ph s.cfg.cDrive) ((driveLow ph s).andThen f) := by
  refine Leads.operate ph s.cfg.cDrive ?_ ?_ ?_ ?_ (fun u h1 h2 h3 _ => hf u h1 h2 h3)
  all_goals rcases hph with rfl | rfl <;> first | decide | (intro u h hd hm; simp [pulseSet, pulseClr, h, hd, hm])

/-- ENCODEBIT of the value the serializer sees. -/
theorem leads_encodeBit {s : State} {f : State → Run} (v : Bool) (hv : s.bitValue = v)
    (hf : ∀ u, KeptWord s u → Leads u.endBit (f u)) :
    Leads (s.enter .bitRise s.cfg.cDrive) ((if v then encodeBit1 s else encodeBit0 s).andThen f) := by
  have bv : ∀ u, KeptWord s u → u.bitValue = v := by intro u hu; rw [State.bitValue, hu.word, hu.bitmask]; exact hv
  rw [encodeBit_eq, andThen_assoc]
  refine leads_driveHigh ?_
  intro u hp hd hk
  rw [andThen_assoc]
  have e : u.leavePhase = u.enterOr .bitHigh (u.cfg.high v) fun t => t.enter .bitFall t.cfg.cDrive := by
    unfold State.leavePhase; rw [hp, ← bv u hk]
  rw [e]
  have low : ∀ x, KeptWord s x → Leads (x.enter .bitFall x.cfg.cDrive)
      (((driveLow .bitFall x).andThen fun y => hold .bitLow (y.cfg.low v) y).andThen f) := by
    intro x hx
    rw [andThen_assoc]
    refine leads_driveLow _ (.inl rfl) ?_
    intro y hyp hyd hyk
    have hy := hx.trans hyk
    have e2 : y.leavePhase = y.enterOr .bitLow (y.cfg.low v) State.endBit := by
      unfold State.leavePhase; rw [hyp, ← bv y hy]
    rw [e2]
    refine leads_hold _ _ (by simp) (fun _ => hf y hy) ?_
    intro z hzp hzd hzk
    have e3 : z.leavePhase = z.endBit := by unfold State.leavePhase; rw [hzp]
    rw [e3]; exact hf z (hy.trans hzk)
  refine leads_hold _ _ (by simp) (fun _ => low u hk) ?_
  intro x hxp hxd hxk
  have e3 : x.leavePhase = x.enter .bitFall x.cfg.cDrive := by unfold State.leavePhase; rw [hxp]
  rw [e3]
  exact low x (hk.trans hxk)

theorem shift_ne_zero (k : Nat) (h : k < 24) : (1#24 <<< k) ≠ 0#24 := by interval_cases k <;> decide

/-- The loop of TRANSMIT. -/
theorem leads_transmitBits {f : State → Run} (n k : Nat) (hk : k + (n + 1) = 24) {s : State} (hb : s.bitmask = 1#24 <<< k)
    (hf : ∀ u, Kept s u → u.word = s.word → Leads u.endWord (f u)) :
    Leads (s.enter .bitRise s.cfg.cDrive) ((transmitBits (n + 1) s).andThen f) := by
  induction n generalizing k s with
  | zero =>
    unfold transmitBits
    rw [andThen_assoc]
    refine leads_encodeBit _ rfl ?_
    intro u hu
    rw [andThen_assoc]
    unfold State.endBit
    have hz : u.shiftMask.bitmask = 0#24 := by
      rw [shiftMask_bitmask, hu.bitmask, hb, ← BitVec.shiftLeft_add]
      have : k = 23 := by omega
      subst this; decide
    refine leads_hold _ _ (by simp) ?_ ?_
    · intro _
      show Leads (State.nextBit u.shiftMask) _
      unfold State.nextBit; rw [if_pos hz]
      exact hf _ (hu.toKept.trans (Kept.ofShift u)) hu.word
    · intro x hxp hxd hxk
      have e3 : x.leavePhase = x.nextBit := by unfold State.leavePhase; rw [hxp]
      rw [e3]; unfold State.nextBit; rw [if_pos (by rw [hxk.bitmask]; exact hz)]
      exact hf _ (hu.toKept.trans ((Kept.ofShift u).trans hxk.toKept)) (hxk.word.trans hu.word)
  | succ n ih =>
    unfold transmitBits
    rw [andThen_assoc]
    refine leads_encodeBit _ rfl ?_
    intro u hu
    rw [andThen_assoc]
    unfold State.endBit
    have hz : u.shiftMask.bitmask = 1#24 <<< (k + 1) := by rw [shiftMask_bitmask, hu.bitmask, hb, ← BitVec.shiftLeft_add]
    have key : ∀ x, Kept s x → x.word = s.word → x.bitmask = 1#24 <<< (k + 1) →
        Leads x.nextBit ((transmitBits (n + 1) x).andThen f) := by
      intro x hx hw hxb
      unfold State.nextBit
      rw [if_neg (by rw [hxb]; exact shift_ne_zero _ (by omega))]
      exact ih (k + 1) (by omega) hxb (fun y hy hyw => hf y (hx.trans hy) (hyw.trans hw))
    refine leads_hold _ _ (by simp) ?_ ?_
    · intro _
      exact key _ (hu.toKept.trans (Kept.ofShift u)) hu.word hz
    · intro x hxp hxd hxk
      have e3 : x.leavePhase = x.nextBit := by unfold State.leavePhase; rw [hxp]
      rw [e3]
      exact key _ (hu.toKept.trans ((Kept.ofShift u).trans hxk.toKept)) (hxk.word.trans hu.word) (hxk.bitmask.trans hz)

/-- TRANSMIT. -/
theorem leads_transmit {f : State → Run} (w : ColorWord) {s : State} (hf : ∀ u, Kept s u → Leads u.endWord (f u)) :
    Leads (s.startWord w) ((transmit w s).andThen f) := by
  unfold transmit State.startWord
  exact leads_transmitBits 23 0 rfl (s := s.loadWord w) (by simp) (fun u hu _ => hf u ((Kept.ofLoad s w).trans hu))

/-- RESET. -/
theorem leads_resetSignal {f : State → Run} {s : State} (hf : ∀ u, Kept s u → Leads u.endReset (f u)) :
    Leads (s.enter .rstDrive s.cfg.cDrive) ((resetSignal s).andThen f) := by
  unfold resetSignal
  rw [andThen_assoc]
  refine leads_driveLow _ (.inr rfl) ?_
  intro u hp hd hk
  have e : u.leavePhase = u.enterOr .rstHold u.cfg.tRst State.endReset := by unfold State.leavePhase; rw [hp]
  rw [e]
  refine leads_hold _ _ (by simp) (fun _ => hf u hk.toKept) ?_
  intro x hxp hxd hxk
  have e : x.leavePhase = x.endReset := by unfold State.leavePhase; rw [hxp]
  rw [e]; exact hf x (hk.toKept.trans hxk.toKept)

/-- IRQMASK. -/
theorem leads_irqMask {f : State → Run} {s : State} (hf : ∀ u, Kept s u → KeptFeed s u → Leads u.maskIe.firstWord (f u.maskIe)) :
    Leads (s.enter .syncMask s.cfg.cSync) ((irqMask s).andThen f) := by
  refine Leads.operate .syncMask s.cfg.cSync (by decide) (by decide) ?_ ?_ ?_
  · intro u h hd hm; simp [pulseSet, h]
  · intro u h hd hm; simp [pulseClr, h]
  · intro u hp hd hk hkf
    have e : u.leavePhase = u.maskIe.firstWord := by unfold State.leavePhase; rw [hp]
    rw [e]; exact hf u hk.toKept (hkf rfl)

/-- IRQRESTORE and the end of its command. -/
theorem leads_irqRestore {s : State} :
    Leads (s.enter .syncRestore s.cfg.cSync) ((irqRestore s).andThen complete) := by
  refine Leads.operate .syncRestore s.cfg.cSync (by decide) (by decide) ?_ ?_ ?_
  · intro u h hd hm; simp [pulseSet, h]
  · intro u h hd hm; simp [pulseClr, h]
  · intro u hp hd hk hkf
    have e : u.leavePhase = u.restoreIe.finish := by unfold State.leavePhase; rw [hp]
    rw [e]; exact Leads.done _

/-- CONSTRUCT. -/
theorem leads_construct (p : PinIndex) (g : SegCount) (s : State) : Leads (s.startCommand (.construct p g)) (construct p g s) := by
  unfold construct
  refine Leads.operate .cfg s.cfg.cCfg (by decide) (by decide) ?_ ?_ ?_
  · intro u h hd hm; simp [pulseSet, h]
  · intro u h hd hm; simp [pulseClr, h]
  intro u hp hd hk hkf
  have hl : u.latch = packConstruct p g := by rw [hk.latch]; rfl
  have e : u.leavePhase = (u.configure p g).enter .rstDrive (u.configure p g).cfg.cDrive := by
    unfold State.leavePhase; rw [hp, hl, latchedPin_pack, latchedSeg_pack]; rfl
  rw [e]
  refine leads_resetSignal ?_
  intro x hx
  have : x.cmd = .construct := by rw [hx.cmd, configure_cmd, hk.cmd]; rfl
  unfold State.endReset; rw [this]
  exact Leads.done _

theorem cmd_isPattern_iff (c : Cmd) : c.isPattern = true ↔ c = .sendPattern := by cases c <;> simp [Cmd.isPattern]

/-- The words of CLEAR. -/
theorem leads_clearWords {f : State → Run} (n : Nat) {s : State} (hc : s.cmd = .clear) (hw : s.wcnt.toNat = n)
    (hf : ∀ u, u.cmd = .clear → u.cfg = s.cfg → u.wcnt = 0#24 → Leads u.endWords (f u)) :
    Leads (if s.wcnt = 0#24 then s.endWords else s.startWord 0#24) ((clearWords n s).andThen f) := by
  induction n generalizing s with
  | zero =>
    have : s.wcnt = 0#24 := BitVec.eq_of_toNat_eq (by simpa using hw)
    rw [if_pos this]
    exact hf s hc rfl this
  | succ n ih =>
    have : s.wcnt ≠ 0#24 := by intro h; rw [h] at hw; simp at hw
    rw [if_neg this]
    unfold clearWords
    rw [andThen_assoc]
    refine leads_transmit _ ?_
    intro u hu
    have huc : u.cmd = .clear := hu.cmd.trans hc
    unfold State.endWord; rw [huc]
    have hwn : u.countWord.wcnt.toNat = n := by
      simp only [countWord_wcnt, hu.wcnt, BitVec.toNat_sub]
      have := s.wcnt.isLt
      simp; omega
    exact ih (s := u.countWord) huc hwn (fun x h1 h2 h3 => hf x h1 (h2.trans hu.cfg) h3)

/-- The end of a masked section. -/
theorem leads_endSection {s : State} (h : (s.cmd.isPattern || uniform s) = true) :
    Leads s.endWords ((irqRestore s).andThen complete) := by
  unfold State.endWords; rw [if_pos h]; exact leads_irqRestore

theorem uniform_congr {s u : State} (h : u.cfg = s.cfg) : uniform u = uniform s := by unfold uniform; rw [h]

/-- CLEAR. -/
theorem leads_clear (s : State) : Leads (s.startCommand .clear) (clear s) := by
  unfold clear
  refine leads_resetSignal ?_
  intro u hu
  have huc : u.cmd = .clear := hu.cmd
  have huw : u.wcnt = s.segcount.setWidth 24 := hu.wcnt
  have hn : u.wcnt.toNat = s.segcount.toNat := by rw [huw]; have := s.segcount.isLt; simp; omega
  unfold State.endReset; rw [huc]
  cases hun : uniform u with
  | true =>
    simp only [maskedIf, if_true]
    rw [andThen_assoc]
    refine leads_irqMask ?_
    intro x hx _
    have hxc : x.maskIe.cmd = .clear := by simpa using hx.cmd.trans huc
    unfold State.firstWord; rw [hxc]
    rw [andThen_assoc]
    refine leads_clearWords _ hxc (by simpa [hx.wcnt] using hn) ?_
    intro y h1 h2 h3
    refine leads_endSection ?_
    have : uniform y = true := by rw [uniform_congr (h2.trans (show x.maskIe.cfg = u.cfg from hx.cfg))]; exact hun
    simp [this]
  | false =>
    simp only [maskedIf]
    unfold State.firstWord; rw [huc]
    refine leads_clearWords _ huc hn ?_
    intro y h1 h2 h3
    unfold State.endWords
    rw [if_neg]
    · exact Leads.done _
    · rw [uniform_congr h2, hun, h1]; decide

/-- SEND. -/
theorem leads_send (w : ColorWord) (s : State) : Leads (s.startCommand (.send w)) (send w s) := by
  unfold send State.startCommand
  dsimp only
  cases hun : uniform s with
  | true =>
    simp only [maskedIf, if_true]
    rw [andThen_assoc]
    refine leads_irqMask (s := s.begin .send w) ?_
    intro x hx _
    have hxc : x.maskIe.cmd = .send := by simpa using hx.cmd
    have hxl : x.maskIe.latch = w := by simpa using hx.latch
    unfold State.firstWord; rw [hxc, hxl]
    rw [andThen_assoc]
    refine leads_transmit _ ?_
    intro y hy
    have hyc := hy.cmd.trans hxc
    unfold State.endWord; rw [hyc]
    refine leads_endSection ?_
    have : uniform y = true := by rw [uniform_congr (hy.cfg.trans (show x.maskIe.cfg = s.cfg from hx.cfg))]; exact hun
    simp [this]
  | false =>
    simp only [maskedIf]
    refine leads_transmit _ ?_
    intro y hy
    have hyc : y.cmd = .send := hy.cmd
    unfold State.endWord; rw [hyc]
    unfold State.endWords
    rw [if_neg]
    · exact Leads.done _
    · rw [uniform_congr (show y.cfg = s.cfg from hy.cfg), hun, hyc]; decide

/-- The wait in FETCH. -/
theorem leads_fetch {f : State → Run} (fuel : Nat) {s : State} (hp : s.phase = .fetch) (hd : s.dly = 0)
    (hf : ∀ u, Kept s u → u.phase = .bitRise → u.dly = u.cfg.cDrive → u.bitmask = 1#24 → Leads u (f u)) :
    Leads s ((fetchWithin fuel s).andThen f) := by
  induction fuel generalizing s with
  | zero => exact Leads.stopped s
  | succ n ih =>
    unfold fetchWithin
    rw [andThen_assoc]
    refine Leads.advance (by simp [hp]) (by simp [pulseSet, hp]) (by simp [pulseClr, hp]) ?_
    intro u hup hud huk _
    have hs : sequence s (u.advanceCycle 0#256 0#256) = u.advanceCycle 0#256 0#256 := by unfold sequence; rw [hp]
    rw [hs]
    have hk := huk.toKept.trans (Kept.ofAdvance u 0#256 0#256)
    have hph : u.phase = .fetch := hup.trans hp
    have key : ((u.advanceCycle 0#256 0#256).phase = .fetch ∧ (u.advanceCycle 0#256 0#256).dly = 0) ∨ 
      ((u.advanceCycle 0#256 0#256).phase = .bitRise ∧
        (u.advanceCycle 0#256 0#256).dly = (u.advanceCycle 0#256 0#256).cfg.cDrive ∧ (u.advanceCycle 0#256 0#256).bitmask = 1#24) := by
      unfold State.advanceCycle State.servePort
      split
      · split
        · right
          simp [State.accept, hph]
        · left; simp [hph, hud, hd]
      · left; simp [hph, hud, hd]
    rcases key with ⟨h1, h2⟩ | ⟨h1, h2, h3⟩
    · simp only [h1]
      exact ih h1 h2 (fun x hx => hf x (hk.trans hx))
    · simp only [h1]
      exact hf _ hk h1 h2 h3

theorem startWord_self {u : State} (h1 : u.phase = .bitRise) (h2 : u.dly = u.cfg.cDrive) (h3 : u.bitmask = 1#24) :
    u.startWord u.word = u := by
  cases u; simp_all [State.startWord, State.loadWord, State.enter]

/-- The words of SENDPATTERN. -/
theorem leads_patternWords {f : State → Run} (n : Nat) {s : State} (hc : s.cmd = .sendPattern) (hw : s.wcnt.toNat = n) 
    (hf : ∀ u, u.cmd = .sendPattern → Leads u.endWords (f u)) :
    Leads (if s.wcnt = 0#24 then s.endWords
      else if s.nextValid then s.takeNext.enter .bitRise s.cfg.cDrive else s.enter .fetch 0) ((patternWords n s).andThen f) := by
  induction n generalizing s with
  | zero =>
    have : s.wcnt = 0#24 := BitVec.eq_of_toNat_eq (by simpa using hw)
    rw [if_pos this]
    exact hf s hc
  | succ n ih =>
    have : s.wcnt ≠ 0#24 := by intro h; rw [h] at hw; simp at hw
    rw [if_neg this]
    unfold patternWords
    rw [andThen_assoc]
    have rest : ∀ t, t.cmd = .sendPattern → t.wcnt = s.wcnt → Leads (t.startWord t.word)
        (((transmit t.word t).andThen fun u => patternWords n u.countWord).andThen f) := by
      intro t htc htw
      rw [andThen_assoc]
      refine leads_transmit _ ?_
      intro u hu
      have huc : u.cmd = .sendPattern := hu.cmd.trans htc
      have hwn : u.countWord.wcnt.toNat = n := by
        simp only [countWord_wcnt, hu.wcnt, htw, BitVec.toNat_sub]
        have := s.wcnt.isLt
        simp; omega
      unfold State.endWord; rw [huc]
      exact ih (s := u.countWord) huc hwn
    unfold nextPayload
    split
    · exact rest s.takeNext hc rfl
    · refine leads_fetch _ rfl rfl ?_
      intro u hu h1 h2 h3
      have := rest u (hu.cmd.trans hc) hu.wcnt
      rwa [startWord_self h1 h2 h3] at this

/-- SENDPATTERN. -/
theorem leads_sendPattern (n : WordCount) (s : State) : Leads (s.startCommand (.sendPattern n)) (sendPattern n s) := by
  unfold sendPattern maskedIf
  simp only [if_true]
  rw [andThen_assoc]
  refine leads_irqMask ?_
  intro x hx hxf
  have hxc : x.maskIe.cmd = .sendPattern := by simpa using hx.cmd
  have hxw : x.maskIe.wcnt = n := by simpa using hx.wcnt
  rw [andThen_assoc]
  by_cases hz : n = 0#24
  · subst hz
    unfold State.firstWord; rw [hxc, hxw, if_pos rfl]
    refine leads_endSection ?_
    rw [hxc]; rfl
  · have hnv : x.maskIe.nextValid = false := by simpa using hxf.nextValid
    have h := leads_patternWords (f := fun u => (irqRestore u).andThen complete) n.toNat (s := x.maskIe) hxc
      (by rw [hxw]) (fun u hu => leads_endSection (by rw [hu]; rfl))
    rw [if_neg (by rw [hxw]; exact hz), hnv] at h
    unfold State.firstWord; rw [hxc, hxw]; dsimp only; rw [if_neg hz]
    exact h

/-- Every command, from the end of its cycle of acceptance. -/
theorem exec_leads (i : Instr) (hi : i.isHeader = true) (s : State) :
    ∃ r : Run, exec i s = r.outcome ∧ Leads (s.startCommand i) r := by
  cases i with
  | construct p g => exact ⟨_, rfl, leads_construct p g s⟩
  | clear => exact ⟨_, rfl, leads_clear s⟩
  | send w => exact ⟨_, rfl, leads_send w s⟩
  | sendPattern n => exact ⟨_, rfl, leads_sendPattern n s⟩
  | reserved op => exact ⟨.on s, rfl, Leads.done s⟩
  | _ => simp [Instr.isHeader] at hi

theorem acceptedHeader_some {s : State} {cw : CommandWord} (h : acceptedHeader s = some cw) :
    s.phase = .idle ∧ secondWriter s = false ∧ (nowPins s).rst = false ∧ advances s = true ∧ presented s = some cw := by
  unfold acceptedHeader at h
  split at h
  · next h1 =>
    simp at h1
    refine ⟨?_, h1.1.1.2, h1.1.2, h1.2, h⟩
    have := h1.1.1.1
    cases hp : s.phase <;> simp_all [Phase.isIdle]
  · simp at h

theorem clock_accept {s : State} {cw : CommandWord} (h : acceptedHeader s = some cw) :
    clock s = .next (s.acceptCycle.startCommand (decodeHeader cw)) := by
  obtain ⟨h1, h2, h3, h4, h5⟩ := acceptedHeader_some h
  unfold clock
  have e1 : pulseSet s = 0#256 := by simp [pulseSet, h1]
  have e2 : pulseClr s = 0#256 := by simp [pulseClr, h1]
  rw [e1, e2]
  simp [tick, h2, h3, h4, sequence, h1, h, State.acceptCycle]

end Sys2Proof.Machine
end

