-- ==== Sys2Proof/Laws/Invariant.lean ====
section
/-! SUPPORT. What holds over every step, from what holds over every clock cycle. -/

namespace Sys2Proof.Machine

/-- Everything a clock cycle of the sequencer can do. -/
theorem clock_cases (s : State) :
    (secondWriter s = true ∧ clock s = .refused .secondWriter) ∨
    (secondWriter s = false ∧ (nowPins s).rst = true ∧ clock s = .next s.resetCycle) ∨
    (secondWriter s = false ∧ (nowPins s).rst = false ∧ advances s = true ∧
      clock s = .next (sequence s (s.advanceCycle (pulseSet s) (pulseClr s)))) ∨
    (secondWriter s = false ∧ (nowPins s).rst = false ∧ advances s = false ∧ clock s = .next s.stallCycle) := by
  unfold clock
  rcases tick_cases s (pulseSet s) (pulseClr s) with ⟨h1, h⟩ | ⟨h1, h2, h⟩ | ⟨h1, h2, h3, h⟩ | ⟨h1, h2, h3, h⟩ <;> rw [h] <;>
    simp [*]

/-- A cycle of a stall without end (70_reset_and_hazards.md R138). -/
theorem step_of_hung {s : State} (h : hung s = true) :
    step s = .next
      { s with
        host := waitHost s.host
        cycle := s.cycle + 1
        trace := outputs false 0#256 0#256 s :: s.trace } := by
  simp only [hung, Bool.and_eq_true, List.isEmpty_iff] at h
  obtain ⟨⟨h1, h2⟩, h3⟩ := h
  have hn : nowPins s = { stall := true } := by simp [nowPins, afterPins, h2, h3]
  have ha : advances s = false := by simp [advances, hn, h1]
  have hw : secondWriter s = false := by simp [secondWriter, hn]
  have hp : nextPort 0#256 0#256 s = s.port := by
    apply BitVec.eq_of_getLsbD_eq
    intro j hj
    simp only [nextPort, hn, BitVec.getLsbD_and, BitVec.getLsbD_or, BitVec.getLsbD_not, BitVec.getLsbD_zero, hj, decide_true,
      Bool.false_and, Bool.or_false, Bool.not_false, Bool.and_true]
  have ht : s.stallCycle =
      { s with
        pins := s.pins.tail
        port := nextPort 0#256 0#256 s
        host := waitHost s.host
        cycle := s.cycle + 1
        trace := outputs false 0#256 0#256 s :: s.trace } := rfl
  have hc : clock s = .next s.stallCycle := by simp [clock, tick, hn, ha, hw]
  have hacc : acceptedHeader s = none := by simp [acceptedHeader, ha]
  rw [step, hacc]
  dsimp only
  rw [hc, ht, hp, h3, List.tail_nil]

/-- Steps of the machine, the first known. -/
theorem core_run_next {s t : State} (h : step s = .next t) (n : Nat) :
    Host.Core.run Sys2Proof.core (n + 1) s = Host.Core.run Sys2Proof.core n t := by
  have hr (M : Host.Core) (x y : M.State) (hx : M.step x = .next y) : M.run (n + 1) x = M.run n y := by
    rw [Host.Core.run, hx]
  exact hr Sys2Proof.core s t h

/-- The answer of a run, by cases. -/
def Answers (I : State → Prop) (X : Refusal → Prop) (o : Host.Outcome State Fault Refusal) : Prop :=
  match o with
  | .next t => I t
  | .fault _ => False
  | .refused r => X r

section
variable {I : State → Prop} {X : Refusal → Prop}

theorem clocks_answers (h : ∀ s, I s → Answers I X (clock s)) (n : Nat) {s : State} (hs : I s) : Answers I X (clocks n s) := by
  induction n generalizing s with
  | zero => exact hs
  | succ n ih =>
    have hc := h s hs
    unfold clocks
    cases hk : clock s with
    | next t => rw [hk] at hc; exact ih hc
    | fault f => cases f
    | refused r => rw [hk] at hc; exact hc

/-- What every clock cycle keeps, every step keeps. -/
theorem step_answers (h : ∀ s, I s → Answers I X (clock s)) {s : State} (hs : I s) : Answers I X (step s) := by
  unfold step
  cases ha : acceptedHeader s with
  | none => exact h s hs
  | some cw =>
    obtain ⟨r, hr, n, hn, -⟩ := exec_leads _ (decodeHeader_isHeader cw) s.acceptCycle
    have hc := h s hs
    rw [clock_accept ha] at hc
    dsimp only
    rw [hr, ← hn]
    exact clocks_answers h n hc

/-- The same for an invariant alone. -/
theorem step_keeps (h : ∀ s t, I s → clock s = .next t → I t) {s t : State} (hs : I s) (ht : step s = .next t) : I t := by
  have := step_answers (I := I) (X := fun _ => True) (fun u hu => by
    cases hk : clock u with
    | next v => exact h u v hu hk
    | fault f => cases f
    | refused r => trivial) hs
  rwa [ht] at this

end

end Sys2Proof.Machine
end

