-- ==== Sys2Proof/Laws/Schedule.lean ====
section
/-! SUPPORT. What the schedule of pins says of one cycle and of the cycles after it, and what PORT holds after a cycle. -/

namespace Sys2Proof.Machine

/-! ### The present cycle -/

theorem nowPins_cons {s : State} {p : PinIn} {ps : List PinIn} (h : s.pins = p :: ps) : nowPins s = p := by
  simp [nowPins, h]

theorem nowPins_nil {s : State} (h : s.pins = []) : nowPins s = afterPins s := by simp [nowPins, h]

/-- A property of every scheduled cycle, and of those past the schedule, holds of the present cycle. -/
theorem all_nowPins {f : PinIn → Bool} {s : State} (hq : f (afterPins s) = true) (h : s.pins.all f = true) :
    f (nowPins s) = true := by
  cases hp : s.pins with
  | nil => rw [nowPins_nil hp]; exact hq
  | cons p ps => rw [nowPins_cons hp]; simp [hp] at h; exact h.1

theorem all_drop {α : Type} {f : α → Bool} {l : List α} (n : Nat) (h : l.all f = true) : (l.drop n).all f = true := by
  rw [List.all_eq_true] at h ⊢
  exact fun x hx => h x (List.mem_of_mem_drop hx)

theorem calm_drop {m : PortWord} {ps : List PinIn} (n : Nat) (h : calm m ps = true) : calm m (ps.drop n) = true := all_drop n h

theorem noReset_drop {ps : List PinIn} (n : Nat) (h : noReset ps = true) : noReset (ps.drop n) = true := all_drop n h

theorem untouched_drop {j : Nat} {ps : List PinIn} (n : Nat) (h : untouched j ps = true) :
    untouched j (ps.drop n) = true := all_drop n h

theorem undriven_drop {ps : List PinIn} (n : Nat) (h : undriven ps = true) : undriven (ps.drop n) = true := all_drop n h

theorem noReset_of_calm {m : PortWord} {ps : List PinIn} (h : calm m ps = true) : noReset ps = true := by
  simp only [calm, noReset, List.all_eq_true, calmPin, Bool.and_eq_true] at h ⊢
  exact fun p hp => (h p hp).1

theorem rst_of_noReset {s : State} (h : noReset s.pins = true) : (nowPins s).rst = false := by
  simpa using all_nowPins (f := fun p => !p.rst) rfl h

theorem secondWriter_of_calm {s : State} (h : calm s.pinmask s.pins = true) : secondWriter s = false := by
  have := all_nowPins (f := calmPin s.pinmask) (by simp [calmPin, afterPins]) h
  simp only [calmPin, Bool.and_eq_true, beq_iff_eq] at this
  simp [secondWriter, this.2]

theorem calm_of_undriven {m : PortWord} {ps : List PinIn} (h : undriven ps = true) (hr : noReset ps = true) :
    calm m ps = true := by
  simp only [calm, calmPin, undriven, noReset, List.all_eq_true, Bool.and_eq_true, beq_iff_eq] at h hr ⊢
  exact fun p hp => ⟨hr p hp, by rw [(h p hp).1, (h p hp).2]; simp⟩

theorem secondWriter_of_undriven {s : State} (h : undriven s.pins = true) : secondWriter s = false := by
  have := all_nowPins (f := fun p => p.envSet == 0#256 && p.envClr == 0#256) rfl h
  simp only [Bool.and_eq_true, beq_iff_eq] at this
  simp [secondWriter, this.1, this.2]

/-! ### The cycles to come -/

theorem comingPins_zero (s : State) : comingPins s 0 = nowPins s := by
  unfold comingPins nowPins
  cases s.pins <;> rfl

theorem goesOn_zero (s : State) : goesOn s 0 = advances s := by rw [goesOn, comingPins_zero, advances]

theorem goesOn_of_masked {s : State} (h : s.ie = false) (k : Nat) : goesOn s k = true := by simp [goesOn, h]

theorem goesOn_of_neverStalls {s : State} (h : neverStalls s = true) (k : Nat) : goesOn s k = true := by
  rw [neverStalls, Bool.or_eq_true, Bool.and_eq_true] at h
  rcases h with h | ⟨h1, h2⟩
  · exact goesOn_of_masked (by simpa using h) k
  · have : (comingPins s k).stall = false := by
      rw [comingPins, List.getD_eq_getElem?_getD]
      cases hk : s.pins[k]? with
      | none => simpa [afterPins] using h1
      | some p =>
        rw [List.all_eq_true] at h2
        simpa using h2 p (List.mem_of_getElem? hk)
    simp [goesOn, this]

/-- What is to come, seen `n` cycles later at the same IE. -/
theorem goesOn_later {s u : State} {n : Nat} (hp : u.pins = s.pins.drop n) (hi : u.ie = s.ie)
    (ha : u.stallAfter = s.stallAfter) (k : Nat) : goesOn u k = goesOn s (n + k) := by
  simp [goesOn, comingPins, afterPins, hp, hi, ha, List.getD_eq_getElem?_getD]

theorem Spans.zero (s : State) : Spans s 0 0 := ⟨rfl, by simp⟩

theorem Spans.trans {s u : State} {n m n' m' : Nat} (h : Spans s n m) (k : Spans u n' m') (hp : u.pins = s.pins.drop m)
    (hi : u.ie = s.ie) (ha : u.stallAfter = s.stallAfter) : Spans s (n + n') (m + m') := by
  have e : goesOn u = fun j => goesOn s (m + j) := funext (goesOn_later hp hi ha)
  refine ⟨?_, fun hm => ?_⟩
  · rw [List.range_add, List.countP_append, List.countP_map, h.1, ← k.1, e]; rfl
  · rcases Nat.eq_zero_or_pos m' with rfl | hm'
    · exact h.2 hm
    · have := k.2 hm'
      rw [e] at this
      rwa [Nat.add_sub_assoc hm']

/-- Where no cycle is stalled `n` advancing cycles take `n` cycles. -/
theorem Spans.exact {s : State} {n m : Nat} (h : Spans s n m) (hg : ∀ k, goesOn s k = true) : m = n := by
  have := h.1
  rw [List.countP_eq_length.mpr fun k _ => hg k, List.length_range] at this
  exact this

theorem Took.trans {s t u : State} {n m : Nat} (h : Took n s t) (k : Took m t u) (hi : t.ie = s.ie)
    (ha : t.stallAfter = s.stallAfter) : Took (n + m) s u := by
  obtain ⟨a, h1, h2, h3⟩ := h
  obtain ⟨b, k1, k2, k3⟩ := k
  exact ⟨a + b, h1.trans k1 h3 hi ha, by omega, by rw [k3, h3, List.drop_drop]⟩

/-- Without an endless stall there is none at any later moment at the same IE. -/
theorem stallsEnd_of_hung {s u : State} (h : hung u = true) (hi : u.ie = s.ie) (ha : u.stallAfter = s.stallAfter) :
    stallsEnd s = false := by
  simp only [hung, Bool.and_eq_true] at h
  simp [stallsEnd, ← hi, ← ha, h]

theorem stallsEnd_of_neverStalls {s : State} (h : neverStalls s = true) : stallsEnd s = true := by
  simp only [neverStalls, Bool.or_eq_true, Bool.and_eq_true] at h
  rw [stallsEnd, Bool.or_eq_true]
  exact h.imp_right And.left

theorem stallsEnd_of_masked {s : State} (h : s.ie = false) : stallsEnd s = true := by simp [stallsEnd, h]

/-! ### PORT after a cycle -/

/-- A bit of PORT that nobody else writes holds what the block's pulses make of it. -/
theorem nextPort_untouched {s : State} {j : Nat} (h : untouched j s.pins = true) (a b : PortWord) :
    (nextPort a b s).getLsbD j = ((s.port.getLsbD j || a.getLsbD j) && !b.getLsbD j) := by
  by_cases hj : j < 256
  · have := all_nowPins (f := fun p => !p.envSet.getLsbD j && !p.envClr.getLsbD j) (by simp [afterPins]) h
    simp only [Bool.and_eq_true, Bool.not_eq_true'] at this
    simp only [nextPort, BitVec.getLsbD_and, BitVec.getLsbD_or, BitVec.getLsbD_not, this.1, this.2, hj]
    simp
  · simp [BitVec.getLsbD_of_ge _ j (Nat.not_lt.mp hj)]

/-- The bits PINMASK selects, when nobody else writes them. -/
theorem nextPort_owned {s : State} (h : secondWriter s = false) (a b : PortWord) :
    nextPort a b s &&& s.pinmask = (s.port ||| a) &&& ~~~b &&& s.pinmask := by
  simp only [secondWriter, bne_eq_false_iff_eq] at h
  apply BitVec.eq_of_getLsbD_eq
  intro j hj
  have hb := congrArg (·.getLsbD j) h
  simp only [BitVec.getLsbD_and, BitVec.getLsbD_or, BitVec.getLsbD_zero] at hb
  simp only [nextPort, BitVec.getLsbD_and, BitVec.getLsbD_or, BitVec.getLsbD_not, hj, decide_true, Bool.true_and]
  generalize s.pinmask.getLsbD j = m at *
  generalize (nowPins s).envSet.getLsbD j = e at *
  generalize (nowPins s).envClr.getLsbD j = c at *
  cases m <;> cases e <;> cases c <;> simp_all

theorem line_of_owned {s : State} (h : LineOwned s) : lineNow s = some (s.port.getLsbD s.pin.toNat) := by
  have hm := h.mask
  have hv := h.valid
  have : disabled s = false := by
    have hp := s.pin.isLt
    rw [disabled, hm, beq_eq_false_iff_ne]
    intro h0
    have := congrArg (·.getLsbD s.pin.toNat) h0
    simp [maskOfPin, pinValid, hv] at this
    omega
  simp [lineNow, this]

end Sys2Proof.Machine
end

