-- ==== Sys2Proof/Laws/Ran.lean ====
section
/-! SUPPORT. What the advancing cycles of a script leave behind, whatever the schedule of pins: the cycles that passed,
IE, PORT and the command port. -/

namespace Sys2Proof.Machine

/-- One cycle's drive on PORT. -/
def Drive.apply (m : PortWord) (p : PortWord) (d : Drive) : PortWord := (p ||| d.set m) &&& ~~~(d.clr m)

/-- The bits of PORT in `m` after a script. -/
def portAfter (m : PortWord) (p : PortWord) (l : Script) : PortWord := l.foldl (fun q x => x.2.apply m q) p

/-- The bits of PORT in `m` during each cycle of a script that nothing stalls. -/
def portDuring (m : PortWord) : PortWord → Script → List PortWord
  | _, [] => []
  | p, x :: l => p :: portDuring m (x.2.apply m p) l

theorem portAfter_append (m p : PortWord) (a b : Script) : portAfter m p (a ++ b) = portAfter m (portAfter m p a) b := by
  simp [portAfter]

theorem portDuring_append (m p : PortWord) (a b : Script) :
    portDuring m p (a ++ b) = portDuring m p a ++ portDuring m (portAfter m p a) b := by
  induction a generalizing p with
  | nil => rfl
  | cons x a ih => simp [portDuring, ih, portAfter]

theorem and_not_zero (p : PortWord) : p &&& ~~~(0#256) = p := by
  apply BitVec.eq_of_getLsbD_eq
  intro j hj
  simp only [BitVec.getLsbD_and, BitVec.getLsbD_not, BitVec.getLsbD_zero, hj, decide_true, Bool.not_false, Bool.and_true]

@[simp] theorem Drive.apply_none (m p : PortWord) : Drive.none.apply m p = p := by
  simp only [Drive.apply, Drive.set, Drive.clr, BitVec.or_zero, and_not_zero]
@[simp] theorem Drive.apply_high (m p : PortWord) : Drive.high.apply m p = p ||| m := by
  simp only [Drive.apply, Drive.set, Drive.clr, and_not_zero]
@[simp] theorem Drive.apply_low (m p : PortWord) : Drive.low.apply m p = p &&& ~~~m := by
  simp [Drive.apply, Drive.set, Drive.clr]

/-- A script without a drive. -/
def Script.silent (l : Script) : Prop := ∀ x ∈ l, x.2 = .none

theorem silent_waitScript (ph : Phase) (n : Nat) : Script.silent (waitScript ph n) := by
  intro x hx; simp [waitScript] at hx; simp [hx]

theorem portAfter_silent (m p : PortWord) {l : Script} (h : Script.silent l) : portAfter m p l = p := by
  induction l generalizing p with
  | nil => rfl
  | cons x l ih =>
    have hx := h x (by simp)
    have := ih p fun y hy => h y (by simp [hy])
    simpa [portAfter, hx] using this

/-- The block's pulses in a cycle are nothing, or PINMASK on one of the two outputs (20_memory.md R38). -/
def pulsesOnly (m : PortWord) (o : Obs) : Prop :=
  (o.portSet = 0#256 ∧ o.portClr = 0#256) ∨ (o.portSet = m ∧ o.portClr = 0#256) ∨ (o.portSet = 0#256 ∧ o.portClr = m)

theorem pulsesOnly_of_drive (d : Drive) (m : PortWord) (o : Obs) (h1 : o.portSet = d.set m) (h2 : o.portClr = d.clr m) :
    pulsesOnly m o := by
  cases d
  · exact .inl ⟨h1, h2⟩
  · exact .inr (.inl ⟨h1, h2⟩)
  · exact .inr (.inr ⟨h1, h2⟩)

/-- No payload word can be accepted in the cycles of the script (10_state.md R33). -/
def portClosed (s : State) (l : Script) : Prop := s.cmd ≠ .sendPattern ∨ ∀ x ∈ l, x.1.isBit = false

/-- From `s` to `u` the cycles of the script `l` have advanced, and `os` is what was seen, the latest first. -/
structure Ran (s : State) (l : Script) (os : List Obs) (u : State) : Prop where
  kept : Kept s u
  trace : u.trace = os ++ s.trace
  cycle : u.cycle = s.cycle + os.length
  pins : u.pins = s.pins.drop os.length
  count : (List.range os.length).countP (goesOn s) = l.length
  ie : u.ie = s.ie
  busy : ∀ o ∈ os, o.busy = true ∧ o.ieOut = s.ie ∧ pulsesOnly s.pinmask o
  owned : u.port &&& s.pinmask = portAfter s.pinmask (s.port &&& s.pinmask) l
  others : PortElsewhere s.pinmask s u
  silent : Script.silent l →
    (∀ o ∈ os, o.portSet = 0#256 ∧ o.portClr = 0#256 ∧ o.port &&& s.pinmask = s.port &&& s.pinmask) ∧
    (∀ j, untouched j s.pins = true →
      u.port.getLsbD j = s.port.getLsbD j ∧ ∀ o ∈ os, o.port.getLsbD j = s.port.getLsbD j)
  levels : neverStalls s = true → os.reverse.map (fun o => o.port &&& s.pinmask) = portDuring s.pinmask (s.port &&& s.pinmask) l
  lines : ∀ o ∈ os, o.line = if s.pinmask == 0#256 then none else some (o.port.getLsbD s.pin.toNat)
  host : portClosed s l → u.host = waitHost^[os.length] s.host ∧ KeptFeed s u

theorem Ran.refl (s : State) : Ran s [] [] s := by
  refine ⟨Kept.refl s, rfl, rfl, rfl, by simp, rfl, by simp, rfl, fun _ _ _ => rfl, fun _ => ⟨by simp, fun _ _ => ⟨rfl, by simp⟩⟩,
    fun _ => rfl, by simp, fun _ => ⟨rfl, KeptFeed.refl s⟩⟩

/-- What was not written since: a change of PHASE, DLY, WORD or BITMASK is not seen. -/
theorem Ran.congr {s u v : State} {l : Script} {os : List Obs} (h : Ran s l os u) (hk : Kept u v) (hf : KeptFeed u v)
    (ht : v.trace = u.trace) (hc : v.cycle = u.cycle) (hp : v.pins = u.pins) (hi : v.ie = u.ie) (hport : v.port = u.port)
    (hh : v.host = u.host) : Ran s l os v where
  kept := h.kept.trans hk
  trace := ht.trans h.trace
  cycle := hc.trans h.cycle
  pins := hp.trans h.pins
  count := h.count
  ie := hi.trans h.ie
  busy := h.busy
  owned := by rw [hport]; exact h.owned
  others := fun j hj hu => by rw [hport]; exact h.others j hj hu
  silent := fun hs => ⟨(h.silent hs).1, fun j hj => by rw [hport]; exact (h.silent hs).2 j hj⟩
  levels := h.levels
  lines := h.lines
  host := fun hc => ⟨hh.trans (h.host hc).1, (h.host hc).2.trans hf⟩

theorem drop_tail {α : Type} (l : List α) (n : Nat) : (l.drop n).tail = l.drop (n + 1) := by
  simp [List.tail_drop]

/-- The host's words when none is accepted: its waiting goes on. -/
theorem servePort_host_not_ready (s : State) (h : ready s = false) : s.servePort.host = waitHost s.host := by
  unfold State.servePort
  cases hh : s.host with
  | nil => simp [presented, hh]
  | cons a as =>
    by_cases hd : a.delay = 0
    · obtain ⟨d, w⟩ := a
      simp only at hd
      simp [presented, hh, hd, h, waitHost]
    · simp [presented, hh, hd]

theorem advanceCycle_host_not_ready (s : State) (a b : PortWord) (h : ready s = false) :
    (s.advanceCycle a b).host = waitHost s.host := by
  unfold State.advanceCycle
  rw [servePort_host_not_ready _ (by simpa [ready, wantsNext] using h)]
  simp

/-- One more cycle, stalled or not, that the block spends in a live phase. -/
theorem Ran.cycleSeen {s u v : State} {l l' : Script} {os : List Obs} {o : Obs} (h : Ran s l os u) (hk : Kept u v)
    (ht : v.trace = o :: u.trace) (hc : v.cycle = u.cycle + 1) (hp : v.pins = u.pins.tail) (hi : v.ie = u.ie)
    (d : Drive) (hport : v.port = nextPort (d.set u.pinmask) (d.clr u.pinmask) u) (hb : Sys2Proof.Machine.busy u = true)
    (hsw : secondWriter u = false) (r : Bool)
    (ho : o = outputs r (d.set u.pinmask) (d.clr u.pinmask) u)
    (hl : (l' = l ∧ d = .none ∧ u.ie = true ∧ (nowPins u).stall = true) ∨
      (∃ ph, l' = l ++ [(ph, d)] ∧ advances u = true))
    (hh : portClosed s l' → v.host = waitHost u.host ∧ KeptFeed u v) : Ran s l' (o :: os) v := by
  have hm : u.pinmask = s.pinmask := h.kept.pinmask
  have hpin : u.pin = s.pin := h.kept.pin
  rw [hm] at hport ho
  have hown : v.port &&& s.pinmask = d.apply s.pinmask (u.port &&& s.pinmask) &&& s.pinmask := by
    have := nextPort_owned hsw (d.set s.pinmask) (d.clr s.pinmask)
    rw [hm] at this
    rw [hport, this]
    apply BitVec.eq_of_getLsbD_eq
    intro j hj
    simp only [Drive.apply, BitVec.getLsbD_and, BitVec.getLsbD_or, BitVec.getLsbD_not, hj, decide_true, Bool.true_and]
    cases s.pinmask.getLsbD j <;> simp
  have happly : ∀ p : PortWord, d.apply s.pinmask (p &&& s.pinmask) &&& s.pinmask = d.apply s.pinmask (p &&& s.pinmask) := by
    intro p
    apply BitVec.eq_of_getLsbD_eq
    intro j hj
    cases d <;>
      simp only [Drive.apply_none, Drive.apply_high, Drive.apply_low, BitVec.getLsbD_and, BitVec.getLsbD_or, BitVec.getLsbD_not,
        hj, decide_true, Bool.true_and] <;>
      cases s.pinmask.getLsbD j <;> simp
  have hmem : ∀ j, untouched j s.pins = true → untouched j u.pins = true := fun j hj => by
    rw [h.pins]; exact untouched_drop _ hj
  have hvp : v.pins = s.pins.drop (os.length + 1) := by rw [hp, h.pins, drop_tail]
  have hgo : advances u = goesOn s os.length := by
    rw [← goesOn_zero, goesOn_later h.pins h.ie h.kept.stallAfter, Nat.add_zero]
  have hsub : Script.silent l' → Script.silent l := by
    rcases hl with ⟨rfl, -⟩ | ⟨ph, rfl, -⟩
    · exact id
    · exact fun hs x hx => hs x (by simp [hx])
  have hdn : Script.silent l' → d = .none := by
    rcases hl with ⟨-, hd, -⟩ | ⟨ph, rfl, -⟩
    · exact fun _ => hd
    · exact fun hs => hs (ph, d) (by simp)
  constructor
  · exact h.kept.trans hk
  · rw [ht, h.trace]; rfl
  · rw [hc, h.cycle]; simp; omega
  · exact hvp
  · rw [List.length_cons, List.range_succ, List.countP_append, h.count, List.countP_singleton, ← hgo]
    rcases hl with ⟨rfl, -, h1, h2⟩ | ⟨ph, rfl, h1⟩
    · simp [advances, h1, h2]
    · simp [h1]
  · exact hi.trans h.ie
  · intro x hx
    rcases List.mem_cons.mp hx with rfl | hx
    · refine ⟨by rw [ho]; exact hb, by rw [ho]; exact h.ie, pulsesOnly_of_drive d _ _ (by rw [ho]; rfl) (by rw [ho]; rfl)⟩
    · exact h.busy x hx
  · rw [hown, happly, h.owned]
    rcases hl with ⟨rfl, rfl, -⟩ | ⟨ph, rfl, -⟩
    · simp
    · simp [portAfter]
  · intro j hj hu
    rw [hport, nextPort_untouched (hmem j hu)]
    have e1 : (d.set s.pinmask).getLsbD j = false := by cases d <;> simp [Drive.set, hj]
    have e2 : (d.clr s.pinmask).getLsbD j = false := by cases d <;> simp [Drive.clr, hj]
    rw [e1, e2, h.others j hj hu]; simp
  · intro hs
    have hd := hdn hs
    subst hd
    obtain ⟨k1, k2⟩ := h.silent (hsub hs)
    have hup : u.port &&& s.pinmask = s.port &&& s.pinmask := by rw [h.owned, portAfter_silent _ _ (hsub hs)]
    refine ⟨?_, fun j hj => ⟨?_, ?_⟩⟩
    · intro x hx
      rcases List.mem_cons.mp hx with rfl | hx
      · rw [ho]; exact ⟨rfl, rfl, hup⟩
      · exact k1 x hx
    · rw [hport, nextPort_untouched (hmem j hj), (k2 j hj).1]; simp [Drive.set, Drive.clr]
    · intro x hx
      rcases List.mem_cons.mp hx with rfl | hx
      · rw [ho]; exact (k2 j hj).1
      · exact (k2 j hj).2 x hx
  · intro hs
    rcases hl with ⟨-, -, h1, h2⟩ | ⟨ph, rfl, -⟩
    · have := hgo.trans (goesOn_of_neverStalls hs _)
      simp [advances, h1, h2] at this
    · rw [portDuring_append, ← h.levels hs, List.reverse_cons, List.map_append]
      congr 1
      simp only [List.map_cons, List.map_nil, portDuring]
      rw [← h.owned, ho]; rfl
  · intro x hx
    rcases List.mem_cons.mp hx with rfl | hx
    · rw [ho]; simp only [outputs, lineNow, disabled, hm, hpin]
    · exact h.lines x hx
  · intro hcl
    have hcl' : portClosed s l := by
      rcases hcl with hcl | hcl
      · exact .inl hcl
      · refine .inr fun x hx => hcl x ?_
        rcases hl with ⟨rfl, -⟩ | ⟨ph, rfl, -⟩
        · exact hx
        · simp [hx]
    refine ⟨?_, (h.host hcl').2.trans (hh hcl).2⟩
    rw [(hh hcl).1, (h.host hcl').1, List.length_cons, Function.iterate_succ_apply']

/-- The phases of a micro-operation. -/
def Phase.live (ph : Phase) : Prop := ph ≠ .idle ∧ ph ≠ .fetch

theorem busy_of_live {s : State} (h : s.phase.live) : busy s = true := by
  unfold busy
  obtain ⟨h1, -⟩ := h
  cases hp : s.phase <;> simp_all [Phase.isIdle]

theorem ready_of_closed {s u : State} {l : Script} {d : Drive} (hc : portClosed s (l ++ [(u.phase, d)])) (hk : u.cmd = s.cmd)
    (hl : u.phase.live) : ready u = false := by
  have hb : u.phase.isBit = true → u.cmd ≠ .sendPattern := by
    intro hb
    rcases hc with hc | hc
    · rwa [hk]
    · have := hc (u.phase, d) (by simp)
      simp [hb] at this
  have hp : u.phase.isBit = true → u.cmd.isPattern = false := by
    intro h
    have := hb h
    cases hcm : u.cmd <;> simp_all [Cmd.isPattern]
  unfold ready wantsNext
  obtain ⟨h1, h2⟩ := hl
  cases hq : u.phase <;> simp_all [Phase.isBit]

/-- The script has just ended: its last cycle is the last to have passed. -/
structure Ended (s : State) (l : Script) (os : List Obs) (u : State) : Prop extends Ran s l os u where
  last : 0 < os.length → goesOn s (os.length - 1) = true

theorem Ended.refl (s : State) : Ended s [] [] s := ⟨Ran.refl s, by simp⟩

theorem Ended.congr {s u v : State} {l : Script} {os : List Obs} (h : Ended s l os u) (hk : Kept u v) (hf : KeptFeed u v)
    (ht : v.trace = u.trace) (hc : v.cycle = u.cycle) (hp : v.pins = u.pins) (hi : v.ie = u.ie) (hport : v.port = u.port)
    (hh : v.host = u.host) : Ended s l os v := ⟨h.toRan.congr hk hf ht hc hp hi hport hh, h.last⟩

/-- A hardware reset has cut the run short: what it leaves of PORT, and that nothing was pulsed but PINMASK. -/
def ResetShort (s t : State) : Prop :=
  noReset s.pins = false ∧ PortElsewhere s.pinmask s t ∧ ∃ os, t.trace = os ++ s.trace ∧ ∀ o ∈ os, pulsesOnly s.pinmask o

/-- A stall without end has cut the run short in the middle of its script. -/
def HungShort (s t : State) : Prop := hung t = true ∧ stallsEnd s = false ∧ ∃ l os, Ran s l os t

/-- The run was cut short. -/
def CutShort (s t : State) : Prop := ResetShort s t ∨ HungShort s t

theorem CutShort.others {s t : State} (h : CutShort s t) : PortElsewhere s.pinmask s t := by
  rcases h with h | ⟨-, -, _, _, h⟩
  · exact h.2.1
  · exact h.others

theorem CutShort.pulses {s t : State} (h : CutShort s t) :
    ∃ os, t.trace = os ++ s.trace ∧ ∀ o ∈ os, pulsesOnly s.pinmask o := by
  rcases h with h | ⟨-, -, _, os, h⟩
  · exact h.2.2
  · exact ⟨os, h.trace, fun o ho => (h.busy o ho).2.2⟩

/-- Every micro-operation, and every series of them without an update in between, does what its script says. -/
theorem ranStable (s : State) :
    Stable Phase.live (fun l u => ∃ os, Ended s l os u) (fun l u => ∃ os, Ran s l os u) (CutShort s)
      (calm s.pinmask s.pins = false) where
  live := fun _ h => h
  weak := fun _ _ ⟨os, h⟩ => ⟨os, h.toRan⟩
  adv := by
    rintro l u d ⟨os, h⟩ hl hsw hr ha
    have hi : u.phase ≠ .idle := hl.1
    refine ⟨_, h.cycleSeen (Kept.ofAdvance u _ _) (advanceCycle_trace u _ _) (advanceCycle_cycle u _ _)
      (advanceCycle_pins u _ _) (advanceCycle_ie_busy u _ _ hi) d (advanceCycle_port u _ _) (busy_of_live hl) hsw _ rfl
      (.inr ⟨_, rfl, ha⟩) (fun hc => ?_), fun _ => ?_⟩
    · have hrd := ready_of_closed hc h.kept.cmd hl
      exact ⟨advanceCycle_host_not_ready u _ _ hrd, KeptFeed.ofAdvance u _ _ (.inl hrd)⟩
    · rw [← goesOn_zero, goesOn_later h.pins h.ie h.kept.stallAfter] at ha
      exact ha
  stall := by
    rintro l u ⟨os, h⟩ hl hsw hr ha
    have hst : u.ie = true ∧ (nowPins u).stall = true := by simpa [advances] using ha
    refine ⟨_, h.cycleSeen (KeptWord.ofStall u).toKept (stallCycle_trace u) rfl rfl rfl .none rfl (busy_of_live hl) hsw _ rfl
      (.inl ⟨rfl, rfl, hst.1, hst.2⟩) fun _ => ⟨rfl, KeptFeed.ofStall u⟩⟩
  hung := by
    rintro l u ⟨os, h⟩ hl hh
    exact .inr ⟨hh, stallsEnd_of_hung hh h.ie h.kept.stallAfter, l, os, h⟩
  reset := by
    rintro l u ⟨os, h⟩ hl hsw hr
    refine .inl ⟨?_, ?_, resetOutputs u :: os, by simp [h.trace], ?_⟩
    · cases hn : noReset s.pins with
      | false => rfl
      | true =>
        have := rst_of_noReset (s := u) (by rw [h.pins]; exact noReset_drop _ hn)
        rw [hr] at this; exact absurd this (by simp)
    · intro j hj hu
      rw [resetCycle_port, nextPort_untouched (by rw [h.pins]; exact untouched_drop _ hu), h.others j hj hu]
      simp
    · intro o ho
      rcases List.mem_cons.mp ho with rfl | ho
      · exact .inl ⟨rfl, rfl⟩
      · exact (h.busy o ho).2.2
  refuse := by
    rintro l u ⟨os, h⟩ hl hsw
    cases hc : calm s.pinmask s.pins with
    | false => rfl
    | true =>
      have := secondWriter_of_calm (s := u) (by rw [h.kept.pinmask, h.pins]; exact calm_drop _ hc)
      rw [hsw] at this; exact absurd this (by simp)
  enter := by
    rintro l u ph n - ⟨os, h⟩
    exact ⟨os, h.congr (KeptWord.ofEnter u ph n).toKept (KeptFeed.ofEnter u ph n) rfl rfl rfl rfl rfl rfl⟩
  dly := by
    rintro l u n ⟨os, h⟩
    exact ⟨os, h.congr (KeptWord.ofDly u n).toKept (KeptFeed.ofDly u n) rfl rfl rfl rfl rfl rfl⟩

theorem ran_shiftMask (s : State) (l : Script) (u : State) :
    (∃ os, Ended s l os u) → ∃ os, Ended s l os u.shiftMask := by
  rintro ⟨os, h⟩
  exact ⟨os, h.congr (Kept.ofShift u) ⟨rfl, rfl, rfl⟩ rfl rfl rfl rfl rfl rfl⟩

/-! ### Reading it off -/

theorem Ended.spans {s u : State} {l : Script} {os : List Obs} (h : Ended s l os u) : Spans s l.length os.length :=
  ⟨h.count, h.last⟩

theorem Ended.took {s u : State} {l : Script} {os : List Obs} (h : Ended s l os u) : Took l.length s u :=
  ⟨os.length, h.spans, h.cycle, h.pins⟩

theorem Ran.passed {s u : State} {l : Script} {os : List Obs} (h : Ran s l os u) : passed s u = os.reverse := by
  rw [Sys2Proof.Machine.passed, h.trace]; simp

theorem Ran.calm {s u : State} {l : Script} {os : List Obs} (h : Ran s l os u) {m : PortWord}
    (hc : calm m s.pins = true) : calm m u.pins = true := by rw [h.pins]; exact calm_drop _ hc

/-- On an undisturbed schedule whose stalls end nothing cuts a run short. -/
theorem Run.Sat.of_calm {s : State} {P : State → Prop} {r : Run} (h : r.Sat P (CutShort s) (calm s.pinmask s.pins = false))
    (hc : Sys2Proof.Machine.calm s.pinmask s.pins = true) (he : stallsEnd s = true) : ∃ t, r = .on t ∧ P t := by
  refine (h.mono (fun _ hp => hp) (fun _ hq => ?_) (fun hx => by rw [hc] at hx; exact absurd hx (by simp))).exists_on
  rcases hq with hq | hq
  · have := hq.1; rw [noReset_of_calm hc] at this; simp at this
  · have := hq.2.1; rw [he] at this; simp at this

/-- Without a hardware reset a run that answers has completed, or hangs in the middle. -/
theorem Run.Sat.of_noReset {s t : State} {P Q : State → Prop} {r : Run}
    (h : r.Sat P (fun t => CutShort s t ∧ Q t) (Sys2Proof.Machine.calm s.pinmask s.pins = false))
    (hn : noReset s.pins = true) (ht : r.outcome = .next t) : P t ∨ (HungShort s t ∧ Q t) := by
  rcases h.of_outcome ht with hp | ⟨hq | hq, k⟩
  · exact .inl hp
  · have := hq.1; rw [hn] at this; simp at this
  · exact .inr ⟨hq, k⟩

theorem LineOwned.line {s u : State} {l : Script} {os : List Obs} (h : LineOwned s) (hr : Ran s l os u) :
    ∀ o ∈ os, o.line = some (o.port.getLsbD s.pin.toNat) := by
  intro o ho
  have hne := line_of_owned h
  rw [hr.lines o ho]
  simp only [lineNow, disabled] at hne
  cases hz : s.pinmask == 0#256 <;> simp_all

end Sys2Proof.Machine
end

