-- ==== Sys2Proof/Laws/Script.lean ====
section
/-! SUPPORT. The length of each script and what it does to PORT. -/

namespace Sys2Proof.Machine

theorem legal_cDrive {c : Params} (h : c.legal = true) : 1 ≤ c.cDrive := by
  simp only [Params.legal, Bool.and_eq_true, decide_eq_true_eq] at h; exact h.1.1.2

theorem legal_cSync {c : Params} (h : c.legal = true) : 1 ≤ c.cSync := by
  simp only [Params.legal, Bool.and_eq_true, decide_eq_true_eq] at h; exact h.1.2

theorem legal_cCfg {c : Params} (h : c.legal = true) : 1 ≤ c.cCfg := by
  simp only [Params.legal, Bool.and_eq_true, decide_eq_true_eq] at h; exact h.2

/-! ### Lengths -/

@[simp] theorem driveScript_length (ph : Phase) (n : Nat) (d : Drive) : (driveScript ph n d).length = n - 1 + 1 := by
  simp [driveScript]

@[simp] theorem waitScript_length (ph : Phase) (n : Nat) : (waitScript ph n).length = n := by simp [waitScript]

theorem encodeScript_length {c : Params} (h : 1 ≤ c.cDrive) (v : Bool) : (encodeScript c v).length = c.encodeCycles v := by
  simp [encodeScript, Params.encodeCycles]; omega

theorem resetScript_length {c : Params} (h : 1 ≤ c.cDrive) : (resetScript c).length = c.resetCycles := by
  simp [resetScript, Params.resetCycles]; omega

/-- One bits among bits k .. k+n-1. -/
def onesFrom (w : ColorWord) (k n : Nat) : Nat := onesBelow w (k + n) - onesBelow w k

theorem onesBelow_le (w : ColorWord) (k : Nat) : onesBelow w k ≤ k := by
  induction k with
  | zero => exact le_rfl
  | succ k ih => unfold onesBelow; split <;> omega

theorem onesBelow_mono (w : ColorWord) (k n : Nat) : onesBelow w k ≤ onesBelow w (k + n) := by
  induction n with
  | zero => exact le_rfl
  | succ n ih =>
    refine ih.trans ?_
    show _ ≤ onesBelow w (k + n + 1)
    rw [onesBelow]; omega

theorem onesBelow_add_le (w : ColorWord) (k n : Nat) : onesBelow w (k + n) ≤ onesBelow w k + n := by
  induction n with
  | zero => exact le_rfl
  | succ n ih =>
    show onesBelow w (k + n + 1) ≤ _
    rw [onesBelow]; split <;> omega

theorem onesFrom_le (w : ColorWord) (k n : Nat) : onesFrom w k n ≤ n := by
  have := onesBelow_add_le w k n
  unfold onesFrom; omega

theorem onesFrom_succ (w : ColorWord) (k n : Nat) :
    onesFrom w k (n + 1) = (if w.getLsbD k then 1 else 0) + onesFrom w (k + 1) n := by
  have h1 := onesBelow_mono w (k + 1) n
  have h2 : onesBelow w (k + 1) = onesBelow w k + (if w.getLsbD k then 1 else 0) := rfl
  have h3 : k + (n + 1) = k + 1 + n := by omega
  unfold onesFrom
  rw [h3]
  omega

theorem bitsScript_length {c : Params} (h : 1 ≤ c.cDrive) (w : ColorWord) (k n : Nat) :
    (bitsScript c w k n).length =
      n * (2 * c.cDrive + c.gBit) + onesFrom w k n * (c.high true + c.low true) +
        (n - onesFrom w k n) * (c.high false + c.low false) := by
  induction n generalizing k with
  | zero => simp [bitsScript, onesFrom]
  | succ n ih =>
    have hle := onesFrom_le w (k + 1) n
    rw [bitsScript, List.length_append, List.length_append, encodeScript_length h, waitScript_length, ih, onesFrom_succ]
    cases hb : w.getLsbD k with
    | true =>
      simp only [Params.encodeCycles, if_true]
      have : n + 1 - (1 + onesFrom w (k + 1) n) = n - onesFrom w (k + 1) n := by omega
      rw [this]; ring
    | false =>
      simp only [Params.encodeCycles, Bool.false_eq_true, if_false, Nat.zero_add]
      have : n + 1 - onesFrom w (k + 1) n = n - onesFrom w (k + 1) n + 1 := by omega
      rw [this]; ring

theorem wordScript_length {c : Params} (h : 1 ≤ c.cDrive) (w : ColorWord) : (wordScript c w).length = c.wordCycles w := by
  rw [wordScript, bitsScript_length h, Params.wordCycles]
  simp [onesFrom, popcount, onesBelow]

/-! ### PORT -/

theorem portAfter_driveScript (m p : PortWord) (ph : Phase) (n : Nat) (d : Drive) :
    portAfter m p (driveScript ph n d) = d.apply m p := by
  have h := portAfter_silent m p (silent_waitScript ph (n - 1))
  rw [waitScript] at h
  rw [driveScript, portAfter_append, h]
  rfl

theorem portAfter_waitScript (m p : PortWord) (ph : Phase) (n : Nat) : portAfter m p (waitScript ph n) = p :=
  portAfter_silent _ _ (silent_waitScript ph n)

theorem and_and_not (p m : PortWord) : p &&& m &&& ~~~m = 0#256 := by
  apply BitVec.eq_of_getLsbD_eq
  intro j hj
  simp only [BitVec.getLsbD_and, BitVec.getLsbD_not, BitVec.getLsbD_zero, hj, decide_true, Bool.true_and]
  cases m.getLsbD j <;> simp

/-- DRIVELOW leaves the selected bit low. -/
theorem portAfter_low {m p : PortWord} {l : Script} (h : (portAfter m p l) &&& ~~~m = 0#256) :
    Drive.low.apply m (portAfter m p l) = 0#256 := by
  rw [Drive.apply_low]; exact h

theorem portAfter_within (m : PortWord) {p : PortWord} (l : Script) (h : p &&& ~~~m = 0#256) :
    portAfter m p l &&& ~~~m = 0#256 := by
  induction l generalizing p with
  | nil => exact h
  | cons x l ih =>
    refine ih (p := x.2.apply m p) ?_
    apply BitVec.eq_of_getLsbD_eq
    intro j hj
    have := congrArg (·.getLsbD j) h
    simp only [BitVec.getLsbD_and, BitVec.getLsbD_not, BitVec.getLsbD_zero, hj, decide_true, Bool.true_and] at this ⊢
    cases hx : x.2 <;>
      simp only [Drive.apply_none, Drive.apply_high, Drive.apply_low, BitVec.getLsbD_and, BitVec.getLsbD_or,
        BitVec.getLsbD_not, hj, decide_true, Bool.true_and] <;>
      cases hm : m.getLsbD j <;> simp_all

theorem portAfter_encodeScript (c : Params) (v : Bool) {m p : PortWord} (h : p &&& ~~~m = 0#256) :
    portAfter m p (encodeScript c v) = 0#256 := by
  rw [encodeScript, portAfter_append, portAfter_append, portAfter_append, portAfter_waitScript, portAfter_driveScript]
  rw [portAfter_waitScript, Drive.apply_low]
  exact portAfter_within m _ h

theorem portAfter_bitsScript (c : Params) (w : ColorWord) (k n : Nat) {m p : PortWord} (h : p &&& ~~~m = 0#256)
    (h0 : n = 0 → p = 0#256) : portAfter m p (bitsScript c w k n) = 0#256 := by
  induction n generalizing k p with
  | zero => exact h0 rfl
  | succ n ih =>
    rw [bitsScript, portAfter_append, portAfter_append, portAfter_encodeScript c _ h, portAfter_waitScript]
    exact ih (k + 1) (by simp) fun _ => rfl

theorem portAfter_wordScript (c : Params) (w : ColorWord) {m p : PortWord} (h : p &&& ~~~m = 0#256) :
    portAfter m p (wordScript c w) = 0#256 := portAfter_bitsScript c w 0 24 h (by simp)

theorem portAfter_resetScript (c : Params) {m p : PortWord} (h : p &&& ~~~m = 0#256) :
    portAfter m p (resetScript c) = 0#256 := by
  rw [resetScript, portAfter_append, portAfter_waitScript, portAfter_driveScript, Drive.apply_low, h]

theorem portDuring_waitScript (m p : PortWord) (ph : Phase) (n : Nat) :
    portDuring m p (waitScript ph n) = List.replicate n p := by
  induction n with
  | zero => rfl
  | succ n ih =>
    rw [waitScript, List.replicate_succ, portDuring]
    simpa [List.replicate_succ, waitScript] using ih

theorem portDuring_driveScript (m p : PortWord) (ph : Phase) (n : Nat) (d : Drive) (h : 1 ≤ n) :
    portDuring m p (driveScript ph n d) = List.replicate n p := by
  have h1 := portDuring_waitScript m p ph (n - 1)
  have h2 := portAfter_waitScript m p ph (n - 1)
  rw [waitScript] at h1 h2
  rw [driveScript, portDuring_append, h1, h2]
  obtain ⟨k, rfl⟩ := Nat.exists_eq_add_of_le' h
  simp [portDuring, List.replicate_succ']

theorem portDuring_encodeScript {c : Params} (h : 1 ≤ c.cDrive) (v : Bool) (m : PortWord) :
    portDuring m 0#256 (encodeScript c v) =
      List.replicate c.cDrive 0#256 ++ List.replicate (c.pulseHigh v) m ++ List.replicate (c.low v) 0#256 := by
  have e : Drive.low.apply m m = 0#256 := by
    have := and_and_not m m
    simp only [BitVec.and_self] at this
    rw [Drive.apply_low]; exact this
  simp only [encodeScript, portDuring_append, portAfter_driveScript, portAfter_waitScript,
    portDuring_waitScript, portDuring_driveScript _ _ _ _ _ h, Drive.apply_high, BitVec.zero_or, e, Params.pulseHigh,
    ← List.replicate_append_replicate, List.append_assoc]

end Sys2Proof.Machine
end

