-- ==== Sys2Proof/Laws/Operations.lean ====
section
/-! SUPPORT. One lemma for each micro-operation: everything it does, whatever the schedule of pins. And the levels of the
line that follow from it. -/

namespace Sys2Proof.Machine

theorem live_of_isBit {ph : Phase} (h : ph.isBit = true) : ph.live := by
  cases ph <;> simp_all [Phase.isBit, Phase.live]

theorem live_holdAfter (ph : Phase) : ph.holdAfter.live := by cases ph <;> simp [Phase.holdAfter, Phase.live]

variable (s : State)

theorem ended_refl : (∃ os, Ended s [] os s) ∧ KeptWord s s := ⟨⟨[], Ended.refl s⟩, KeptWord.refl s⟩

/-- What a micro-operation with the script `l` leaves when it completes, and what when it is cut short. -/
def Does (s : State) (l : Script) (r : Run) : Prop :=
  r.Sat (fun t => (∃ os, Ended s l os t) ∧ KeptWord s t) (fun t => CutShort s t ∧ (hung t = true → KeptWord s t))
    (calm s.pinmask s.pins = false)

theorem Does.ofNil {l : Script} {r : Run}
    (h : r.Sat (fun t => ((∃ os, Ended s ([] ++ l) os t) ∧ KeptWord s t) ∧ KeptWord s t)
      (fun t => CutShort s t ∧ (hung t = true → KeptWord s t)) (calm s.pinmask s.pins = false)) : Does s l r := by
  rw [List.nil_append] at h
  exact h.imp fun _ k => k.1

/-- It completes on a calm schedule whose stalls end. -/
theorem Does.of_calm {s : State} {l : Script} {r : Run} (h : Does s l r) (hc : calm s.pinmask s.pins = true)
    (he : stallsEnd s = true) : ∃ t os, r = .on t ∧ Ended s l os t ∧ KeptWord s t := by
  obtain ⟨t, ht, ⟨os, h1⟩, h2⟩ := (h.mono (fun _ k => k) (fun _ k => k.1) id).of_calm hc he
  exact ⟨t, os, ht, h1, h2⟩

/-- Without a hardware reset its cycles are those of a script, whether or not a stall without end cuts it short. -/
theorem Does.of_noReset {s t : State} {l : Script} {r : Run} (h : Does s l r) (hn : noReset s.pins = true)
    (ht : r.outcome = .next t) : KeptWord s t ∧ ∃ l' os, Ran s l' os t := by
  rcases Run.Sat.of_noReset h hn ht with ⟨⟨os, k⟩, w⟩ | ⟨⟨hh, -, k⟩, w⟩
  · exact ⟨w, l, os, k.toRan⟩
  · exact ⟨w hh, k⟩

theorem driveHigh_does : Does s (driveScript .bitRise s.cfg.cDrive .high) (driveHigh s) :=
  .ofNil s (((ranStable s).withWord s).driveHigh (ended_refl s) (live_of_isBit rfl))

theorem driveLow_does (ph : Phase) (h : ph.live) : Does s (driveScript ph s.cfg.cDrive .low) (driveLow ph s) :=
  .ofNil s (((ranStable s).withWord s).driveLow ph (ended_refl s) h)

theorem hold_does (ph : Phase) (h : ph.live) (n : Nat) : Does s (waitScript ph n) (hold ph n s) :=
  .ofNil s (((ranStable s).withWord s).waitPhase ph n (ended_refl s) h)

theorem encodeBit1_does : Does s (encodeScript s.cfg true) (encodeBit1 s) :=
  .ofNil s (((ranStable s).withWord s).encodeBit true (ended_refl s) fun _ => live_of_isBit)

theorem encodeBit0_does : Does s (encodeScript s.cfg false) (encodeBit0 s) :=
  .ofNil s (((ranStable s).withWord s).encodeBit false (ended_refl s) fun _ => live_of_isBit)

theorem resetSignal_does : Does s (resetScript s.cfg) (resetSignal s) :=
  .ofNil s (((ranStable s).withWord s).resetSignal (ended_refl s) (by simp [Phase.live]) (by simp [Phase.live]))

/-- TRANSMIT writes WORD and BITMASK. -/
theorem transmit_does (w : ColorWord) :
    (transmit w s).Sat
      (fun t => (∃ os, Ended s (wordScript s.cfg w) os t) ∧ Kept s t ∧ t.word = w ∧ t.bitmask = 0#24)
      (CutShort s) (calm s.pinmask s.pins = false) := by
  have := (ranStable s).transmit (s := s) (l := []) w (fun _ => live_of_isBit) (ran_shiftMask s)
    ⟨[], (Ended.refl s).congr (Kept.ofLoad s w) ⟨rfl, rfl, rfl⟩ rfl rfl rfl rfl rfl rfl⟩
  rw [List.nil_append] at this
  exact this

/-- IRQMASK: its cycles, then its writes. -/
theorem irqMask_does :
    (irqMask s).Sat
      (fun t => ∃ u, t = u.maskIe ∧ (∃ os, Ended s (driveScript .syncMask s.cfg.cSync .none) os u) ∧ KeptWord s u)
      (CutShort s) (calm s.pinmask s.pins = false) := by
  have := (ranStable s).irqMask (ended_refl s).1 (by simp [Phase.live])
  rw [List.nil_append] at this
  exact this

/-- IRQRESTORE: its cycles, then its write. -/
theorem irqRestore_does :
    (irqRestore s).Sat
      (fun t => ∃ u, t = u.restoreIe ∧ (∃ os, Ended s (driveScript .syncRestore s.cfg.cSync .none) os u) ∧ KeptWord s u)
      (CutShort s) (calm s.pinmask s.pins = false) := by
  have := (ranStable s).irqRestore (ended_refl s).1 (by simp [Phase.live])
  rw [List.nil_append] at this
  exact this

/-! ### The line -/

variable {s}

theorem LineOwned.bit (h : LineOwned s) : s.pinmask.getLsbD s.pin.toNat = true := by
  have hv := h.valid
  have hp := s.pin.isLt
  rw [h.mask]
  simp [maskOfPin, pinValid, hv, hp]

theorem LineOwned.zero (h : LineOwned s) : s.port &&& s.pinmask = 0#256 := by
  have hl := h.low
  rw [h.mask]
  apply BitVec.eq_of_getLsbD_eq
  intro j hj
  by_cases e : j = s.pin.toNat
  · subst e; simp [hl]
  · simp [maskOfPin, pinValid, h.valid, hj]; omega

/-- The line of a script that nothing stalls. -/
theorem LineOwned.levels {u : State} {l : Script} {os : List Obs} (h : LineOwned s) (hi : neverStalls s = true)
    (hr : Ran s l os u) : lineLevels (passed s u) = (portDuring s.pinmask 0#256 l).map (·.getLsbD s.pin.toNat) := by
  have hlv := hr.levels hi
  rw [h.zero] at hlv
  rw [← hlv, hr.passed, lineLevels, List.map_map]
  apply List.map_congr_left
  intro o ho
  rw [h.line hr o (by simpa using ho)]
  simp [h.bit]

/-- A script that leaves the bit low leaves the line owned. -/
theorem LineOwned.after {u : State} {l : Script} {os : List Obs} (h : LineOwned s) (hr : Ran s l os u)
    (hz : portAfter s.pinmask 0#256 l = 0#256) : LineOwned u := by
  have ho := hr.owned
  rw [h.zero, hz] at ho
  have hb := h.bit
  refine ⟨by rw [hr.kept.pin, hr.kept.cfg]; exact h.valid,
    by rw [hr.kept.pin, hr.kept.cfg, hr.kept.pinmask]; exact h.mask, ?_⟩
  rw [hr.kept.pin]
  have := congrArg (·.getLsbD s.pin.toNat) ho
  simpa [hb] using this

/-- The levels of the bits of a word. -/
theorem portDuring_bitsScript {c : Params} (h : 1 ≤ c.cDrive) (w : ColorWord) (k n : Nat) (m : PortWord) (b : Nat)
    (hb : m.getLsbD b = true) :
    (portDuring m 0#256 (bitsScript c w k n)).map (·.getLsbD b) = bitsLevels c w k n := by
  induction n generalizing k with
  | zero => rfl
  | succ n ih =>
    rw [bitsScript, portDuring_append, portDuring_append, portAfter_append, portAfter_encodeScript _ _ (by simp),
      portAfter_waitScript, portDuring_waitScript, portDuring_encodeScript h, List.map_append, ih, bitsLevels, bitLevels]
    simp [hb, ← List.replicate_append_replicate]

end Sys2Proof.Machine
end

