-- ==== Sys2Proof/Laws/PerInstr.lean ====
section
/-! SUPPORT. Statements about every instruction, one lemma per constructor. -/

namespace Sys2Proof.Laws

/-- A well-formed instruction has a header exactly when a header can name it, and that header decodes to it
(30_encoding.md R54, R55, R59, R64). -/
def HeaderRoundTrip.Statement (i : Instr) : Prop :=
  (encodeHeader i).isSome = i.isHeader ∧
    ∀ (c : Params) (cw : CommandWord), i.wellFormed c = true → encodeHeader i = some cw → decodeHeader cw = i

/-- A header by its arithmetic. -/
theorem decodeHeader_of_op {cw : CommandWord} {n : Nat} (h : cw.toNat / 2 ^ 28 = n) :
    opField cw = BitVec.ofNat 4 n := by rw [opField_eq, h]

/-- CONSTRUCT. -/
theorem HeaderRoundTrip.construct (pin : PinIndex) (seg : SegCount) :
    HeaderRoundTrip.Statement (.construct pin seg) := by
  refine ⟨rfl, fun c cw _ h => ?_⟩
  have hp := pin.isLt
  have hg := seg.isLt
  have hn : (1#4 ++ 0#4 ++ seg ++ pin).toNat = 2 ^ 28 + seg.toNat * 2 ^ 8 + pin.toNat := by
    simp only [append_toNat]; simp; omega
  simp only [encodeHeader, Option.some.injEq] at h
  subst h
  unfold decodeHeader
  rw [decodeHeader_of_op (n := 1) (by rw [hn]; omega), pinField_eq, segField_eq, hn]
  show Instr.construct _ _ = _
  congr 1 <;> apply BitVec.eq_of_toNat_eq <;> rw [BitVec.toNat_ofNat] <;> omega

/-- CLEAR. -/
theorem HeaderRoundTrip.clear : HeaderRoundTrip.Statement .clear := by
  refine ⟨rfl, fun c cw _ h => ?_⟩
  simp only [encodeHeader, Option.some.injEq] at h
  subst h
  decide

/-- SEND. -/
theorem HeaderRoundTrip.send (word : ColorWord) : HeaderRoundTrip.Statement (.send word) := by
  refine ⟨rfl, fun c cw _ h => ?_⟩
  have hw := word.isLt
  have hn : (3#4 ++ 0#4 ++ word).toNat = 3 * 2 ^ 28 + word.toNat := by simp only [append_toNat]; simp
  simp only [encodeHeader, Option.some.injEq] at h
  subst h
  unfold decodeHeader
  rw [decodeHeader_of_op (n := 3) (by rw [hn]; omega), colorField_eq, hn]
  show Instr.send _ = _
  congr 1; apply BitVec.eq_of_toNat_eq; rw [BitVec.toNat_ofNat]; omega

/-- SENDPATTERN. -/
theorem HeaderRoundTrip.sendPattern (count : WordCount) : HeaderRoundTrip.Statement (.sendPattern count) := by
  refine ⟨rfl, fun c cw _ h => ?_⟩
  have hw := count.isLt
  have hn : (4#4 ++ 0#4 ++ count).toNat = 4 * 2 ^ 28 + count.toNat := by simp only [append_toNat]; simp
  simp only [encodeHeader, Option.some.injEq] at h
  subst h
  unfold decodeHeader
  rw [decodeHeader_of_op (n := 4) (by rw [hn]; omega), countField_eq, hn]
  show Instr.sendPattern _ = _
  congr 1; apply BitVec.eq_of_toNat_eq; rw [BitVec.toNat_ofNat]; omega

/-- A reserved header. -/
theorem HeaderRoundTrip.reserved (op : BitVec 4) : HeaderRoundTrip.Statement (.reserved op) := by
  refine ⟨rfl, fun c cw hw h => ?_⟩
  simp only [encodeHeader, Option.some.injEq] at h
  subst h
  have : reservedOp op = true := hw
  clear hw
  revert op
  decide

/-! The micro-operations have no header. -/

theorem HeaderRoundTrip.pinSel (pin : PinIndex) : HeaderRoundTrip.Statement (.pinSel pin) :=
  ⟨rfl, fun _ _ _ h => nomatch h⟩
theorem HeaderRoundTrip.driveHigh : HeaderRoundTrip.Statement .driveHigh := ⟨rfl, fun _ _ _ h => nomatch h⟩
theorem HeaderRoundTrip.driveLow : HeaderRoundTrip.Statement .driveLow := ⟨rfl, fun _ _ _ h => nomatch h⟩
theorem HeaderRoundTrip.hold (n : Nat) : HeaderRoundTrip.Statement (.hold n) := ⟨rfl, fun _ _ _ h => nomatch h⟩
theorem HeaderRoundTrip.encodeBit1 : HeaderRoundTrip.Statement .encodeBit1 := ⟨rfl, fun _ _ _ h => nomatch h⟩
theorem HeaderRoundTrip.encodeBit0 : HeaderRoundTrip.Statement .encodeBit0 := ⟨rfl, fun _ _ _ h => nomatch h⟩
theorem HeaderRoundTrip.transmit (word : ColorWord) : HeaderRoundTrip.Statement (.transmit word) :=
  ⟨rfl, fun _ _ _ h => nomatch h⟩
theorem HeaderRoundTrip.reset : HeaderRoundTrip.Statement .reset := ⟨rfl, fun _ _ _ h => nomatch h⟩
theorem HeaderRoundTrip.irqMask : HeaderRoundTrip.Statement .irqMask := ⟨rfl, fun _ _ _ h => nomatch h⟩
theorem HeaderRoundTrip.irqRestore : HeaderRoundTrip.Statement .irqRestore := ⟨rfl, fun _ _ _ h => nomatch h⟩

end Sys2Proof.Laws
end

