-- ==== Sys2Proof/Tests/Slice0.lean ====
section
/-! SUPPORT. The model's own tests, their expected values from spec/95_test_vectors.md (named in each comment), and for every
obligation with hypotheses a witness that meets them. -/

namespace Sys2Proof.Tests

open Sys2Proof Sys2Proof.Machine

/-! ## Helpers -/

/-- The state a run answers with. -/
def endOf (o : Host.Outcome State Fault Refusal) : State :=
  match o with
  | .next t => t
  | .fault f => nomatch f
  | .refused _ => State.reset

/-- A run answers with a next state. -/
def answers (o : Host.Outcome State Fault Refusal) : Bool :=
  match o with
  | .next _ => true
  | .fault _ => false
  | .refused _ => false

theorem next_of_answers {o : Host.Outcome State Fault Refusal} (h : answers o = true) : ∃ t, o = .next t := by
  cases o with
  | next t => exact ⟨t, rfl⟩
  | fault f => cases f
  | refused r => cases h

/-- An idle block on pin 3, the line low, bits 0 and 6 of PORT set by someone else, in cycle `n` with IE = `ie`. -/
def pin3 (n : Nat) (ie : Bool) (hs : List HostWord) (ps : List PinIn) : State :=
  { State.reset with
    pin := 3#8, pinmask := 0x08#256, segcount := 1#16, port := 0x41#256, ie := ie, cycle := n, host := hs, pins := ps }

/-- `n` cycles like `p`. -/
def cyclesOf (n : Nat) (p : PinIn) : List PinIn := List.replicate n p

/-- Short durations: T1H = 3, T0H = 1, T0L = 1, T_RST = 2, the rest as P-REF. By 70_reset_and_hazards.md R144: W(w) =
96 + popcount(w), RESET costs 3, H(1) = 4, H(0) = 2, L(1) = 1, L(0) = 2. -/
def quick : Params := { Params.pRef with t1h := 3, t0h := 1, t0l := 1, tResetNs := 125 }

/-- `pin3` with the short durations. -/
def small (ie : Bool) (hs : List HostWord) (ps : List PinIn) : State := { pin3 0 ie hs ps with cfg := quick }

/-! ## WellFormed -/

theorem test_reserved_op_must_be_reserved : (Instr.reserved 1#4).wellFormed Params.pRef = false := by decide
theorem test_reserved_op_four_is_a_command : (Instr.reserved 4#4).wellFormed Params.pRef = false := by decide
theorem test_reserved_op_five : (Instr.reserved 5#4).wellFormed Params.pRef = true := by decide
theorem test_hold_takes_no_other_duration : (Instr.hold 5).wellFormed Params.pRef = false := by decide
theorem test_hold_takes_a_configured_duration : (Instr.hold 384).wellFormed Params.pRef = true := by decide

/-! ## Decoding: words written out from 30_encoding.md R53 to R57, field by field -/

/-- op 0001, reserved 1111, seg 0000000000000010, pin 00000011. -/
theorem test_decode_construct : decodeHeader 0b0001_1111_0000000000000010_00000011#32 = .construct 3#8 2#16 := by decide
/-- op 0010, 28 reserved bits. -/
theorem test_decode_clear : decodeHeader 0b0010_1000000000000000000000000001#32 = .clear := by decide
/-- op 0011, reserved 0000, word 100000000000000000000001. -/
theorem test_decode_send : decodeHeader 0b0011_0000_100000000000000000000001#32 = .send 0x800001#24 := by decide
/-- op 0100, reserved 1111, count 000000000000000000000010. -/
theorem test_decode_sendPattern : decodeHeader 0b0100_1111_000000000000000000000010#32 = .sendPattern 2#24 := by decide
/-- op 0000 and op 1111. -/
theorem test_decode_reserved :
    decodeHeader 0b0000_0000000000000000000000000000#32 = .reserved 0#4 ∧
      decodeHeader 0b1111_1111111111111111111111111111#32 = .reserved 15#4 := by decide
/-- Ignored 10101011, word 0x123456. -/
theorem test_payload_word : colorField 0b10101011_000100100011010001010110#32 = 0x123456#24 := by decide
/-- B1: after 0x40000002 the word 0x20000000 is payload, not a CLEAR. -/
theorem test_payload_is_not_a_header :
    decodeCommand [0x40000002#32, 0x20000000#32, 0x0000FF00#32, 0x20000000#32] =
      .ok (⟨.sendPattern 2#24, [0x000000#24, 0x00FF00#24]⟩, [0x20000000#32]) := by rfl
/-- R59 to R64: what no micro-operation has. -/
theorem test_reset_has_no_header : encodeHeader .reset = none := by decide

/-! ## One step of each instruction -/

section

-- one kernel evaluation at a time
set_option Elab.async false

/-- B7, `construct 3, 2`. -/
theorem test_construct :
    (let t := endOf (step { State.reset with port := 0x41#256, host := [⟨0, 0x10000203#32⟩] })
     (t.pin, t.pinmask, t.segcount, t.port, t.cycle, disabled t)) = (3#8, 0x08#256, 2#16, 0x41#256, 387, false) := by
  decide +kernel
/-- B7, `construct 8, 2`, with short durations: the null mask, in the same time. -/
theorem test_construct_out_of_range :
    (let t := endOf (step (small false [⟨0, 0x10000208#32⟩] []))
     (t.pin, t.pinmask, t.port, t.cycle, disabled t)) = (8#8, 0#256, 0x41#256, 5, true) := by decide +kernel
/-- B8, SEGCOUNT = 1 under REFERENCE, with short durations: 1 + 3 + 96 cycles. -/
theorem test_clear :
    (let s := small true [⟨0, 0x20000000#32⟩] []
     let t := endOf (step s)
     (t.cycle, t.ie, pulses (lineLevels (passed s t)))) =
      (100, true, List.replicate 23 ⟨2, some 2⟩ ++ [⟨2, none⟩]) := by decide +kernel
/-- B8, SEGCOUNT = 0 under UNIFORM, with short durations: IE is 0 in the cycle of IRQRESTORE only. -/
theorem test_clear_uniform :
    (let s := { small true [⟨0, 0x20000000#32⟩] [] with segcount := 0#16, cfg := { quick with maskPolicy := .uniform } }
     let t := endOf (step s)
     (t.cycle, t.ie, t.trace.reverse.map (·.ieOut))) = (6, true, [true, true, true, true, true, false]) := by decide +kernel
/-- B5, 0x800000, with short durations. -/
theorem test_send :
    (let s := small false [⟨0, 0x30800000#32⟩] []
     let t := endOf (step s)
     (t.cycle, pulses (lineLevels (passed s t)))) = (98, List.replicate 23 ⟨2, some 2⟩ ++ [⟨4, none⟩]) := by decide +kernel
/-- B12, the second row, with short durations: two stalled cycles with IE = 1 make a `0` as long as a `1`. -/
theorem test_send_stalled :
    (let s := small true [⟨0, 0x30000000#32⟩] (cyclesOf 2 {} ++ cyclesOf 2 { stall := true })
     let t := endOf (step s)
     (t.cycle, (pulses (lineLevels (passed s t))).head?)) = (99, some ⟨4, some 2⟩) := by decide +kernel
/-- B10, the empty pattern. -/
theorem test_sendPattern_empty :
    (let t := endOf (step (pin3 387 true [⟨0, 0x40000000#32⟩] []))
     (t.cycle, t.ie, t.trace.reverse.map (·.ieOut))) = (390, true, [true, true, false]) := by decide
/-- B11, with short durations: TRANSMIT(w0) in cycles 3 to 106, w1 first presented in cycle 111, five cycles in FETCH, so
that the gap between the words is 1 + 5; TRANSMIT(w1) in cycles 112 to 215, IRQRESTORE in 216. -/
theorem test_sendPattern_underrun :
    (let s := small true [⟨0, 0x40000002#32⟩, ⟨0, 0x00FF0000#32⟩, ⟨108, 0x0000FF00#32⟩] []
     let t := endOf (step s)
     (t.cycle, t.ie, ((pulses (lineLevels (passed s t))).drop 23).head?)) = (217, true, some ⟨4, some 6⟩) := by
  decide +kernel
/-- B13. -/
theorem test_reserved :
    (let t := endOf (step (pin3 387 false [⟨0, 0x50000000#32⟩] []))
     (t.phase, busy t, t.port, t.cycle)) = (.idle, false, 0x41#256, 388) := by decide
/-- B2, pins 7 and 8. -/
theorem test_pinSel :
    (endOf (exec (.pinSel 7#8) State.reset)).pinmask = 0x80#256 ∧
      (endOf (exec (.pinSel 8#8) (pin3 0 false [] []))).pinmask = 0#256 := by decide
/-- B3. -/
theorem test_driveHigh : (endOf (exec .driveHigh (pin3 0 false [] []))).port = 0x49#256 := by decide
/-- B3: a bit the environment sets in the same cycle. -/
theorem test_driveHigh_shared : (endOf (exec .driveHigh (pin3 0 false [] [{ envSet := 0x02#256 }]))).port = 0x4B#256 := by
  decide
/-- B3. -/
theorem test_driveLow : (endOf (exec .driveLow { pin3 0 false [] [] with port := 0x49#256 })).port = 0x41#256 := by decide
/-- R71: HOLD(28) entered in cycle 100 with IE = 0 occupies cycles 100 to 127. -/
theorem test_hold : (endOf (exec (.hold 28) (pin3 100 false [] []))).cycle = 128 := by decide +kernel
/-- B4, entered in cycle 100. -/
theorem test_encodeBit1 :
    (let s := pin3 100 false [] []
     let t := endOf (exec .encodeBit1 s)
     (t.cycle, pulses (lineLevels (passed s t)))) = (130, [⟨29, none⟩]) := by decide +kernel
/-- B4, entered in cycle 100. -/
theorem test_encodeBit0 :
    (let s := pin3 100 false [] []
     let t := endOf (exec .encodeBit0 s)
     (t.cycle, levelRuns (lineLevels (passed s t)))) = (114, [(false, 1), (true, 10), (false, 3)]) := by decide +kernel
/-- R78, TRANSMIT(0x000001), with short durations. -/
theorem test_transmit :
    (let s := small false [] []
     let t := endOf (exec (.transmit 1#24) s)
     (t.cycle, (pulses (lineLevels (passed s t))).take 2)) = (97, [⟨4, some 1⟩, ⟨2, some 2⟩]) := by decide +kernel
/-- R84, RESET, with short durations: `port_clr` in the first of three cycles. -/
theorem test_reset :
    (let t := endOf (exec .reset (small false [] []))
     (t.cycle, t.trace.reverse.map (·.portClr))) = (3, [0x08#256, 0#256, 0#256]) := by decide +kernel
/-- B10, the fourth row: IRQMASK in cycle 388 delayed by one stall. -/
theorem test_irqMask :
    (let t := endOf (exec .irqMask (pin3 388 true [] [{ stall := true }]))
     (t.cycle, t.ie, t.ieSaved)) = (390, false, true) := by decide
/-- R104: IRQRESTORE in cycle 1318. -/
theorem test_irqRestore :
    (let t := endOf (exec .irqRestore { pin3 1318 false [] [] with ieSaved := true })
     (t.cycle, t.ie)) = (1319, true) := by decide
/-- B16: hardware reset in the middle of a pulse. -/
theorem test_hardware_reset :
    (let t := endOf (step
      { pin3 420 false [] [{ rst := true }] with port := 0x08#256, phase := .bitHigh, cmd := .sendPattern, dly := 8 })
     (t.phase, t.pinmask, t.segcount, t.ie, disabled t, t.port, t.cycle)) =
      (.idle, 0#256, 0#16, false, true, 0x08#256, 0) := by decide
/-- B15, 1 MHz. -/
theorem test_rescaled :
    (let c := { Params.pRef with fClkHz := 1000000 }
     (c.high true, c.high false, c.low false, c.low true, c.tRst)) = (2, 1, 1, 0, 24) := by decide
/-- B6, 12345678 Hz. -/
theorem test_tRst_rounds_up : { Params.pRef with fClkHz := 12345678 : Params }.tRst = 297 := by decide

end

/-! ## The assembler (B1, R62) -/

theorem test_parse_construct :
    (parseLine "construct 3, 0x2 ; boot".toList).bind (assembleLine Params.pRef) = some [0x10000203#32] := by decide +kernel
theorem test_parse_default_segments :
    (parseLine "construct 9".toList).bind (assembleLine Params.pRef) = some [0x10000A09#32] := by decide +kernel
theorem test_parse_sendpattern :
    (parseLine "sendpattern 0xFF0000, 0x00FF00".toList).bind (assembleLine Params.pRef) =
      some [0x40000002#32, 0x00FF0000#32, 0x0000FF00#32] := by decide +kernel
theorem test_parse_rejects : (parseLine "construct 256, 1".toList).bind (assembleLine Params.pRef) = none := by decide +kernel

/-! ## Witnesses: the hypotheses of each obligation, met together -/

/-- A schedule with stalls and with another owner of bit 1 of PORT at work. -/
def busyPins : List PinIn := [{ stall := true }, { envSet := 0x02#256 }, { stall := true, envClr := 0x02#256 }]

/-- An idle block on pin 3 with IE = 1 and that schedule. -/
def stalledAt3 : State := pin3 0 true [] busyPins

/-- The same with IE = 0. -/
def maskedAt3 : State := pin3 0 false [] busyPins

/-- In the middle of SENDPATTERN, in the last cycle of DRIVEHIGH, a payload word presented. -/
def rising : State :=
  { pin3 0 false [⟨0, 0x00123456#32⟩] [] with
    phase := .bitRise, cmd := .sendPattern, dly := 1, wcnt := 2#24, fcnt := 1#24, word := 1#24, bitmask := 1#24 }

/-- Waiting in FETCH for a word that does not come. -/
def waiting : State := { pin3 0 false [] busyPins with phase := .fetch, cmd := .sendPattern, wcnt := 1#24, fcnt := 1#24 }

/-- Every hypothesis of the statements about calm schedules, IE = 1 and stalls included. -/
theorem stalledAt3_calm : stalledAt3.cfg.legal = true ∧ calm stalledAt3.pinmask stalledAt3.pins = true ∧
    noReset stalledAt3.pins = true ∧ untouched 0 stalledAt3.pins = true ∧ untouched 1 stalledAt3.pins = false := by decide

theorem maskedAt3_owned : LineOwned maskedAt3 := ⟨by decide, by decide, by decide⟩

theorem maskedAt3_calm : maskedAt3.cfg.legal = true ∧ calm maskedAt3.pinmask maskedAt3.pins = true ∧
    neverStalls maskedAt3 = true := by decide

/-- IE = 1 and no stall scheduled. -/
theorem enabled_owned : neverStalls (pin3 0 true [] [{ envSet := 0x02#256 }]) = true ∧
    calm (pin3 0 true [] []).pinmask [{ envSet := 0x02#256 }] = true := by decide

theorem witness_HeaderFieldsByArithmetic :
    (0x1FFFFFFF#32).toNat / 2 ^ 28 = 1 ∧ (0x20000000#32).toNat / 2 ^ 28 = 2 ∧ (0x3FFFFFFF#32).toNat / 2 ^ 28 = 3 ∧
      (0x4FFFFFFF#32).toNat / 2 ^ 28 = 4 ∧ (0x0FFFFFFF#32).toNat / 2 ^ 28 = 0 ∧ 5 ≤ (0x50000000#32).toNat / 2 ^ 28 ∧
      5 ≤ (0xFFFFFFFF#32).toNat / 2 ^ 28 := by decide

theorem witness_CommandRoundTrip :
    let cmd : Command := ⟨.sendPattern 2#24, [0xFFFFFF#24, 0#24]⟩
    cmd.instr.wellFormed Params.pRef = true ∧ cmd.instr.isHeader = true ∧ cmd.payload.length = payloadCount cmd.instr := by
  decide

theorem witness_ReservedBitsAreNotExamined :
    0x1F000203#32 &&& 0xF0FFFFFF#32 = 0x10000203#32 &&& 0xF0FFFFFF#32 ∧
      0x2FFFFFFF#32 &&& 0xF0000000#32 = 0x20000000#32 ∧
      opField 0x5FFFFFFF#32 = opField 0x50000000#32 ∧ reservedOp (opField 0x5FFFFFFF#32) = true ∧
      reservedOp (opField 0#32) = true := by decide

theorem witness_FramingFollowsTheHeader :
    (2 = if (0x40000002#32).toNat / 2 ^ 28 = 4 then (0x40000002#32).toNat % 2 ^ 24 else 0) ∧
      2 ≤ [0#32, 0x20000000#32].length ∧ [0x20000000#32].length < 2 ∧
      (0 = if (0x20000002#32).toNat / 2 ^ 28 = 4 then (0x20000002#32).toNat % 2 ^ 24 else 0) ∧
      0 ≤ ([] : List CommandWord).length := by decide

theorem witness_MicroOperationsHaveNoEncoding : Instr.reset.isHeader = false := by decide

theorem witness_AssemblerWords : 0xFFFFFFFF < 2 ^ 32 := by decide

theorem witness_DurationsAreRescaled :
    let c := { Params.pRef with fClkHz := 8000000 }
    Params.pRef.legal = true ∧ Params.pRef.fClkHz = Params.pRef.fCalHz ∧ c.legal = true ∧ c.fClkHz ≠ c.fCalHz ∧
      2 * 9 * c.fClkHz < (2 * 5 + 1) * c.fCalHz ∧ (2 * 5) * c.fCalHz ≤ 2 * 9 * c.fClkHz + c.fCalHz ∧ 9 = c.t0h := by decide

theorem witness_HardwareResetFromAnyState :
    let s := { rising with pins := [{ rst := true, stall := true, envSet := 0x02#256 }] }
    (nowPins s).rst = true ∧ secondWriter s = false ∧ untouched 3 s.pins = true := by decide

theorem witness_StepRunsTheAcceptedHeader :
    let s := pin3 0 true [⟨0, 0x20000000#32⟩] [{ ieWe := true }]
    s.phase = .idle ∧ s.host = ⟨0, 0x20000000#32⟩ :: [] ∧ secondWriter s = false ∧ (nowPins s).rst = false ∧
      advances s = true := by decide

theorem witness_FetchedWordRuns : 2 ^ 32 - 1 < 2 ^ 32 := by decide

theorem witness_IdleCycleWritesIeOnly :
    let s := pin3 0 false [⟨1, 0x20000000#32⟩] [{ ieWe := true, ieData := true }]
    s.phase = .idle ∧ presented s = none ∧ secondWriter s = false ∧ (nowPins s).rst = false ∧ advances s = true := by
  decide

theorem witness_IeWriteIgnoredWhenBusy : waiting.pins = { stall := true } :: busyPins.tail ∧ waiting.phase ≠ .idle := by
  decide

theorem witness_StalledCycleFreezesTheBlock :
    stalledAt3.ie = true ∧ (nowPins stalledAt3).stall = true ∧ secondWriter stalledAt3 = false ∧
      (nowPins stalledAt3).rst = false ∧ maskedAt3.ie = false := by decide

/-- A payload word presented in the last cycle of DRIVEHIGH. -/
theorem witness_CommandPortHandshake :
    (∃ t, clock rising = .next t) ∧ presented rising = some 0x00123456#32 ∧ pulseSet rising ≠ 0#256 ∧
      pulseClr { rising with phase := .bitFall } ≠ 0#256 := ⟨next_of_answers (by decide), by decide⟩

/-- Nothing presented. -/
theorem witness_CommandPortHandshake_idle : (∃ t, clock waiting = .next t) ∧ presented waiting = none :=
  ⟨next_of_answers (by decide), by decide⟩

theorem witness_StepNeverFaults : undriven [{ stall := true }, ({ rst := true } : PinIn)] = true := by decide

theorem witness_CommandStreamReadInOrder : ∃ t, step (pin3 0 true [⟨0, 0x40000000#32⟩] []) = .next t :=
  next_of_answers (by decide)

theorem witness_StepIsARunOfClockCycles :
    (∃ t, step (pin3 0 true [⟨0, 0x40000000#32⟩] []) = .next t) ∧
      step { pin3 0 true [⟨0, 0x40000000#32⟩] [] with pins := [{}, { envSet := 0x08#256 }] } = .refused .secondWriter :=
  ⟨next_of_answers (by decide), rfl⟩

theorem witness_BusyFromAcceptanceToTheEnd :
    let s := pin3 0 true [⟨0, 0x40000000#32⟩] []
    acceptedHeader s = some 0x40000000#32 ∧ noReset s.pins = true ∧ ∃ t, step s = .next t :=
  ⟨by decide, by decide, next_of_answers (by decide)⟩

theorem witness_BusyFromAcceptanceToTheEnd_reserved :
    let s := pin3 0 true [⟨0, 0xF0000001#32⟩] []
    acceptedHeader s = some 0xF0000001#32 ∧ reservedOp (opField 0xF0000001#32) = true ∧ ∃ t, step s = .next t :=
  ⟨by decide, by decide, next_of_answers (by decide)⟩

theorem witness_ReservedHeaderIsDropped :
    acceptedHeader (pin3 0 true [⟨0, 0x00000000#32⟩] []) = some 0x00000000#32 ∧ reservedOp (opField 0x00000000#32) = true ∧
      reservedOp (opField 0x5FFFFFFF#32) = true := by decide

theorem witness_PinSelSelectsTheMask :
    (∃ t, exec (.pinSel 7#8) stalledAt3 = .next t) ∧ ∃ t, exec (.pinSel 8#8) stalledAt3 = .next t :=
  ⟨⟨_, rfl⟩, ⟨_, rfl⟩⟩

theorem witness_DriveOperationsSetTheLine : stalledAt3.cfg.legal = true ∧
    calm stalledAt3.pinmask stalledAt3.pins = true ∧ stallsEnd stalledAt3 = true ∧ untouched 3 stalledAt3.pins = true := by decide

theorem witness_OnlyTheSelectedBitIsPulsed :
    (∃ t, exec .driveHigh stalledAt3 = .next t) ∧ ∃ t, exec (.hold 2) { stalledAt3 with pins := [{}, { rst := true }] } = .next t :=
  ⟨next_of_answers (by decide), next_of_answers (by decide)⟩

theorem witness_DisabledLineIsLeftAlone :
    let s := { stalledAt3 with pinmask := 0#256 }
    writesConfiguration .driveHigh = false ∧ s.pinmask = 0#256 ∧ (∃ t, exec .driveHigh s = .next t) ∧
      untouched 3 s.pins = true := ⟨by decide, by decide, next_of_answers (by decide), by decide⟩

theorem witness_TimingIgnoresTheLine :
    let s := pin3 0 true [] [{ stall := true }, { rst := true }]
    let s' := { s with pin := 9#8, pinmask := 0#256, port := 0xFF#256 }
    SameButLine s s' ∧ undriven s.pins = true ∧ ∃ t, exec (.hold 2) s = .next t :=
  ⟨rfl, by decide, next_of_answers (by decide)⟩

theorem witness_HoldTakesItsCycles : calm stalledAt3.pinmask stalledAt3.pins = true ∧ stallsEnd stalledAt3 = true := by decide

theorem witness_EncodeBitTakesItsCycles :
    stalledAt3.cfg.legal = true ∧ calm stalledAt3.pinmask stalledAt3.pins = true ∧ stallsEnd stalledAt3 = true := by decide

theorem witness_EncodeBitWaveform : (maskedAt3.cfg.legal = true ∧ calm maskedAt3.pinmask maskedAt3.pins = true ∧
    neverStalls maskedAt3 = true) ∧ LineOwned maskedAt3 := ⟨maskedAt3_calm, maskedAt3_owned⟩

theorem witness_TransmitTakesItsCycles :
    stalledAt3.cfg.legal = true ∧ calm stalledAt3.pinmask stalledAt3.pins = true ∧ stallsEnd stalledAt3 = true := by decide

theorem witness_TransmitSendsTheBitsInOrder : (maskedAt3.cfg.legal = true ∧ calm maskedAt3.pinmask maskedAt3.pins = true ∧
    neverStalls maskedAt3 = true) ∧ LineOwned maskedAt3 := ⟨maskedAt3_calm, maskedAt3_owned⟩

theorem witness_LineOperationsFrame :
    isLineOperation .driveHigh = true ∧ noReset stalledAt3.pins = true ∧ (∃ t, exec .driveHigh stalledAt3 = .next t) ∧
      stalledAt3.cmd ≠ .sendPattern ∧ ∀ w, Instr.driveHigh ≠ .transmit w :=
  ⟨rfl, by decide, next_of_answers (by decide), by decide, fun _ h => nomatch h⟩

theorem witness_ResetHoldsTheLineLow :
    stalledAt3.cfg.legal = true ∧ calm stalledAt3.pinmask stalledAt3.pins = true ∧ stallsEnd stalledAt3 = true := by decide

theorem witness_IrqMaskSavesAndClears :
    stalledAt3.cfg.legal = true ∧ calm stalledAt3.pinmask stalledAt3.pins = true ∧ stallsEnd stalledAt3 = true := by decide

theorem witness_IrqRestorePutsBack :
    maskedAt3.cfg.legal = true ∧ calm maskedAt3.pinmask maskedAt3.pins = true ∧ stallsEnd maskedAt3 = true := by decide

theorem witness_MaskedRunIgnoresStalls :
    maskedAt3.ie = false ∧ (∃ t, exec .driveHigh maskedAt3 = .next t) ∧
      exec .driveHigh { maskedAt3 with pins := [{ stall := true, envSet := 0x08#256 }] } = .refused .secondWriter :=
  ⟨rfl, next_of_answers (by decide), rfl⟩

/-- From pin 3 to pin 7, and to a pin that PORT does not have. -/
theorem witness_ConstructConfiguresAndResets :
    stalledAt3.cfg.legal = true ∧ calm stalledAt3.pinmask stalledAt3.pins = true ∧ stallsEnd stalledAt3 = true ∧
      calm (maskOfPin stalledAt3.cfg.portWidth 7#8) stalledAt3.pins = true ∧
      calm (maskOfPin stalledAt3.cfg.portWidth 8#8) stalledAt3.pins = true := by decide

/-- Under either policy, at IE = 1 and IE = 0. -/
theorem witness_ClearResetsAndSendsZeros :
    stalledAt3.cfg.legal = true ∧ calm stalledAt3.pinmask stalledAt3.pins = true ∧ stallsEnd stalledAt3 = true ∧ stalledAt3.cfg.maskPolicy = .reference ∧
      maskedAt3.ie = false ∧ { Params.pRef with maskPolicy := .uniform : Params }.legal = true := by decide

theorem witness_ClearWaveform : (maskedAt3.cfg.legal = true ∧ calm maskedAt3.pinmask maskedAt3.pins = true ∧
    neverStalls maskedAt3 = true) ∧ LineOwned maskedAt3 := ⟨maskedAt3_calm, maskedAt3_owned⟩

theorem witness_ClearTwiceIsIdentical : (maskedAt3.cfg.legal = true ∧ calm maskedAt3.pinmask maskedAt3.pins = true ∧
    neverStalls maskedAt3 = true) ∧ LineOwned maskedAt3 := ⟨maskedAt3_calm, maskedAt3_owned⟩

theorem witness_SendTransmitsOneWord :
    stalledAt3.cfg.legal = true ∧ calm stalledAt3.pinmask stalledAt3.pins = true ∧ stallsEnd stalledAt3 = true ∧ stalledAt3.cfg.maskPolicy = .reference ∧
      maskedAt3.ie = false := by decide

theorem witness_SendWaveform : (maskedAt3.cfg.legal = true ∧ calm maskedAt3.pinmask maskedAt3.pins = true ∧
    neverStalls maskedAt3 = true) ∧ LineOwned maskedAt3 := ⟨maskedAt3_calm, maskedAt3_owned⟩

theorem witness_SendPatternCompletes :
    let s := { stalledAt3 with host := [⟨5000, 0xAB123456#32⟩, ⟨0, 0x20000000#32⟩] }
    s.cfg.legal = true ∧ calm s.pinmask s.pins = true ∧ stallsEnd s = true ∧ Supplies s [0x123456#24] [⟨0, 0x20000000#32⟩] ∧
      [0x123456#24].length = (1#24).toNat :=
  ⟨by decide, by decide, by decide, ⟨[⟨5000, 0xAB123456#32⟩], rfl, by decide⟩, by decide⟩

/-- The longest delays that are still in time: C_SYNC for the first word; for the third, whose waiting starts 335 cycles before TRANSMIT(w_1)
does, 335 + W(w_1) - 1 = 1054. From the second cycle on every cycle is stalled. -/
theorem witness_SendPatternWaveform :
    let payload : List HostWord := [⟨1, 0#32⟩, ⟨0, 0x00FFFFFF#32⟩, ⟨1054, 0#32⟩]
    let s : State := { pin3 0 true [] [{}] with host := payload ++ [⟨0, 0x20000000#32⟩], stallAfter := true }
    s.cfg.legal = true ∧ calm s.pinmask s.pins = true ∧ payload.length = (3#24).toNat ∧ inTime s.cfg payload = true ∧
      (∀ k, k < s.cfg.cSync → goesOn s k = true) := by decide

/-- One cycle later is too late. -/
theorem test_inTime_boundary :
    inTime Params.pRef [⟨1, 0#32⟩, ⟨0, 0x00FFFFFF#32⟩, ⟨1055, 0#32⟩] = false ∧ inTime Params.pRef [⟨1, 0#32⟩, ⟨336, 0#32⟩] = false ∧
      inTime Params.pRef [⟨2, 0#32⟩] = false := by decide

theorem witness_SendPatternWaveform_owned : LineOwned { pin3 0 true [⟨1, 0#32⟩] [{}] with stallAfter := true } :=
  ⟨by decide, by decide, by decide⟩

/-- A run that completes, and one that ends waiting. -/
theorem witness_SendPatternMasksInterrupts :
    stalledAt3.cfg.legal = true ∧ noReset stalledAt3.pins = true ∧ stallsEnd stalledAt3 = true ∧ (∃ t, exec (.sendPattern 0#24) stalledAt3 = .next t ∧ t.phase = .idle) ∧
      ∃ t, exec (.sendPattern 1#24) stalledAt3 = .next t ∧ t.phase ≠ .idle := by
  refine ⟨by decide, by decide, by decide, ?_, ?_⟩
  · obtain ⟨t, ht⟩ := next_of_answers (o := exec (.sendPattern 0#24) stalledAt3) (by decide)
    exact ⟨t, ht, by
      have : (endOf (exec (.sendPattern 0#24) stalledAt3)).phase = .idle := by decide
      rwa [ht] at this⟩
  · obtain ⟨t, ht⟩ := next_of_answers (o := exec (.sendPattern 1#24) stalledAt3) (by decide)
    exact ⟨t, ht, by
      have : (endOf (exec (.sendPattern 1#24) stalledAt3)).phase ≠ .idle := by decide
      rwa [ht] at this⟩

theorem witness_MissingPayloadLeavesFetch :
    let s := { stalledAt3 with host := [⟨0, 0x123456#32⟩] }
    s.cfg.legal = true ∧ calm s.pinmask s.pins = true ∧ stallsEnd s = true ∧ Supplies s [0x123456#24] [] ∧
      [0x123456#24].length < (2#24).toNat := ⟨by decide, by decide, by decide, ⟨[⟨0, 0x123456#32⟩], rfl, by decide⟩, by decide⟩

theorem witness_MissingPayloadHangs :
    waiting.phase = .fetch ∧ waiting.cmd = .sendPattern ∧ waiting.ie = false ∧ waiting.host = [] ∧
      calm waiting.pinmask waiting.pins = true := by decide

theorem witness_ConfigurationIsImmutable :
    writesConfiguration .driveHigh = false ∧ noReset stalledAt3.pins = true ∧ (∃ t, exec .driveHigh stalledAt3 = .next t) ∧
      rising.phase ≠ .cfg ∧ acceptedHeader rising = none ∧ ∃ t, step rising = .next t :=
  ⟨rfl, by decide, next_of_answers (by decide), by decide, by decide, next_of_answers (by decide)⟩

theorem witness_ConfigurationIsImmutable_construct :
    stallsEnd (small true [] busyPins) = true ∧ noReset (small true [] busyPins).pins = true ∧ ∃ t, exec (.construct 3#8 2#16) (small true [] busyPins) = .next t :=
  ⟨by decide, by decide, next_of_answers (by decide +kernel)⟩

/-- The invariant in the middle of a masked transmission, the line about to rise. -/
theorem rising_inv : Inv rising :=
  ⟨by decide, .inr (by decide), by decide, ⟨by decide, by decide, by decide, by decide⟩, fun _ _ => rfl, by decide⟩

/-- The invariant of an idle block on pin 3. -/
theorem idle_inv : Inv (pin3 0 false [] []) :=
  ⟨by decide, .inr (by decide), by decide, ⟨by decide, by decide, by decide⟩, fun _ h => by simp [pin3, State.reset, Phase.isBit] at h,
    by decide⟩

/-- In the middle of a command, and in the cycle of acceptance of a header. -/
theorem witness_EveryStepKeepsTheInvariant :
    Inv rising ∧ (∃ t, step rising = .next t) ∧ ∃ t, clock { pin3 0 false [] [] with host := [⟨0, 0x20000000#32⟩] } = .next t :=
  ⟨rising_inv, next_of_answers (by decide), next_of_answers (by decide)⟩

theorem witness_EndOfARun :
    Inv (pin3 0 false [] []) ∧ (∃ t, Host.Core.run Sys2Proof.core 1 (pin3 0 false [] []) = .next t ∧ RunEnded t ∧ disabled t = false) :=
  ⟨idle_inv, ⟨_, rfl, ⟨rfl, rfl⟩, by decide⟩⟩

/-- Stalls in RESET, in IRQMASK and in the words. -/
theorem witness_UniformWordsAreExact :
    let s := { pin3 0 true [] [{ stall := true }, {}, { stall := true }, {}, { stall := true }] with
      cfg := { Params.pRef with maskPolicy := .uniform } }
    (s.cfg.legal = true ∧ calm s.pinmask s.pins = true ∧ stallsEnd s = true ∧ s.cfg.maskPolicy = .uniform) ∧ LineOwned s :=
  ⟨by decide, by decide, by decide, by decide⟩

/-- In a pulse, the line high. -/
def stuck : State := { rising with ie := true, phase := .bitHigh, port := 0x49#256, pins := [], stallAfter := true }

theorem witness_EndlessStallHangs : hung stuck = true := by decide

/-- 70_reset_and_hazards.md R138: five cycles later everything is as it was. -/
theorem test_endless_stall :
    let t := endOf (Host.Core.run Sys2Proof.core 5 stuck)
    t.phase = .bitHigh ∧ t.dly = stuck.dly ∧ lineNow t = some true ∧ t.cycle = stuck.cycle + 5 := by decide

theorem witness_EndlessStallCutsShort :
    let s := { pin3 0 true [] [{ stall := true, envSet := 0x02#256 }] with stallAfter := true }
    takesTime .clear = true ∧ takesTime (.hold 1) = true ∧ s.ie = true ∧ s.stallAfter = true ∧ s.pins.all (·.stall) = true ∧
      calm s.pinmask s.pins = true := by decide

end Sys2Proof.Tests
end

section
/-! The durations of 00_scope.md R10: what `Params.rescaled`, `Params.high`, `Params.low` and `Params.tRst` answer in each case, and
the statement of the family that is about them. -/

namespace Sys2Proof

variable {c : Params}

/-! ### A held duration -/

theorem rescaled_of_clk_eq_cal (h : c.fClkHz = c.fCalHz) (t : Nat) : c.rescaled t = t := if_pos h

theorem rescaled_of_clk_ne_cal (h : c.fClkHz ≠ c.fCalHz) (t : Nat) :
    c.rescaled t = max 1 ((2 * t * c.fClkHz + c.fCalHz) / (2 * c.fCalHz)) := if_neg h

/-- Half-up rounding without the quotient: the model's quotient is the `r` with `r - 1/2 ≤ t * F_CLK_HZ / F_CAL_HZ < r + 1/2`. -/
theorem rescaled_of_rounds_half_up (h : c.fClkHz ≠ c.fCalHz) {t r : Nat} (hlt : 2 * t * c.fClkHz < (2 * r + 1) * c.fCalHz)
    (hle : 2 * r * c.fCalHz ≤ 2 * t * c.fClkHz + c.fCalHz) : c.rescaled t = max 1 r := by
  have hq : (2 * t * c.fClkHz + c.fCalHz) / (2 * c.fCalHz) = r := by
    apply Nat.div_eq_of_lt_le
    · calc r * (2 * c.fCalHz) = 2 * r * c.fCalHz := by ring
        _ ≤ 2 * t * c.fClkHz + c.fCalHz := hle
    · calc 2 * t * c.fClkHz + c.fCalHz < (2 * r + 1) * c.fCalHz + c.fCalHz := Nat.add_lt_add_right hlt _
        _ = (r + 1) * (2 * c.fCalHz) := by ring
  rw [rescaled_of_clk_ne_cal h, hq]

/-! ### The two profiles -/

theorem high_true (c : Params) : c.high true = c.rescaled c.t1h := rfl
theorem high_false (c : Params) : c.high false = c.rescaled c.t0h := rfl
theorem low_false (c : Params) : c.low false = c.rescaled c.t0l := rfl

/-- The low hold of a one bit is copied or dropped, never rescaled (log entry 20). -/
theorem low_true_of_clk_eq_cal (h : c.fClkHz = c.fCalHz) : c.low true = c.t1l := if_pos h
theorem low_true_of_clk_ne_cal (h : c.fClkHz ≠ c.fCalHz) : c.low true = 0 := if_neg h

/-! ### The reset hold -/

/-- T_RST is a ceiling: the reset hold lasts at least T_RESET_NS and exceeds it by less than a cycle. -/
theorem tRst_bounds (c : Params) : c.tResetNs * c.fClkHz ≤ c.tRst * 1000000000 ∧
    c.tRst * 1000000000 < c.tResetNs * c.fClkHz + 1000000000 := by
  unfold Params.tRst
  constructor <;> omega

end Sys2Proof

section
open Sys2Proof

/-- Settles O8: by cases on whether the clock is the calibrated one, with the half-up quotient and the ceiling each determined by
their two bounds. -/
theorem durationsAreRescaled : Obligations.DurationsAreRescaled := by
  unfold Obligations.DurationsAreRescaled
  intro c _
  obtain ⟨hle_tRst, htRst_lt⟩ := tRst_bounds c
  refine ⟨fun heq => ?sameClock, fun hne => ⟨low_true_of_clk_ne_cal hne, fun t r hlt hle => ?otherClock⟩,
    hle_tRst, htRst_lt, rfl, by decide⟩
  case sameClock =>
    simp only [high_true, high_false, low_false, rescaled_of_clk_eq_cal heq, low_true_of_clk_eq_cal heq, and_self]
  case otherClock =>
    have hr : c.rescaled t = max 1 r := rescaled_of_rounds_half_up hne hlt hle
    exact ⟨fun ht => by rw [high_true, ← ht, hr], fun ht => by rw [high_false, ← ht, hr], fun ht => by rw [low_false, ← ht, hr]⟩

end
end

section
/-! A step as a run of clock cycles: the sequencer gives every step, a command's from the cycle of acceptance on, and each
clock cycle leaves one record. -/

namespace Sys2Proof.Machine

theorem clocks_succ {s t : State} (h : clock s = .next t) (n : Nat) : clocks (n + 1) s = clocks n t := by
  simp only [clocks, h]

theorem clocks_one (s : State) : clocks 1 s = clock s := by
  rcases clock_cases s with ⟨-, h⟩ | ⟨-, -, h⟩ | ⟨-, -, -, h⟩ | ⟨-, -, -, h⟩ <;> simp only [clocks, h]

/-- Whatever kind of cycle it is, a clock cycle is recorded once. -/
theorem clock_trace {s t : State} (h : clock s = .next t) : ∃ o, t.trace = o :: s.trace := by
  rcases clock_cases s with ⟨-, hc⟩ | ⟨-, -, hc⟩ | ⟨-, -, -, hc⟩ | ⟨-, -, -, hc⟩ <;> rw [hc] at h <;> cases h
  · exact ⟨_, resetCycle_trace s⟩
  · exact ⟨_, (sequence_trace s _).trans (advanceCycle_trace s _ _)⟩
  · exact ⟨_, stallCycle_trace s⟩

/-- A step is the clock cycle in which it begins and those that follow, one record for each. -/
theorem step_eq_clocks (s : State) :
    ∃ n, clocks (n + 1) s = step s ∧ ∀ t, step s = .next t → t.trace.length = s.trace.length + (n + 1) := by
  cases ha : acceptedHeader s with
  | none =>
    have hstep : step s = clock s := by simp only [step, ha]
    refine ⟨0, (clocks_one s).trans hstep.symm, fun t ht => ?_⟩
    obtain ⟨o, ho⟩ := clock_trace (hstep.symm.trans ht)
    rw [ho, List.length_cons]
  | some cw =>
    obtain ⟨r, hexec, n, hclocks, hlen⟩ := exec_leads _ (decodeHeader_isHeader cw) s.acceptCycle
    have hstep : step s = r.outcome := by simp only [step, ha, hexec]
    refine ⟨n, by rw [clocks_succ (clock_accept ha), hclocks, hstep], fun t ht => ?_⟩
    rw [hlen t (hstep.symm.trans ht), startCommand_trace, State.acceptCycle, advanceCycle_trace, List.length_cons]
    omega

end Sys2Proof.Machine

section
open Sys2Proof.Machine

/-- Settles O20: a step that accepts a header is the cycle of acceptance and then the cycles by which the sequencer follows the
command's pseudocode; every other step is one clock cycle by definition. -/
theorem stepIsARunOfClockCycles : Obligations.StepIsARunOfClockCycles := by
  unfold Obligations.StepIsARunOfClockCycles
  intro s
  obtain ⟨n, hclocks, hlen⟩ := step_eq_clocks s
  exact ⟨fun t ht => ⟨n + 1, hclocks.trans ht, hlen t ht, n.succ_pos⟩, fun r hr => ⟨n + 1, hclocks.trans hr⟩⟩

end
end

section
/-! What the sequencer's moves leave alone: the end of a phase and the start of a command write registers of the sequencer only.
The one exception is the last cycle of CFG, which writes the configuration (45_strip_controller.md R91). -/

namespace Sys2Proof.Machine

theorem SameConfiguration.refl (s : State) : SameConfiguration s s := ⟨rfl, rfl, rfl, rfl⟩

theorem SameConfiguration.trans {s t u : State} (h : SameConfiguration s t) (k : SameConfiguration t u) :
    SameConfiguration s u :=
  ⟨k.pin.trans h.pin, k.pinmask.trans h.pinmask, k.segcount.trans h.segcount, k.cfg.trans h.cfg⟩

theorem Kept.sameConfiguration {s t : State} (h : Kept s t) : SameConfiguration s t :=
  ⟨h.pin, h.pinmask, h.segcount, h.cfg⟩

/-- The configuration, PORT and the command stream are the same: what a move of the sequencer between two cycles keeps. -/
structure SameOutside (s t : State) : Prop extends SameConfiguration s t where
  port : t.port = s.port
  host : t.host = s.host

theorem SameOutside.refl (s : State) : SameOutside s s := ⟨.refl s, rfl, rfl⟩

theorem SameOutside.trans {s t u : State} (h : SameOutside s t) (k : SameOutside t u) : SameOutside s u :=
  ⟨h.toSameConfiguration.trans k.toSameConfiguration, k.port.trans h.port, k.host.trans h.host⟩

theorem enter_outside (s : State) (ph : Phase) (n : Nat) : SameOutside s (s.enter ph n) := ⟨⟨rfl, rfl, rfl, rfl⟩, rfl, rfl⟩
theorem finish_outside (s : State) : SameOutside s s.finish := ⟨⟨rfl, rfl, rfl, rfl⟩, rfl, rfl⟩
theorem startWord_outside (s : State) (w : ColorWord) : SameOutside s (s.startWord w) := ⟨⟨rfl, rfl, rfl, rfl⟩, rfl, rfl⟩
theorem countWord_outside (s : State) : SameOutside s s.countWord := ⟨⟨rfl, rfl, rfl, rfl⟩, rfl, rfl⟩
theorem takeNext_outside (s : State) : SameOutside s s.takeNext := ⟨⟨rfl, rfl, rfl, rfl⟩, rfl, rfl⟩
theorem shiftMask_outside (s : State) : SameOutside s s.shiftMask := ⟨⟨rfl, rfl, rfl, rfl⟩, rfl, rfl⟩
theorem maskIe_outside (s : State) : SameOutside s s.maskIe := ⟨⟨rfl, rfl, rfl, rfl⟩, rfl, rfl⟩
theorem restoreIe_outside (s : State) : SameOutside s s.restoreIe := ⟨⟨rfl, rfl, rfl, rfl⟩, rfl, rfl⟩
theorem dly_outside (s : State) (n : Nat) : SameOutside s { s with dly := n } := ⟨⟨rfl, rfl, rfl, rfl⟩, rfl, rfl⟩

theorem enterOr_outside {s : State} {ph : Phase} {n : Nat} {k : State → State} (h : SameOutside s (k s)) :
    SameOutside s (s.enterOr ph n k) := by
  unfold State.enterOr
  split
  · exact h
  · exact enter_outside s ph n

theorem endWords_outside (s : State) : SameOutside s s.endWords := by
  unfold State.endWords
  split
  · exact enter_outside s _ _
  · exact finish_outside s

theorem firstWord_outside (s : State) : SameOutside s s.firstWord := by
  unfold State.firstWord
  split
  · exact startWord_outside s _
  · split
    · exact endWords_outside s
    · exact startWord_outside s _
  · split
    · exact endWords_outside s
    · exact enter_outside s _ _
  all_goals exact finish_outside s

theorem endWord_outside (s : State) : SameOutside s s.endWord := by
  have hc := countWord_outside s
  unfold State.endWord
  split
  · exact endWords_outside s
  · split
    · exact hc.trans (endWords_outside _)
    · exact hc.trans (startWord_outside _ _)
  · split
    · exact hc.trans (endWords_outside _)
    · split
      · exact hc.trans ((takeNext_outside _).trans (enter_outside _ _ _))
      · exact hc.trans (enter_outside _ _ _)
  all_goals exact finish_outside s

theorem nextBit_outside (s : State) : SameOutside s s.nextBit := by
  unfold State.nextBit
  split
  · exact endWord_outside s
  · exact enter_outside s _ _

theorem endBit_outside (s : State) : SameOutside s s.endBit :=
  (shiftMask_outside s).trans (enterOr_outside (nextBit_outside _))

theorem endReset_outside (s : State) : SameOutside s s.endReset := by
  unfold State.endReset
  split
  · split
    · exact enter_outside s _ _
    · exact firstWord_outside s
  all_goals exact finish_outside s

/-- Only the end of CFG writes the configuration. -/
theorem leavePhase_outside {s : State} (h : s.phase ≠ .cfg) : SameOutside s s.leavePhase := by
  unfold State.leavePhase
  split
  · exact .refl s
  · exact .refl s
  · next hc => exact absurd hc h
  · exact enterOr_outside (endReset_outside s)
  · exact endReset_outside s
  · exact (maskIe_outside s).trans (firstWord_outside _)
  · exact (restoreIe_outside s).trans (finish_outside _)
  · exact enterOr_outside (enter_outside s _ _)
  · exact enter_outside s _ _
  · exact enterOr_outside (endBit_outside s)
  · exact endBit_outside s
  · exact nextBit_outside s

/-- The end of CFG: CONSTRUCT's operands are written, and RESET begins. -/
theorem leavePhase_of_cfg {s : State} (h : s.phase = .cfg) :
    s.leavePhase = (s.configure (latchedPin s.latch) (latchedSeg s.latch)).enter .rstDrive s.cfg.cDrive := by
  unfold State.leavePhase; rw [h]

theorem startCommand_outside (i : Instr) (s : State) : SameOutside s (s.startCommand i) := by
  cases i with
  | send w => simp only [State.startCommand]; split <;> exact ⟨⟨rfl, rfl, rfl, rfl⟩, rfl, rfl⟩
  | _ => exact ⟨⟨rfl, rfl, rfl, rfl⟩, rfl, rfl⟩

/-! ### The move after an advancing cycle -/

theorem sequence_idle {s : State} (h : s.phase = .idle) (t : State) :
    sequence s t = (acceptedHeader s).elim t fun cw => t.startCommand (decodeHeader cw) := by
  unfold sequence
  rw [h]
  cases acceptedHeader s <;> rfl

theorem sequence_fetch {s : State} (h : s.phase = .fetch) (t : State) : sequence s t = t := by
  unfold sequence; rw [h]

/-- A move of the sequencer is the start of a command, the end of a phase, a count of DLY, or none. -/
theorem sequence_cases (s t : State) :
    (s.phase = .idle ∧ ((acceptedHeader s = none ∧ sequence s t = t) ∨
      ∃ cw, acceptedHeader s = some cw ∧ sequence s t = t.startCommand (decodeHeader cw))) ∨
    (s.phase = .fetch ∧ sequence s t = t) ∨
    (s.phase.live ∧ s.dly ≤ 1 ∧ sequence s t = State.leavePhase { t with dly := 0 }) ∨
    (s.phase.live ∧ ¬ s.dly ≤ 1 ∧ sequence s t = t.countDly) := by
  by_cases hi : s.phase = .idle
  · refine .inl ⟨hi, ?_⟩
    rw [sequence_idle hi]
    cases acceptedHeader s with
    | none => exact .inl ⟨rfl, rfl⟩
    | some cw => exact .inr ⟨cw, rfl, rfl⟩
  by_cases hf : s.phase = .fetch
  · exact .inr (.inl ⟨hf, sequence_fetch hf t⟩)
  rw [sequence_busy s t hi hf]
  by_cases hd : s.dly ≤ 1
  · exact .inr (.inr (.inl ⟨⟨hi, hf⟩, hd, if_pos hd⟩))
  · exact .inr (.inr (.inr ⟨⟨hi, hf⟩, hd, if_neg hd⟩))

/-- Outside the last cycle of CFG the move after a cycle keeps the configuration, PORT and the command stream. -/
theorem sequence_outside {s t : State} (ht : s.phase ≠ .fetch → t.phase = s.phase) (h : ¬ (s.phase = .cfg ∧ s.dly ≤ 1)) :
    SameOutside t (sequence s t) := by
  rcases sequence_cases s t with ⟨-, ⟨-, e⟩ | ⟨cw, -, e⟩⟩ | ⟨-, e⟩ | ⟨hl, hd, e⟩ | ⟨-, -, e⟩ <;> rw [e]
  · exact .refl t
  · exact startCommand_outside _ t
  · exact .refl t
  · have hc : t.phase ≠ .cfg := by rw [ht hl.2]; exact fun hc => h ⟨hc, hd⟩
    exact (dly_outside t 0).trans (leavePhase_outside hc)
  · exact dly_outside t _

theorem sequence_of_cfg {s t : State} (h : s.phase = .cfg) (hd : s.dly ≤ 1) (ht : t.phase = s.phase) :
    sequence s t = (State.configure (latchedPin t.latch) (latchedSeg t.latch) { t with dly := 0 }).enter .rstDrive t.cfg.cDrive := by
  rw [sequence_busy s t (by rw [h]; decide) (by rw [h]; decide), if_pos hd]
  exact leavePhase_of_cfg (ht.trans h)

/-- PORT, the command stream and the parameters are kept in the last cycle of CFG too. -/
theorem sequence_port_host_cfg {s t : State} (ht : s.phase ≠ .fetch → t.phase = s.phase) :
    (sequence s t).port = t.port ∧ (sequence s t).host = t.host ∧ (sequence s t).cfg = t.cfg := by
  by_cases h : s.phase = .cfg ∧ s.dly ≤ 1
  · rw [sequence_of_cfg h.1 h.2 (ht (by rw [h.1]; decide))]
    exact ⟨rfl, rfl, rfl⟩
  · have k := sequence_outside ht h
    exact ⟨k.port, k.host, k.cfg⟩

end Sys2Proof.Machine
end

section
/-! The half of the invariant that speaks of the sequencer's position: PHASE fits CMD, the counters fit both, and IE is 0 inside a
masked section. Every move of the sequencer keeps it. -/

namespace Sys2Proof.Machine

/-- The clauses of `Inv` about PHASE, CMD, the counters and IE. -/
structure Placed (s : State) : Prop where
  position : phaseFits s.cfg s.phase s.cmd = true
  counts : countsFit s
  masked : masks s.cfg s.cmd = true → (s.phase.isBit = true ∨ s.phase = .fetch ∨ s.phase = .syncRestore) → s.ie = false

theorem Inv.placed {s : State} (h : Inv s) : Placed s := ⟨h.position, h.counts, h.masked⟩

/-- It depends on seven fields only. -/
theorem Placed.congr {s t : State} (h : Placed s) (hcfg : t.cfg = s.cfg) (hp : t.phase = s.phase) (hc : t.cmd = s.cmd)
    (hw : t.wcnt = s.wcnt) (hf : t.fcnt = s.fcnt) (hn : t.nextValid = s.nextValid) (hi : t.ie = s.ie) : Placed t := by
  refine ⟨by rw [hcfg, hp, hc]; exact h.position, ?_, by rw [hcfg, hp, hc, hi]; exact h.masked⟩
  have := h.counts
  unfold countsFit at this ⊢
  rwa [hc, hp, hw, hf, hn]

/-! ### The commands that send words -/

/-- CLEAR, SEND and SENDPATTERN. -/
def Cmd.sends : Cmd → Bool
  | .clear | .send | .sendPattern => true
  | .none | .construct => false

theorem phaseFits_of_isBit {ph : Phase} (h : ph.isBit = true) (c : Params) (cmd : Cmd) :
    phaseFits c ph cmd = cmd.sends := by
  cases ph
  case bitRise | bitHigh | bitFall | bitLow | bitGap => cases cmd <;> rfl
  all_goals cases h

theorem sends_of_masks {c : Params} {cmd : Cmd} (h : masks c cmd = true) : cmd.sends = true := by
  cases cmd
  case none | construct => cases h
  all_goals rfl

theorem masks_of_sends {s : State} (h : s.cmd.sends = true) : masks s.cfg s.cmd = (s.cmd.isPattern || uniform s) := by
  cases hc : s.cmd <;> simp_all [Cmd.sends, masks, Cmd.isPattern, uniform]

/-- IE = 0 where the command's words are masked. -/
def Guarded (s : State) : Prop := masks s.cfg s.cmd = true → s.ie = false

/-- The counters of a command that has no word left. -/
def Spent (s : State) : Prop := s.wcnt = 0#24 ∧ s.fcnt = 0#24 ∧ s.nextValid = false

/-- The counters before the first word (45_strip_controller.md R92 to R94). -/
def CountsBefore (s : State) : Prop :=
  match s.cmd with
  | .none | .construct | .send => Spent s
  | .clear => s.fcnt = 0#24 ∧ s.nextValid = false
  | .sendPattern => s.fcnt = s.wcnt ∧ s.nextValid = false

/-- The counters while a word is sent: the words not yet accepted, the prefetched one and the one on the wire are those that WCNT
counts (45_strip_controller.md R95). -/
def CountsDuring (s : State) : Prop :=
  match s.cmd with
  | .none | .construct | .send => Spent s
  | .clear => s.fcnt = 0#24 ∧ s.nextValid = false ∧ s.wcnt ≠ 0#24
  | .sendPattern => s.fcnt.toNat + s.nextValid.toNat + 1 = s.wcnt.toNat

/-! ### Entering a phase -/

/-- A BIT phase. -/
theorem placed_enter_bit {s : State} {ph : Phase} {n : Nat} (hb : ph.isBit = true) (hs : s.cmd.sends = true)
    (hc : CountsDuring s) (hg : Guarded s) : Placed (s.enter ph n) := by
  refine ⟨(phaseFits_of_isBit hb _ _).trans hs, ?_, fun hm _ => hg hm⟩
  unfold countsFit
  unfold CountsDuring at hc
  simp only [enter_cmd]
  cases hcmd : s.cmd <;> rw [hcmd] at hc
  case clear =>
    obtain ⟨hf, hn, hw⟩ := hc
    exact ⟨hf, hn, fun _ => hw, fun h => by rw [enter_phase] at h; rw [h] at hb; cases hb⟩
  case sendPattern =>
    refine ⟨fun h => ?_, fun h => ?_, fun _ => hc, fun h => ?_⟩ <;>
      (rw [enter_phase] at h; rw [h] at hb; cases hb)
  all_goals exact hc

/-- What holds in a BIT phase, whichever. -/
theorem Placed.during {s : State} (h : Placed s) (hb : s.phase.isBit = true) :
    s.cmd.sends = true ∧ CountsDuring s ∧ Guarded s := by
  refine ⟨(phaseFits_of_isBit hb _ _).symm.trans h.position, ?_, fun hm => h.masked hm (.inl hb)⟩
  have hc := h.counts
  unfold countsFit at hc
  unfold CountsDuring
  cases hcmd : s.cmd <;> rw [hcmd] at hc
  case clear => exact ⟨hc.1, hc.2.1, hc.2.2.1 hb⟩
  case sendPattern => exact hc.2.2.1 hb
  all_goals exact hc

/-- SYNC_MASK. -/
theorem placed_enter_syncMask {s : State} {n : Nat} (hm : masks s.cfg s.cmd = true) (hc : CountsBefore s) :
    Placed (s.enter .syncMask n) := by
  refine ⟨hm, ?_, by simp [Phase.isBit]⟩
  unfold countsFit
  unfold CountsBefore at hc
  simp only [enter_cmd]
  cases hcmd : s.cmd <;> rw [hcmd] at hc
  case clear => exact ⟨hc.1, hc.2, by simp [Phase.isBit], by simp⟩
  case sendPattern => exact ⟨fun _ => hc, by simp, by simp [Phase.isBit], by simp⟩
  all_goals exact hc

/-- SYNC_RESTORE. -/
theorem placed_enter_syncRestore {s : State} {n : Nat} (hm : masks s.cfg s.cmd = true) (hc : Spent s) (hg : Guarded s) :
    Placed (s.enter .syncRestore n) := by
  refine ⟨hm, ?_, fun h _ => hg h⟩
  obtain ⟨hw, hf, hn⟩ := hc
  unfold countsFit
  simp only [enter_cmd]
  cases s.cmd
  case clear => exact ⟨hf, hn, by simp [Phase.isBit], fun _ => hw⟩
  case sendPattern => exact ⟨by simp, by simp, by simp [Phase.isBit], fun _ => ⟨hw, hf, hn⟩⟩
  all_goals exact ⟨hw, hf, hn⟩

/-- FETCH, with payload words still to come. -/
theorem placed_enter_fetch {s : State} {n : Nat} (hcmd : s.cmd = .sendPattern) (hf : s.fcnt = s.wcnt) (hw : s.wcnt ≠ 0#24)
    (hn : s.nextValid = false) (hi : s.ie = false) : Placed (s.enter .fetch n) := by
  refine ⟨by rw [enter_cmd, hcmd]; rfl, ?_, fun _ _ => hi⟩
  unfold countsFit
  simp only [enter_cmd, hcmd]
  exact ⟨by simp, fun _ => ⟨hf, hw, hn⟩, by simp [Phase.isBit], by simp⟩

/-- CFG and the two phases of RESET, in which no word has begun. -/
theorem placed_enter_before {s : State} {ph : Phase} {n : Nat} (hph : ph = .cfg ∨ ph = .rstDrive ∨ ph = .rstHold)
    (hp : phaseFits s.cfg ph s.cmd = true) (hc : CountsBefore s) : Placed (s.enter ph n) := by
  have hb : ph.isBit = false ∧ ph ≠ .syncMask ∧ ph ≠ .syncRestore ∧ ph ≠ .fetch := by
    rcases hph with rfl | rfl | rfl <;> decide
  obtain ⟨hbit, hmask, hrestore, hfetch⟩ := hb
  refine ⟨hp, ?_, by simp [hbit, hrestore, hfetch]⟩
  unfold countsFit
  unfold CountsBefore at hc
  simp only [enter_cmd]
  cases hcmd : s.cmd <;> rw [hcmd] at hc
  case clear => exact ⟨hc.1, hc.2, by simp [hbit], by simp [hrestore]⟩
  case sendPattern => exact ⟨by simp [hmask], by simp [hfetch], by simp [hbit], by simp [hrestore]⟩
  all_goals exact hc

/-- What holds in those phases and in SYNC_MASK. -/
theorem Placed.before {s : State} (h : Placed s)
    (hp : s.phase = .cfg ∨ s.phase = .rstDrive ∨ s.phase = .rstHold ∨ s.phase = .syncMask) : CountsBefore s := by
  have hc := h.counts
  have hpos := h.position
  unfold countsFit at hc
  unfold CountsBefore
  cases hcmd : s.cmd <;> rw [hcmd] at hc hpos
  case clear => exact ⟨hc.1, hc.2.1⟩
  case sendPattern =>
    rcases hp with hp | hp | hp | hp
    · rw [hp] at hpos; cases hpos
    · rw [hp] at hpos; cases hpos
    · rw [hp] at hpos; cases hpos
    · exact hc.1 hp
  all_goals exact hc

/-- The end of a command. -/
theorem placed_finish {s : State} (h : Spent s) : Placed s.finish :=
  ⟨rfl, h, fun hm _ => by cases hm⟩

/-! ### The moves of the sequencer -/

theorem placed_endWords {s : State} (hs : s.cmd.sends = true) (hc : Spent s) (hg : Guarded s) : Placed s.endWords := by
  unfold State.endWords
  rw [← masks_of_sends hs]
  split
  · next hm => exact placed_enter_syncRestore hm hc hg
  · exact placed_finish hc

theorem placed_startWord {s : State} (w : ColorWord) (hs : s.cmd.sends = true) (hc : CountsDuring s) (hg : Guarded s) :
    Placed (s.startWord w) := placed_enter_bit (s := s.loadWord w) rfl hs hc hg

theorem placed_firstWord {s : State} (hs : s.cmd.sends = true) (hc : CountsBefore s) (hg : Guarded s) :
    Placed s.firstWord := by
  unfold CountsBefore at hc
  unfold State.firstWord
  cases hcmd : s.cmd <;> rw [hcmd] at hc
  case none => rw [hcmd] at hs; cases hs
  case construct => rw [hcmd] at hs; cases hs
  case send =>
    exact placed_startWord _ hs (by unfold CountsDuring; rw [hcmd]; exact hc) hg
  case clear =>
    obtain ⟨hf, hn⟩ := hc
    dsimp only
    split
    · next hw => exact placed_endWords hs ⟨hw, hf, hn⟩ hg
    · next hw => exact placed_startWord _ hs (by unfold CountsDuring; rw [hcmd]; exact ⟨hf, hn, hw⟩) hg
  case sendPattern =>
    obtain ⟨hf, hn⟩ := hc
    dsimp only
    split
    · next hw => exact placed_endWords hs ⟨hw, hf.trans hw, hn⟩ hg
    · next hw => exact placed_enter_fetch hcmd hf hw hn (hg (by rw [hcmd]; rfl))

/-- Without a word after the one on the wire nothing is left to accept either. -/
theorem spent_countWord {s : State} (hc : s.fcnt.toNat + s.nextValid.toNat + 1 = s.wcnt.toNat)
    (hw : s.countWord.wcnt = 0#24) : Spent s.countWord := by
  have h1 : s.wcnt.toNat = 1 := by rw [countWord_wcnt] at hw; bv_omega
  refine ⟨hw, BitVec.eq_of_toNat_eq (by rw [countWord_fcnt, BitVec.toNat_zero]; omega), ?_⟩
  rw [countWord_nextValid]
  cases hn : s.nextValid
  · rfl
  · rw [hn, Bool.toNat_true] at hc; omega

theorem placed_endWord {s : State} (hs : s.cmd.sends = true) (hc : CountsDuring s) (hg : Guarded s) : Placed s.endWord := by
  unfold CountsDuring at hc
  unfold State.endWord
  cases hcmd : s.cmd <;> rw [hcmd] at hc
  case none => rw [hcmd] at hs; cases hs
  case construct => rw [hcmd] at hs; cases hs
  case send => exact placed_endWords hs hc hg
  case clear =>
    obtain ⟨hf, hn, -⟩ := hc
    dsimp only
    split
    · next hw => exact placed_endWords (s := s.countWord) hs ⟨hw, hf, hn⟩ hg
    · next hw =>
      exact placed_startWord (s := s.countWord) _ hs (by unfold CountsDuring; rw [countWord_cmd, hcmd]; exact ⟨hf, hn, hw⟩) hg
  case sendPattern =>
    have hcount := s.wcnt.isLt
    dsimp only
    split
    · next hw => exact placed_endWords (s := s.countWord) hs (spent_countWord hc hw) hg
    · next hw =>
      have hsub : s.countWord.wcnt.toNat = s.fcnt.toNat + s.nextValid.toNat := by
        rw [countWord_wcnt]; bv_omega
      split
      · next hn =>
        refine placed_enter_bit (s := s.countWord.takeNext) rfl hs ?_ hg
        unfold CountsDuring
        rw [takeNext_cmd, countWord_cmd, hcmd]
        show s.fcnt.toNat + 0 + 1 = s.countWord.wcnt.toNat
        rw [hsub, hn, Bool.toNat_true]
      · next hn =>
        rw [Bool.not_eq_true] at hn
        have hf : s.countWord.fcnt = s.countWord.wcnt :=
          BitVec.eq_of_toNat_eq (by rw [hsub, hn, countWord_fcnt, Bool.toNat_false, Nat.add_zero])
        exact placed_enter_fetch (s := s.countWord) hcmd hf hw hn (hg (by rw [hcmd]; rfl))

theorem placed_nextBit {s : State} (hs : s.cmd.sends = true) (hc : CountsDuring s) (hg : Guarded s) : Placed s.nextBit := by
  unfold State.nextBit
  split
  · exact placed_endWord hs hc hg
  · exact placed_enter_bit rfl hs hc hg

theorem placed_endBit {s : State} (hs : s.cmd.sends = true) (hc : CountsDuring s) (hg : Guarded s) : Placed s.endBit := by
  unfold State.endBit State.enterOr
  split
  · exact placed_nextBit (s := s.shiftMask) hs hc hg
  · exact placed_enter_bit (s := s.shiftMask) rfl hs hc hg

theorem placed_endReset {s : State} (hcmd : s.cmd = .construct ∨ s.cmd = .clear) (hc : CountsBefore s) :
    Placed s.endReset := by
  unfold State.endReset
  rcases hcmd with hcmd | hcmd
  · unfold CountsBefore at hc
    rw [hcmd] at hc ⊢
    exact placed_finish hc
  · have hs : s.cmd.sends = true := by rw [hcmd]; rfl
    have hm : masks s.cfg s.cmd = uniform s := by rw [masks_of_sends hs, hcmd]; rfl
    rw [hcmd]
    dsimp only
    split
    · next hu => exact placed_enter_syncMask (hm.trans hu) hc
    · next hu => exact placed_firstWord hs hc fun h => absurd (hm.symm.trans h) hu

/-- The end of every phase. -/
theorem placed_leavePhase {s : State} (h : Placed s) : Placed s.leavePhase := by
  have hpos := h.position
  unfold State.leavePhase
  cases hp : s.phase <;> rw [hp] at hpos <;> dsimp only
  case idle => exact h
  case fetch => exact h
  case cfg =>
    have hcmd : s.cmd = .construct := by simpa [phaseFits] using hpos
    refine placed_enter_before (s := s.configure _ _) (.inr (.inl rfl)) ?_ (h.before (.inl hp))
    rw [configure_cmd, hcmd]; rfl
  case rstDrive =>
    have hcmd : s.cmd = .construct ∨ s.cmd = .clear := by simpa [phaseFits] using hpos
    have hc := h.before (.inr (.inl hp))
    unfold State.enterOr
    split
    · exact placed_endReset hcmd hc
    · exact placed_enter_before (.inr (.inr rfl)) hpos hc
  case rstHold => exact placed_endReset (by simpa [phaseFits] using hpos) (h.before (.inr (.inr (.inl hp))))
  case syncMask =>
    exact placed_firstWord (s := s.maskIe) (sends_of_masks hpos) (h.before (.inr (.inr (.inr hp)))) fun _ => rfl
  case syncRestore =>
    refine placed_finish (s := s.restoreIe) ?_
    have hc := h.counts
    unfold countsFit at hc
    cases hcmd : s.cmd <;> rw [hcmd] at hc
    case clear => exact ⟨hc.2.2.2 hp, hc.1, hc.2.1⟩
    case sendPattern => exact hc.2.2.2 hp
    all_goals exact hc
  all_goals obtain ⟨hs, hc, hg⟩ := h.during (by rw [hp]; rfl)
  case bitRise =>
    unfold State.enterOr
    split <;> exact placed_enter_bit rfl hs hc hg
  case bitHigh => exact placed_enter_bit rfl hs hc hg
  case bitFall =>
    unfold State.enterOr
    split
    · exact placed_endBit hs hc hg
    · exact placed_enter_bit rfl hs hc hg
  case bitLow => exact placed_endBit hs hc hg
  case bitGap => exact placed_nextBit hs hc hg

/-- The start of every command. -/
theorem placed_startCommand {i : Instr} {s : State} (h : Placed s) (hp : s.phase = .idle) : Placed (s.startCommand i) := by
  have hcmd : s.cmd = .none := by
    have := h.position
    rw [hp] at this
    simpa [phaseFits] using this
  obtain ⟨hw, hf, hn⟩ : Spent s := by
    have := h.counts
    unfold countsFit at this
    rw [hcmd] at this
    exact this
  cases i with
  | construct p g => exact placed_enter_before (s := s.begin .construct _) (.inl rfl) rfl ⟨hw, hf, hn⟩
  | clear => exact placed_enter_before (s := (s.begin .clear 0#24).loadSegments) (.inr (.inl rfl)) rfl ⟨hf, hn⟩
  | send w =>
    have hm : masks s.cfg .send = uniform s := rfl
    simp only [State.startCommand]
    split
    · next hu => exact placed_enter_syncMask (s := s.begin .send w) (hm.trans hu) ⟨hw, hf, hn⟩
    · next hu => exact placed_startWord (s := s.begin .send w) w rfl ⟨hw, hf, hn⟩ fun h => absurd (hm.symm.trans h) hu
  | sendPattern n =>
    exact placed_enter_syncMask (s := (s.begin .sendPattern 0#24).loadCounts n) rfl ⟨rfl, rfl⟩
  | _ => exact h

end Sys2Proof.Machine
end

section
/-! What the command port makes of the sequencer's position in an advancing cycle, and that a whole clock cycle keeps it. -/

namespace Sys2Proof.Machine

/-- The three cases of 10_state.md R33. -/
theorem ready_iff (s : State) : ready s = true ↔
    s.phase = .idle ∨ s.phase = .fetch ∨
      (s.cmd = .sendPattern ∧ s.phase.isBit = true ∧ 0 < s.fcnt.toNat ∧ s.nextValid = false) := by
  have hf : s.fcnt ≠ 0#24 ↔ 0 < s.fcnt.toNat := by bv_omega
  have hw : wantsNext s = true ↔
      s.cmd = .sendPattern ∧ s.phase.isBit = true ∧ 0 < s.fcnt.toNat ∧ s.nextValid = false := by
    simp only [wantsNext, Bool.and_eq_true, cmd_isPattern_iff, bne_iff_ne, hf, Bool.not_eq_true', and_assoc]
  unfold ready
  cases hp : s.phase <;> rw [hp] at hw
  case idle | fetch => simp
  case bitRise | bitHigh | bitFall | bitLow | bitGap => simpa using hw
  all_goals simp [Phase.isBit]

/-- A payload word accepted while another is on the wire. -/
theorem accept_of_isBit {s : State} (cw : CommandWord) (h : s.phase.isBit = true) :
    s.accept cw = { s with fcnt := s.fcnt - 1#24, nextWord := colorField cw, nextValid := true } := by
  unfold State.accept
  split
  case h_1 hp => rw [hp] at h; cases h
  case h_2 hp => rw [hp] at h; cases h
  all_goals rfl

/-- The command port accepts nothing, the payload word FETCH waits for, or a word in advance. -/
theorem servePort_cases (s : State) :
    (s.servePort.phase = s.phase ∧ s.servePort.fcnt = s.fcnt ∧ s.servePort.nextValid = s.nextValid) ∨
    (s.phase = .fetch ∧ s.servePort.phase = .bitRise ∧ s.servePort.fcnt = s.fcnt - 1#24 ∧
      s.servePort.nextValid = s.nextValid) ∨
    ((s.cmd = .sendPattern ∧ s.phase.isBit = true ∧ 0 < s.fcnt.toNat ∧ s.nextValid = false) ∧
      s.servePort.phase = s.phase ∧ s.servePort.fcnt = s.fcnt - 1#24 ∧ s.servePort.nextValid = true) := by
  unfold State.servePort
  split
  · split
    · next hr =>
      rcases (ready_iff s).mp hr with hp | hp | hw
      · exact .inl (by simp [State.accept, hp])
      · exact .inr (.inl (by simp [State.accept, hp]))
      · refine .inr (.inr ⟨hw, ?_⟩)
        rw [accept_of_isBit (s := { s with host := s.host.tail }) _ hw.2.1]
        exact ⟨rfl, rfl, rfl⟩
    · exact .inl ⟨rfl, rfl, rfl⟩
  · exact .inl ⟨rfl, rfl, rfl⟩

theorem isIdle_iff (ph : Phase) : ph.isIdle = true ↔ ph = .idle := by cases ph <;> simp [Phase.isIdle]

/-- The host writes IE in IDLE only, where no section is masked. -/
theorem placed_hostWriteIe {s : State} (h : Placed s) (p : PinIn) : Placed (s.hostWriteIe p) := by
  unfold State.hostWriteIe
  split
  · next hw =>
    rw [Bool.and_eq_true, isIdle_iff] at hw
    refine ⟨h.position, h.counts, fun _ hp => ?_⟩
    rw [hw.1] at hp
    simp [Phase.isBit] at hp
  · exact h

theorem placed_servePort {s : State} (h : Placed s) : Placed s.servePort := by
  rcases servePort_cases s with ⟨hp, hf, hn⟩ | ⟨hp, hp', hf', hn'⟩ | ⟨⟨hcmd, hb, hpos, hn⟩, hp', hf', hn'⟩
  · exact h.congr (by simp) hp (by simp) (by simp) hf hn (by simp)
  · have hcmd : s.cmd = .sendPattern := by
      have := h.position
      rw [hp] at this
      simpa [phaseFits] using this
    have hc := h.counts
    unfold countsFit at hc
    rw [hcmd] at hc
    obtain ⟨hf, hw, hn⟩ := hc.2.1 hp
    have k : Placed ({ s with fcnt := s.fcnt - 1#24 }.enter .bitRise 0) := by
      refine placed_enter_bit rfl (by rw [hcmd]; rfl) ?_ fun hm => h.masked hm (.inr (.inl hp))
      unfold CountsDuring
      simp only [hcmd, hn, Bool.toNat_false]
      bv_omega
    exact k.congr (by simp) hp' (by simp) (by simp) hf' hn' (by simp)
  · obtain ⟨hs, hc, hg⟩ := h.during hb
    have k : Placed ({ s with fcnt := s.fcnt - 1#24, nextValid := true }.enter s.phase 0) := by
      refine placed_enter_bit hb hs ?_ hg
      unfold CountsDuring at hc ⊢
      simp only [hcmd, hn, Bool.toNat_false, Bool.toNat_true] at hc ⊢
      bv_omega
    exact k.congr (by simp) hp' (by simp) (by simp) hf' hn' (by simp)

theorem placed_advanceCycle {s : State} (h : Placed s) (a b : PortWord) : Placed (s.advanceCycle a b) :=
  
  placed_servePort (placed_hostWriteIe (h.congr (t := s.elapse _ a b) rfl rfl rfl rfl rfl rfl rfl) _)

theorem placed_sequence {s t : State} (h : Placed t) (hp : s.phase = .idle → t.phase = .idle) : Placed (sequence s t) := by
  rcases sequence_cases s t with ⟨hi, ⟨-, e⟩ | ⟨cw, -, e⟩⟩ | ⟨-, e⟩ | ⟨-, -, e⟩ | ⟨-, -, e⟩ <;> rw [e]
  · exact h
  · exact placed_startCommand h (hp hi)
  · exact h
  · exact placed_leavePhase (h.congr rfl rfl rfl rfl rfl rfl rfl)
  · exact h.congr rfl rfl rfl rfl rfl rfl rfl

theorem placed_resetCycle (s : State) : Placed s.resetCycle :=
  ⟨rfl, ⟨rfl, rfl, rfl⟩, fun hm _ => by cases hm⟩

end Sys2Proof.Machine
end

section
/-! The half of the invariant that speaks of the line: the width of PORT, the weak form of 10_state.md R18, and that the line is low
outside the phases of a pulse. -/

namespace Sys2Proof.Machine

/-- The clauses of `Inv` about PORT and PINMASK. -/
structure Wired (s : State) : Prop where
  width : s.port &&& ~~~portMask s.cfg.portWidth = 0#256
  mask : s.pinmask = 0#256 ∨ s.pinmask = maskOfPin s.cfg.portWidth s.pin
  low : s.phase.mayBeHigh = false → s.port &&& s.pinmask = 0#256

theorem Inv.wired {s : State} (h : Inv s) : Wired s := ⟨h.width, h.mask, h.low⟩

theorem Wired.inv {s : State} (h : Wired s) (k : Placed s) : Inv s :=
  ⟨h.width, h.mask, k.position, k.counts, k.masked, h.low⟩

/-! ### The width of PORT -/

theorem and_not_eq_zero_iff (p m : PortWord) :
    p &&& ~~~m = 0#256 ↔ ∀ j, j < 256 → p.getLsbD j = true → m.getLsbD j = true := by
  constructor
  · intro h j hj hp
    have := congrArg (·.getLsbD j) h
    simpa [hj, hp] using this
  · intro h
    apply BitVec.eq_of_getLsbD_eq
    intro j hj
    have := h j hj
    cases hp : p.getLsbD j <;> simp_all

theorem portMask_getLsbD {w j : Nat} (hj : j < 256) : (portMask w).getLsbD j = decide (j < w) := by
  rw [portMask, BitVec.getLsbD_ofNat, Nat.testBit_two_pow_sub_one, decide_eq_true hj, Bool.true_and]

/-- A pin that PINSEL selects is one that PORT has. -/
theorem maskOfPin_width (w : Nat) (p : PinIndex) : maskOfPin w p &&& ~~~portMask w = 0#256 := by
  rw [and_not_eq_zero_iff]
  intro j hj hb
  rw [portMask_getLsbD hj]
  unfold maskOfPin at hb
  split at hb
  · next hv =>
    have hlt : p.toNat < w := by simpa [pinValid] using hv
    have hjp : j = p.toNat := by simp at hb; omega
    simp only [hjp, hlt, decide_true]
  · simp at hb

theorem Wired.pinmask_width {s : State} (h : Wired s) : s.pinmask &&& ~~~portMask s.cfg.portWidth = 0#256 := by
  rcases h.mask with hm | hm <;> rw [hm]
  · exact BitVec.zero_and
  · exact maskOfPin_width _ _

/-- Neither a pulse within the width nor the port environment sets a bit that PORT does not have. -/
theorem nextPort_width {s : State} {a : PortWord} (b : PortWord) (h : s.port &&& ~~~portMask s.cfg.portWidth = 0#256)
    (ha : a &&& ~~~portMask s.cfg.portWidth = 0#256) : nextPort a b s &&& ~~~portMask s.cfg.portWidth = 0#256 := by
  rw [and_not_eq_zero_iff] at *
  intro j hj hn
  simp only [nextPort, BitVec.getLsbD_and, BitVec.getLsbD_or, Bool.and_eq_true, Bool.or_eq_true] at hn
  rcases hn.1 with (hp | hp) | hp
  · exact h j hj hp
  · exact ha j hj hp
  · exact hp.2

/-! ### The pulses of a cycle -/

/-- 41_gpio_line.md R67: PINMASK is set in the last cycle of DRIVEHIGH, nothing in any other cycle. -/
theorem pulseSet_cases (s : State) :
    (s.phase = .bitRise ∧ s.dly ≤ 1 ∧ pulseSet s = s.pinmask) ∨
    (¬ (s.phase = .bitRise ∧ s.dly ≤ 1) ∧ pulseSet s = 0#256) := by
  unfold pulseSet
  cases hp : s.phase
  case bitRise => by_cases hd : s.dly ≤ 1 <;> simp [hd]
  all_goals simp

/-- 41_gpio_line.md R68: PINMASK is cleared in the last cycle of DRIVELOW, nothing in any other cycle. -/
theorem pulseClr_cases (s : State) :
    ((s.phase = .bitFall ∨ s.phase = .rstDrive) ∧ s.dly ≤ 1 ∧ pulseClr s = s.pinmask) ∨
    (¬ ((s.phase = .bitFall ∨ s.phase = .rstDrive) ∧ s.dly ≤ 1) ∧ pulseClr s = 0#256) := by
  unfold pulseClr
  cases hp : s.phase
  case bitFall | rstDrive => by_cases hd : s.dly ≤ 1 <;> simp [hd]
  all_goals simp

theorem Wired.pulseSet_width {s : State} (h : Wired s) : pulseSet s &&& ~~~portMask s.cfg.portWidth = 0#256 := by
  rcases pulseSet_cases s with ⟨-, -, e⟩ | ⟨-, e⟩ <;> rw [e]
  · exact h.pinmask_width
  · exact BitVec.zero_and

/-! ### The level of the line -/

/-- The line may be high after an advancing cycle from here: the cycle ends DRIVEHIGH, or holds the line where it is. -/
def StaysHigh (s : State) : Prop :=
  (s.phase = .bitRise ∧ s.dly ≤ 1) ∨ s.phase = .bitHigh ∨ ((s.phase = .bitFall ∨ s.phase = .rstDrive) ∧ ¬ s.dly ≤ 1)

theorem nextPort_quiet {s : State} (h : secondWriter s = false) :
    nextPort 0#256 0#256 s &&& s.pinmask = s.port &&& s.pinmask := by
  rw [nextPort_owned h, BitVec.or_zero, and_not_zero]

theorem nextPort_cleared {s : State} (h : secondWriter s = false) (a : PortWord) :
    nextPort a s.pinmask s &&& s.pinmask = 0#256 := by
  rw [nextPort_owned h, BitVec.and_assoc, BitVec.and_comm (~~~s.pinmask), ← BitVec.and_assoc, and_and_not]

/-- Otherwise it is low. -/
theorem Wired.low_after {s : State} (h : Wired s) (hs : secondWriter s = false) (hn : ¬ StaysHigh s) :
    nextPort (pulseSet s) (pulseClr s) s &&& s.pinmask = 0#256 := by
  unfold StaysHigh at hn
  push Not at hn
  obtain ⟨hrise, hhigh, hfall⟩ := hn
  rcases pulseClr_cases s with ⟨-, -, e⟩ | ⟨hclr, e⟩ <;> rw [e]
  · exact nextPort_cleared hs _
  rcases pulseSet_cases s with ⟨hp, hd, -⟩ | ⟨-, e'⟩
  · exact absurd hd (by have := hrise hp; omega)
  rw [e', nextPort_quiet hs]
  apply h.low
  cases hp : s.phase
  case bitHigh => exact absurd hp hhigh
  case bitFall => exact absurd ⟨.inl hp, hfall (.inl hp)⟩ hclr
  case rstDrive => exact absurd ⟨.inr hp, hfall (.inr hp)⟩ hclr
  all_goals rfl

theorem mayBeHigh_leavePhase {s : State} (h : s.phase = .bitRise ∨ s.phase = .bitHigh) :
    s.leavePhase.phase.mayBeHigh = true := by
  unfold State.leavePhase
  rcases h with h | h <;> rw [h]
  · dsimp only [State.enterOr]
    split <;> rfl
  · rfl

/-- Where the line may be high, the sequencer's move leads to a phase of a pulse. -/
theorem mayBeHigh_sequence {s t : State} (h : StaysHigh s) (ht : s.phase ≠ .fetch → t.phase = s.phase) :
    (sequence s t).phase.mayBeHigh = true := by
  rcases sequence_cases s t with ⟨hp, -⟩ | ⟨hp, -⟩ | ⟨hl, hd, e⟩ | ⟨hl, hd, e⟩
  · simp [StaysHigh, hp] at h
  · simp [StaysHigh, hp] at h
  · rw [e]
    refine mayBeHigh_leavePhase (s := { t with dly := 0 }) ?_
    rcases h with h | h | h
    · exact .inl ((ht hl.2).trans h.1)
    · exact .inr ((ht hl.2).trans h)
    · exact absurd hd h.2
  · rw [e, countDly_phase, ht hl.2]
    rcases h with h | h | ⟨h | h, -⟩
    · exact absurd h.2 hd
    all_goals rw [h]; rfl

/-! ### The three kinds of cycle -/

theorem wired_resetCycle {s : State} (h : Wired s) : Wired s.resetCycle :=
  ⟨nextPort_width _ h.width BitVec.zero_and, .inl rfl, fun _ => BitVec.and_zero⟩

theorem wired_stallCycle {s : State} (h : Wired s) (hs : secondWriter s = false) : Wired s.stallCycle :=
  ⟨nextPort_width _ h.width BitVec.zero_and, h.mask, fun hp => (nextPort_quiet hs).trans (h.low hp)⟩

theorem wired_advanced {s : State} (h : Wired s) (hs : secondWriter s = false) :
    Wired (sequence s (s.advanceCycle (pulseSet s) (pulseClr s))) := by
  have ht := fun hf => (advanceCycle_position s (pulseSet s) (pulseClr s) hf).1
  have hw := nextPort_width (pulseClr s) h.width h.pulseSet_width
  by_cases hc : s.phase = .cfg ∧ s.dly ≤ 1
  · rw [sequence_of_cfg hc.1 hc.2 (ht (by rw [hc.1]; decide))]
    exact ⟨by simpa using hw, .inr rfl, fun hp => by cases hp⟩
  · have k := sequence_outside ht hc
    refine ⟨?_, ?_, fun hp => ?_⟩
    · rw [k.port, k.cfg, advanceCycle_port, advanceCycle_cfg]; exact hw
    · rw [k.pinmask, k.cfg, k.pin, advanceCycle_pinmask, advanceCycle_cfg, advanceCycle_pin]; exact h.mask
    · rw [k.port, k.pinmask, advanceCycle_port, advanceCycle_pinmask]
      refine h.low_after hs fun hh => ?_
      rw [mayBeHigh_sequence hh ht] at hp
      cases hp

/-- A clock cycle of any kind keeps the invariant. -/
theorem clock_inv {s t : State} (h : Inv s) (ht : clock s = .next t) : Inv t := by
  rcases clock_cases s with ⟨-, e⟩ | ⟨-, -, e⟩ | ⟨hs, -, -, e⟩ | ⟨hs, -, -, e⟩ <;> rw [e] at ht <;> cases ht
  · exact (wired_resetCycle h.wired).inv (placed_resetCycle s)
  · refine (wired_advanced h.wired hs).inv (placed_sequence (placed_advanceCycle h.placed _ _) fun hp => ?_)
    rw [(advanceCycle_position s _ _ (by rw [hp]; decide)).1, hp]
  · exact (wired_stallCycle h.wired hs).inv (h.placed.congr rfl rfl rfl rfl rfl rfl rfl)

end Sys2Proof.Machine

section
open Sys2Proof.Machine

/-- Settles O51: a clock cycle keeps both halves of the invariant, and a step is a run of clock cycles. -/
theorem everyStepKeepsTheInvariant : Obligations.EveryStepKeepsTheInvariant := by
  unfold Obligations.EveryStepKeepsTheInvariant
  exact ⟨fun _ _ hs ht => step_keeps (fun _ _ => clock_inv) hs ht, fun _ _ => clock_inv⟩

/-- Settles O50: every register but PORT has the value of R34's table, and PORT and PINMASK are zero. -/
theorem invariantAtReset : Obligations.InvariantAtReset := by
  unfold Obligations.InvariantAtReset
  exact ⟨BitVec.zero_and, .inl rfl, rfl, ⟨rfl, rfl, rfl⟩, fun hm => (by cases hm), fun _ => BitVec.zero_and⟩

end
end

section
/-! The command port and the host's write of IE, cycle by cycle: when `cmd_ready` is 1, what becomes of the command stream, and the
statements about one cycle of an idle or a busy block. -/

namespace Sys2Proof.Machine

/-! ### The command stream -/

/-- A word that is presented already has no waiting left. -/
theorem waitHost_of_presented {s : State} {cw : CommandWord} (h : presented s = some cw) : waitHost s.host = s.host := by
  unfold presented at h
  cases hh : s.host with
  | nil => rfl
  | cons w ws =>
    rw [hh] at h
    obtain ⟨delay, data⟩ := w
    dsimp only at h
    split at h
    · next hd => rw [hd]; rfl
    · cases h

theorem accept_host (s : State) (cw : CommandWord) : (s.accept cw).host = s.host := by
  unfold State.accept; split <;> rfl

theorem servePort_host_of_presented {s : State} {cw : CommandWord} (h : presented s = some cw) :
    s.servePort.host = if ready s then s.host.tail else s.host := by
  simp only [State.servePort, h]
  split
  · exact accept_host _ cw
  · rfl

theorem servePort_of_not_presented {s : State} (h : presented s = none) :
    s.servePort = { s with host := waitHost s.host } := by
  simp only [State.servePort, h]

/-- The command port of an advancing cycle sees the state in which the cycle began. -/
theorem presented_in_cycle (s : State) (o : Obs) (a b : PortWord) (p : PinIn) :
    presented ((s.elapse o a b).hostWriteIe p) = presented s := by
  unfold presented; rw [hostWriteIe_host, elapse_host]

theorem ready_in_cycle (s : State) (o : Obs) (a b : PortWord) (p : PinIn) :
    ready ((s.elapse o a b).hostWriteIe p) = ready s := by
  simp [ready, wantsNext]

theorem advanceCycle_host_of_presented {s : State} {cw : CommandWord} (h : presented s = some cw) (a b : PortWord) :
    (s.advanceCycle a b).host = if ready s then s.host.tail else s.host := by
  unfold State.advanceCycle
  rw [servePort_host_of_presented ((presented_in_cycle s _ a b _).trans h), ready_in_cycle, hostWriteIe_host, elapse_host]

theorem advanceCycle_of_not_presented {s : State} (h : presented s = none) (a b : PortWord) :
    s.advanceCycle a b =
      { (s.elapse (outputs (ready s) a b s) a b).hostWriteIe (nowPins s) with host := waitHost s.host } := by
  unfold State.advanceCycle
  rw [servePort_of_not_presented ((presented_in_cycle s _ a b _).trans h), hostWriteIe_host, elapse_host]

/-- A presented word leaves the stream when `cmd_ready` is 1 and stays otherwise; nothing presented, the host waits on. -/
theorem sequence_advance_host (s : State) (a b : PortWord) :
    (∀ cw, presented s = some cw →
      (sequence s (s.advanceCycle a b)).host = if ready s then s.host.tail else s.host) ∧
    (presented s = none → (sequence s (s.advanceCycle a b)).host = waitHost s.host) := by
  rw [(sequence_port_host_cfg fun hf => (advanceCycle_position s a b hf).1).2.1]
  exact ⟨fun cw h => advanceCycle_host_of_presented h a b, fun h => by rw [advanceCycle_of_not_presented h]⟩

/-! ### The host's write of IE -/

theorem hostWriteIe_of_busy {s : State} (h : s.phase ≠ .idle) (p : PinIn) : s.hostWriteIe p = s := by
  have hi : s.phase.isIdle = false := by rw [Bool.eq_false_iff, ne_eq, isIdle_iff]; exact h
  simp [State.hostWriteIe, hi]

theorem acceptedHeader_of_busy {s : State} (h : s.phase ≠ .idle) : acceptedHeader s = none := by
  have hi : s.phase.isIdle = false := by rw [Bool.eq_false_iff, ne_eq, isIdle_iff]; exact h
  simp [acceptedHeader, hi]

theorem step_of_no_header {s : State} (h : acceptedHeader s = none) : step s = clock s := by
  simp only [step, h]

/-- The present cycle's inputs with another write of IE. -/
def State.withIeWrite (we d : Bool) (p : PinIn) (ps : List PinIn) (s : State) : State :=
  { s with pins := { p with ieWe := we, ieData := d } :: ps }

section
variable {s : State} {p : PinIn} {ps : List PinIn} (hp : s.pins = p :: ps) (we d : Bool)
include hp

theorem nextPort_withIeWrite (a b : PortWord) : nextPort a b (s.withIeWrite we d p ps) = nextPort a b s := by
  simp [nextPort, nowPins, State.withIeWrite, hp]

/-- The cycle uses its inputs up, the write of IE among them. -/
theorem elapse_withIeWrite (o : Obs) (a b : PortWord) : (s.withIeWrite we d p ps).elapse o a b = s.elapse o a b := by
  unfold State.elapse
  rw [nextPort_withIeWrite hp]
  simp [State.withIeWrite, hp]

theorem advanceCycle_withIeWrite (hi : s.phase ≠ .idle) (a b : PortWord) :
    (s.withIeWrite we d p ps).advanceCycle a b = s.advanceCycle a b := by
  unfold State.advanceCycle
  rw [elapse_withIeWrite hp, hostWriteIe_of_busy (by simpa using hi), hostWriteIe_of_busy (by simpa using hi)]
  rfl

theorem stallCycle_withIeWrite : (s.withIeWrite we d p ps).stallCycle = s.stallCycle := by
  unfold State.stallCycle
  rw [elapse_withIeWrite hp]
  rfl

theorem resetCycle_withIeWrite : (s.withIeWrite we d p ps).resetCycle = s.resetCycle := by
  unfold State.resetCycle
  rw [elapse_withIeWrite hp]
  rfl

/-- A cycle outside IDLE does not look at the host's write of IE (10_state.md R21). -/
theorem tick_withIeWrite (hi : s.phase ≠ .idle) (a b : PortWord) : tick a b (s.withIeWrite we d p ps) = tick a b s := by
  have hwriter : secondWriter (s.withIeWrite we d p ps) = secondWriter s := by
    simp [secondWriter, nowPins, State.withIeWrite, hp]
  have hrst : (nowPins (s.withIeWrite we d p ps)).rst = (nowPins s).rst := by simp [nowPins, State.withIeWrite, hp]
  have hadv : advances (s.withIeWrite we d p ps) = advances s := by simp [advances, nowPins, State.withIeWrite, hp]
  unfold tick
  rw [hwriter, hrst, hadv, advanceCycle_withIeWrite hp we d hi, stallCycle_withIeWrite hp, resetCycle_withIeWrite hp]

end

end Sys2Proof.Machine

section
open Sys2Proof.Machine

/-- Settles O15: outside IDLE the step is a clock cycle, and neither its kind nor what it leaves depends on the write. -/
theorem ieWriteIgnoredWhenBusy : Obligations.IeWriteIgnoredWhenBusy := by
  unfold Obligations.IeWriteIgnoredWhenBusy
  intro s p ps we d hp hi
  have hseq : ∀ t, sequence (s.withIeWrite we d p ps) t = sequence s t := fun t => sequence_congr s _ t rfl rfl hi
  show step (s.withIeWrite we d p ps) = step s
  rw [step_of_no_header (acceptedHeader_of_busy hi), step_of_no_header (acceptedHeader_of_busy (s := s.withIeWrite we d p ps) hi)]
  unfold clock
  rw [pulseSet_congr s (s.withIeWrite we d p ps) rfl rfl rfl, pulseClr_congr s (s.withIeWrite we d p ps) rfl rfl rfl,
    tick_withIeWrite hp we d hi]
  simp only [hseq]

/-- Settles O17: `cmd_ready` is the port's `ready` in an advancing cycle and 0 in a stalled one or with `rst` = 1, and only an advancing
cycle pulses. -/
theorem commandPortHandshake : Obligations.CommandPortHandshake := by
  unfold Obligations.CommandPortHandshake
  intro s t ht
  have hkeep : ∀ cw, presented s = some cw → waitHost s.host = s.host := fun _ => waitHost_of_presented
  rcases clock_cases s with ⟨-, e⟩ | ⟨-, hr, e⟩ | ⟨-, hr, ha, e⟩ | ⟨-, -, ha, e⟩ <;> rw [e] at ht <;> cases ht
  case inr.inl =>
    exact ⟨_, resetCycle_trace s, ⟨fun h => (by cases h), fun h => by rw [hr] at h; cases h.2.1⟩, hkeep, fun _ => rfl,
      fun h => absurd rfl h, fun h => absurd rfl h⟩
  case inr.inr.inl =>
    obtain ⟨htaken, hwaits⟩ := sequence_advance_host s (pulseSet s) (pulseClr s)
    refine ⟨_, (sequence_trace s _).trans (advanceCycle_trace s _ _), ?_, htaken, hwaits, fun h => ?_, fun h => ?_⟩
    · exact (ready_iff s).trans ⟨fun h => ⟨ha, hr, h⟩, fun h => h.2.2⟩
    · rcases pulseSet_cases s with k | ⟨-, k⟩
      · exact k
      · exact absurd k h
    · rcases pulseClr_cases s with k | ⟨-, k⟩
      · exact k
      · exact absurd k h
  case inr.inr.inr =>
    exact ⟨_, stallCycle_trace s, ⟨fun h => (by cases h), fun h => by rw [ha] at h; cases h.1⟩, hkeep, fun _ => rfl,
      fun h => absurd rfl h, fun h => absurd rfl h⟩

/-- Settles O10: each is the value State.reset gives the register, and the two flags follow. -/
theorem resetLeavesTheTableValues : Obligations.ResetLeavesTheTableValues := by
  unfold Obligations.ResetLeavesTheTableValues
  exact ⟨rfl, rfl, rfl, rfl, rfl, rfl, rfl, rfl, rfl, rfl, rfl⟩

/-- Settles O14: without a header the step is the clock cycle, without a word the command port only lets the host wait, and an idle block
pulses nothing. -/
theorem idleCycleWritesIeOnly : Obligations.IdleCycleWritesIeOnly := by
  unfold Obligations.IdleCycleWritesIeOnly
  intro s hp hn hs hr ha
  have hacc : acceptedHeader s = none := by simp [acceptedHeader, hn]
  have hset : pulseSet s = 0#256 := by simp [pulseSet, hp]
  have hclr : pulseClr s = 0#256 := by simp [pulseClr, hp]
  have hready : ready s = true := (ready_iff s).mpr (.inl hp)
  have hclock : clock s = .next (s.advanceCycle 0#256 0#256) := by
    simp only [clock, hset, hclr, tick, hs, hr, ha, sequence_idle hp, hacc]
    rfl
  rw [step_of_no_header hacc, hclock, advanceCycle_of_not_presented hn, hready]
  cases hw : (nowPins s).ieWe <;> simp [State.hostWriteIe, State.elapse, hp, Phase.isIdle, hw]

end
end

section
/-! 10_state.md R19: what no instruction but CONSTRUCT writes. The runs of the shared operations and of the commands keep the
configuration whether they complete, hang, or wait for ever, as long as no hardware reset is scheduled. -/

namespace Sys2Proof.Machine

/-- The configuration is that of `s`, and no hardware reset is to come. -/
structure Unconfigured (s u : State) : Prop extends SameConfiguration s u where
  calm : noReset u.pins = true

theorem Unconfigured.update {s u v : State} (h : Unconfigured s u) (hc : SameConfiguration u v) (hp : v.pins = u.pins) :
    Unconfigured s v := ⟨h.toSameConfiguration.trans hc, by rw [hp]; exact h.calm⟩

theorem Unconfigured.moved {s u v : State} (h : Unconfigured s u) (hc : SameOutside u v) (hp : v.pins = u.pins) :
    Unconfigured s v := h.update hc.toSameConfiguration hp

theorem noReset_tail {ps : List PinIn} (h : noReset ps = true) : noReset ps.tail = true := by
  rw [← List.drop_one]; exact noReset_drop 1 h

theorem Unconfigured.ofAdvance {s u : State} (h : Unconfigured s u) (a b : PortWord) : Unconfigured s (u.advanceCycle a b) :=
  ⟨h.toSameConfiguration.trans (Kept.ofAdvance u a b).sameConfiguration, by
    rw [advanceCycle_pins]; exact noReset_tail h.calm⟩

theorem Unconfigured.ofStall {s u : State} (h : Unconfigured s u) : Unconfigured s u.stallCycle :=
  ⟨h.toSameConfiguration.trans (KeptWord.ofStall u).sameConfiguration, noReset_tail h.calm⟩

theorem Unconfigured.no_reset {s u : State} (h : Unconfigured s u) (hr : (nowPins u).rst = true) : False := by
  rw [rst_of_noReset h.calm] at hr; cases hr

/-- However a run ends, the configuration is that of `s`. -/
def Run.Unconfigures (s : State) (r : Run) : Prop := r.Sat (Unconfigured s) (SameConfiguration s) True

theorem unconfiguredStable (s : State) :
    Stable Phase.live (fun _ => Unconfigured s) (fun _ => Unconfigured s) (SameConfiguration s) True where
  live := fun _ h => h
  weak := fun _ _ h => h
  adv := fun _ _ _ h _ _ _ _ => h.ofAdvance _ _
  stall := fun _ _ h _ _ _ _ => h.ofStall
  hung := fun _ _ h _ _ => h.toSameConfiguration
  reset := fun _ _ h _ _ hr => (h.no_reset hr).elim
  refuse := fun _ _ _ _ _ => trivial
  enter := fun _ u ph n _ h => h.moved (enter_outside u ph n) rfl
  dly := fun _ u n h => h.moved (dly_outside u n) rfl

section
variable {s u : State}

/-! ### The micro-operations -/

theorem driveHigh_unconfigures (h : Unconfigured s u) : (driveHigh u).Unconfigures s :=
  ((unconfiguredStable s).driveHigh (l := []) h (live_of_isBit rfl)).imp fun _ k => k.1

theorem driveLow_unconfigures (h : Unconfigured s u) : (driveLow .bitFall u).Unconfigures s :=
  ((unconfiguredStable s).driveLow .bitFall (l := []) h (live_of_isBit rfl)).imp fun _ k => k.1

theorem hold_unconfigures (h : Unconfigured s u) (n : Nat) : (hold u.phase.holdAfter n u).Unconfigures s :=
  ((unconfiguredStable s).waitPhase _ n (l := []) h (live_holdAfter _)).imp fun _ k => k.1

theorem encodeBit_unconfigures (h : Unconfigured s u) (v : Bool) :
    (if v then encodeBit1 u else encodeBit0 u).Unconfigures s :=
  ((unconfiguredStable s).encodeBit v (l := []) h fun _ => live_of_isBit).imp fun _ k => k.1

theorem transmit_unconfigures (h : Unconfigured s u) (w : ColorWord) : (transmit w u).Unconfigures s :=
  ((unconfiguredStable s).transmit w (l := []) (fun _ => live_of_isBit)
    (fun _ t k => k.moved (shiftMask_outside t) rfl)
    (h.update (Kept.ofLoad u w).sameConfiguration rfl)).imp fun _ k => k.1

theorem resetSignal_unconfigures (h : Unconfigured s u) : (resetSignal u).Unconfigures s :=
  ((unconfiguredStable s).resetSignal (l := []) h (by simp [Phase.live]) (by simp [Phase.live])).imp fun _ k => k.1

theorem irqMask_unconfigures (h : Unconfigured s u) : (irqMask u).Unconfigures s := by
  refine ((unconfiguredStable s).irqMask (l := []) h (by simp [Phase.live])).imp ?_
  rintro _ ⟨t, rfl, ht, -⟩
  exact ht.moved (maskIe_outside t) rfl

theorem irqRestore_unconfigures (h : Unconfigured s u) : (irqRestore u).Unconfigures s := by
  refine ((unconfiguredStable s).irqRestore (l := []) h (by simp [Phase.live])).imp ?_
  rintro _ ⟨t, rfl, ht, -⟩
  exact ht.moved (restoreIe_outside t) rfl

/-! ### The parts of the commands -/

theorem maskedIf_unconfigures (masked : Bool) {body : State → Run} (h : Unconfigured s u)
    (hb : ∀ t, Unconfigured s t → (body t).Unconfigures s) : (maskedIf masked body u).Unconfigures s := by
  unfold maskedIf
  split
  · exact (irqMask_unconfigures h).andThen fun t ht => (hb t ht).andThen fun v => irqRestore_unconfigures
  · exact hb u h

theorem complete_unconfigures (h : Unconfigured s u) : (complete u).Unconfigures s := h.moved (finish_outside u) rfl

theorem clearWords_unconfigures (n : Nat) (h : Unconfigured s u) : (clearWords n u).Unconfigures s := by
  induction n generalizing u with
  | zero => exact h
  | succ n ih =>
    exact (transmit_unconfigures h _).andThen fun t ht => ih (ht.moved (countWord_outside t) rfl)

theorem advance_unconfigures (h : Unconfigured s u) (a b : PortWord) : (advance a b u).Unconfigures s :=
  advance_sat h (fun _ _ _ => trivial) (fun _ k _ hr => (k.no_reset hr).elim) (fun _ k _ _ _ => k.ofStall)
    (fun _ k _ => k.toSameConfiguration) (fun _ k _ _ _ => k.ofAdvance a b)

theorem fetchWithin_unconfigures (fuel : Nat) (h : Unconfigured s u) : (fetchWithin fuel u).Unconfigures s := by
  induction fuel generalizing u with
  | zero => exact h.toSameConfiguration
  | succ n ih =>
    refine (advance_unconfigures h _ _).andThen fun t ht => ?_
    split
    · exact ih ht
    · exact ht

theorem nextPayload_unconfigures (h : Unconfigured s u) : (nextPayload u).Unconfigures s := by
  unfold nextPayload
  split
  · exact h.moved (takeNext_outside u) rfl
  · exact fetchWithin_unconfigures _ (h.moved (enter_outside u _ _) rfl)

theorem patternWords_unconfigures (n : Nat) (h : Unconfigured s u) : (patternWords n u).Unconfigures s := by
  induction n generalizing u with
  | zero => exact h
  | succ n ih =>
    exact (nextPayload_unconfigures h).andThen fun t ht => (transmit_unconfigures ht _).andThen fun v hv =>
      ih (hv.moved (countWord_outside v) rfl)

/-! ### The commands -/

theorem clear_unconfigures (h : Unconfigured s u) : (clear u).Unconfigures s := by
  have hb : Unconfigured s (u.begin .clear 0#24).loadSegments := h.update ⟨rfl, rfl, rfl, rfl⟩ rfl
  exact (resetSignal_unconfigures hb).andThen fun t ht =>
    (maskedIf_unconfigures _ ht fun v hv => clearWords_unconfigures _ hv).andThen fun v => complete_unconfigures

theorem send_unconfigures (h : Unconfigured s u) (w : ColorWord) : (send w u).Unconfigures s := by
  have hb : Unconfigured s (u.begin .send w) := h.update ⟨rfl, rfl, rfl, rfl⟩ rfl
  exact (maskedIf_unconfigures _ hb fun v hv => transmit_unconfigures hv w).andThen fun v => complete_unconfigures

theorem sendPattern_unconfigures (h : Unconfigured s u) (n : WordCount) : (sendPattern n u).Unconfigures s := by
  have hb : Unconfigured s ((u.begin .sendPattern 0#24).loadCounts n) := h.update ⟨rfl, rfl, rfl, rfl⟩ rfl
  exact (maskedIf_unconfigures _ hb fun v hv => patternWords_unconfigures _ hv).andThen fun v => complete_unconfigures

end

theorem Run.Unconfigures.sameConfiguration {s t : State} {r : Run} (h : r.Unconfigures s) (ht : r.outcome = .next t) :
    SameConfiguration s t := by
  rcases h.of_outcome ht with h | h
  · exact h.toSameConfiguration
  · exact h

/-- Every instruction but CONSTRUCT and PINSEL keeps the configuration. -/
theorem exec_sameConfiguration {i : Instr} {s t : State} (hi : writesConfiguration i = false) (hn : noReset s.pins = true)
    (ht : exec i s = .next t) : SameConfiguration s t := by
  have h : Unconfigured s s := ⟨.refl s, hn⟩
  cases i with
  | construct p g => cases hi
  | pinSel p => cases hi
  | clear => exact (clear_unconfigures h).sameConfiguration ht
  | send w => exact (send_unconfigures h w).sameConfiguration ht
  | sendPattern n => exact (sendPattern_unconfigures h n).sameConfiguration ht
  | reserved op => cases ht; exact .refl s
  | driveHigh => exact (driveHigh_unconfigures h).sameConfiguration ht
  | driveLow => exact (driveLow_unconfigures h).sameConfiguration ht
  | hold n => exact (hold_unconfigures h n).sameConfiguration ht
  | encodeBit1 => exact (encodeBit_unconfigures h true).sameConfiguration ht
  | encodeBit0 => exact (encodeBit_unconfigures h false).sameConfiguration ht
  | transmit w => exact (transmit_unconfigures h w).sameConfiguration ht
  | reset => exact (resetSignal_unconfigures h).sameConfiguration ht
  | irqMask => exact (irqMask_unconfigures h).sameConfiguration ht
  | irqRestore => exact (irqRestore_unconfigures h).sameConfiguration ht

/-- So does a clock cycle of the sequencer outside CFG. -/
theorem clock_sameConfiguration {s t : State} (hp : s.phase ≠ .cfg) (hn : noReset s.pins = true) (ht : clock s = .next t) :
    SameConfiguration s t := by
  rcases clock_cases s with ⟨-, e⟩ | ⟨-, hr, -⟩ | ⟨-, -, -, e⟩ | ⟨-, -, -, e⟩
  · rw [e] at ht; cases ht
  · rw [rst_of_noReset hn] at hr; cases hr
  · rw [e] at ht; cases ht
    exact (Kept.ofAdvance s _ _).sameConfiguration.trans
      (sequence_outside (fun hf => (advanceCycle_position s _ _ hf).1) fun hc => hp hc.1).toSameConfiguration
  · rw [e] at ht; cases ht
    exact (KeptWord.ofStall s).sameConfiguration

/-- Only opcode 1 writes the configuration (30_encoding.md R54). -/
theorem writesConfiguration_decodeHeader {cw : CommandWord} (h : cw.toNat / 2 ^ 28 ≠ 1) :
    writesConfiguration (decodeHeader cw) = false := by
  have hop : opField cw ≠ 1#4 := by
    have := cw.isLt
    rw [opField_eq]
    intro he
    have := congrArg BitVec.toNat he
    simp only [BitVec.toNat_ofNat] at this
    omega
  unfold decodeHeader
  split
  case h_1 he => exact absurd he hop
  all_goals rfl

/-! ### CONSTRUCT -/

/-- No hardware reset and no endless stall is to come, so that nothing cuts a run short. -/
structure Uninterrupted (u : State) : Prop where
  calm : noReset u.pins = true
  ends : stallsEnd u = true

theorem uninterruptedStable :
    Stable Phase.live (fun _ => Uninterrupted) (fun _ => Uninterrupted) (fun _ => False) True where
  live := fun _ h => h
  weak := fun _ _ h => h
  adv := fun _ u _ h ha _ _ _ => ⟨by rw [advanceCycle_pins]; exact noReset_tail h.calm, by
    rw [stallsEnd, advanceCycle_ie_busy u _ _ ha.1, advanceCycle_stallAfter]; exact h.ends⟩
  stall := fun _ _ h _ _ _ _ => ⟨noReset_tail h.calm, h.ends⟩
  hung := fun _ _ h _ hh => by have he := h.ends; rw [stallsEnd_of_hung hh rfl rfl] at he; cases he
  reset := fun _ _ h _ _ hr => by rw [rst_of_noReset h.calm] at hr; cases hr
  refuse := fun _ _ _ _ _ => trivial
  enter := fun _ _ _ _ _ h => ⟨h.calm, h.ends⟩
  dly := fun _ _ _ h => ⟨h.calm, h.ends⟩

/-- CONSTRUCT completes with the configuration its operands give. -/
theorem construct_configures (p : PinIndex) (g : SegCount) {s : State} (hs : Uninterrupted s) :
    (construct p g s).Sat (SameConfiguration (s.configure p g)) (fun _ => False) True := by
  unfold construct
  have hbegin : Uninterrupted (s.begin .construct (packConstruct p g)) := ⟨hs.calm, hs.ends⟩
  refine (uninterruptedStable.operate .cfg s.cfg.cCfg .none (State.configure p g) (l := []) hbegin
    (by simp [Phase.live])).andThen ?_
  rintro _ ⟨u, rfl, hu, ku⟩
  have hcfg : SameConfiguration (s.configure p g) (u.configure p g) :=
    ⟨rfl, by rw [configure_pinmask, ku.cfg]; rfl, rfl, ku.cfg⟩
  refine (uninterruptedStable.resetSignal (l := []) (s := u.configure p g) ⟨hu.calm, hu.ends⟩ (by simp [Phase.live])
    (by simp [Phase.live])).andThen ?_
  rintro t ⟨-, kt⟩
  exact hcfg.trans (kt.sameConfiguration.trans (finish_outside t).toSameConfiguration)

end Sys2Proof.Machine

section
open Sys2Proof Sys2Proof.Machine

/-- Settles O49: CONSTRUCT runs to the end of RESET with its configuration; every other instruction keeps the configuration whatever cuts
it short; and a step is one clock cycle outside CFG or, after the cycle of acceptance, such an instruction. -/
theorem configurationIsImmutable : Obligations.ConfigurationIsImmutable := by
  unfold Obligations.ConfigurationIsImmutable
  refine ⟨fun pin seg s t hn he ht => ?_, fun i s t hi hn ht => exec_sameConfiguration hi hn ht, fun s t hn hp hcw ht => ?_⟩
  · rcases (construct_configures pin seg ⟨hn, he⟩).of_outcome ht with h | h
    · exact ⟨h.pin, h.pinmask, h.segcount, h.cfg⟩
    · exact h.elim
  · cases ha : acceptedHeader s with
    | none => exact clock_sameConfiguration hp hn ((step_of_no_header ha).symm.trans ht)
    | some cw =>
      have hstep : step s = exec (decodeHeader cw) s.acceptCycle := by simp only [step, ha]
      have haccept : Unconfigured s s.acceptCycle := Unconfigured.ofAdvance ⟨.refl s, hn⟩ _ _
      exact haccept.toSameConfiguration.trans
        (exec_sameConfiguration (writesConfiguration_decodeHeader (hcw cw ha)) haccept.calm (hstep.symm.trans ht))

end
end

section
/-! The command stream over a step (20_memory.md R36, R37): what is left of it is a suffix of what there was. -/

namespace Sys2Proof.Machine

/-- Waiting takes no word from the stream. -/
theorem waitHost_data (hs : List HostWord) : (waitHost hs).map (·.data) = hs.map (·.data) := by cases hs <;> rfl

/-- A clock cycle takes the first word of the stream or none. -/
theorem clock_data_suffix {s t : State} (h : clock s = .next t) : t.host.map (·.data) <:+ s.host.map (·.data) := by
  have hwaits : (waitHost s.host).map (·.data) <:+ s.host.map (·.data) := by rw [waitHost_data]
  rcases clock_cases s with ⟨-, e⟩ | ⟨-, -, e⟩ | ⟨-, -, -, e⟩ | ⟨-, -, -, e⟩ <;> rw [e] at h <;> cases h
  case inr.inl => exact hwaits
  case inr.inr.inr => exact hwaits
  case inr.inr.inl =>
    obtain ⟨htaken, hnone⟩ := sequence_advance_host s (pulseSet s) (pulseClr s)
    cases hp : presented s with
    | none => rw [hnone hp]; exact hwaits
    | some cw =>
      rw [htaken cw hp]
      split
      · exact (List.tail_suffix _).map _
      · exact List.suffix_rfl

end Sys2Proof.Machine

section
open Sys2Proof.Machine

/-- Settles O19: a clock cycle leaves a suffix of the stream, and so does a step, which is a run of clock cycles. -/
theorem commandStreamReadInOrder : Obligations.CommandStreamReadInOrder := by
  unfold Obligations.CommandStreamReadInOrder
  intro s t ht
  have hsuffix : t.host.map (·.data) <:+ s.host.map (·.data) :=
    step_keeps (I := fun u => u.host.map (·.data) <:+ s.host.map (·.data)) (fun _ _ hu hc => (clock_data_suffix hc).trans hu)
      List.suffix_rfl ht
  exact ⟨_, List.suffix_iff_eq_drop.mp hsuffix⟩

end
end

section
/-! What a whole instruction carries from its start to its end. A property that every cycle outside IDLE keeps, and every update
between two cycles but the writes of the configuration, holds after every instruction but CONSTRUCT and PINSEL. -/

namespace Sys2Proof.Machine

/-- `I` outlives each cycle of an instruction, whose pulses are those of a drive of the present PINMASK, and each update between two
cycles that leaves the configuration, PORT and the inputs alone. `Q` holds where the instruction is cut short. -/
structure Carried (I Q : State → Prop) : Prop where
  adv : ∀ u (d : Drive), I u → u.phase ≠ .idle → secondWriter u = false → (nowPins u).rst = false → advances u = true →
    I (u.advanceCycle (d.set u.pinmask) (d.clr u.pinmask))
  stall : ∀ u, I u → u.phase ≠ .idle → secondWriter u = false → (nowPins u).rst = false → advances u = false → I u.stallCycle
  reset : ∀ u, I u → u.phase ≠ .idle → secondWriter u = false → (nowPins u).rst = true → Q u.resetCycle
  cut : ∀ u, I u → Q u
  move : ∀ u v, I u → SameOutside u v → v.pins = u.pins → v.trace = u.trace → I v

/-- However a run ends, it has carried the property there. -/
def Run.Carries (I Q : State → Prop) (r : Run) : Prop := r.Sat I Q True

theorem Run.Carries.cut_of_outcome {I Q : State → Prop} {t : State} {r : Run} (h : r.Carries I Q) (C : Carried I Q)
    (ht : r.outcome = .next t) : Q t := (h.of_outcome ht).elim (C.cut t) id

section
variable {I Q : State → Prop} {u : State} (C : Carried I Q)
include C

theorem Carried.stable : Stable Phase.live (fun _ => I) (fun _ => I) Q True where
  live := fun _ h => h
  weak := fun _ _ h => h
  adv := fun _ u d h ha => C.adv u d h ha.1
  stall := fun _ u h ha => C.stall u h ha.1
  hung := fun _ u h _ _ => C.cut u h
  reset := fun _ u h ha => C.reset u h ha.1
  refuse := fun _ _ _ _ _ => trivial
  enter := fun _ u ph n _ h => C.move u _ h (enter_outside u ph n) rfl rfl
  dly := fun _ u n h => C.move u _ h (dly_outside u n) rfl rfl

/-! ### The micro-operations -/

theorem Carried.driveHigh (h : I u) : (driveHigh u).Carries I Q :=
  (C.stable.driveHigh (l := []) h (live_of_isBit rfl)).imp fun _ k => k.1

theorem Carried.driveLow (h : I u) : (driveLow .bitFall u).Carries I Q :=
  (C.stable.driveLow .bitFall (l := []) h (live_of_isBit rfl)).imp fun _ k => k.1

theorem Carried.hold (h : I u) (n : Nat) : (hold u.phase.holdAfter n u).Carries I Q :=
  (C.stable.waitPhase _ n (l := []) h (live_holdAfter _)).imp fun _ k => k.1

theorem Carried.encodeBit (h : I u) (v : Bool) : (if v then encodeBit1 u else encodeBit0 u).Carries I Q :=
  (C.stable.encodeBit v (l := []) h fun _ => live_of_isBit).imp fun _ k => k.1

theorem Carried.transmit (h : I u) (w : ColorWord) : (transmit w u).Carries I Q :=
  (C.stable.transmit w (l := []) (fun _ => live_of_isBit) (fun _ t k => C.move t _ k (shiftMask_outside t) rfl rfl)
    (C.move u _ h ⟨⟨rfl, rfl, rfl, rfl⟩, rfl, rfl⟩ rfl rfl)).imp fun _ k => k.1

theorem Carried.resetSignal (h : I u) : (resetSignal u).Carries I Q :=
  (C.stable.resetSignal (l := []) h (by simp [Phase.live]) (by simp [Phase.live])).imp fun _ k => k.1

theorem Carried.irqMask (h : I u) : (irqMask u).Carries I Q := by
  refine (C.stable.irqMask (l := []) h (by simp [Phase.live])).imp ?_
  rintro _ ⟨t, rfl, ht, -⟩
  exact C.move t _ ht (maskIe_outside t) rfl rfl

theorem Carried.irqRestore (h : I u) : (irqRestore u).Carries I Q := by
  refine (C.stable.irqRestore (l := []) h (by simp [Phase.live])).imp ?_
  rintro _ ⟨t, rfl, ht, -⟩
  exact C.move t _ ht (restoreIe_outside t) rfl rfl

/-! ### The parts of the commands -/

theorem Carried.maskedIf (masked : Bool) {body : State → Run} (h : I u) (hb : ∀ t, I t → (body t).Carries I Q) :
    (maskedIf masked body u).Carries I Q := by
  unfold Sys2Proof.Machine.maskedIf
  split
  · exact (C.irqMask h).andThen fun t ht => (hb t ht).andThen fun _ => C.irqRestore
  · exact hb u h

theorem Carried.complete (h : I u) : (complete u).Carries I Q := C.move u _ h (finish_outside u) rfl rfl

theorem Carried.countWord (h : I u) : I u.countWord := C.move u _ h (countWord_outside u) rfl rfl

theorem Carried.clearWords (n : Nat) (h : I u) : (clearWords n u).Carries I Q := by
  induction n generalizing u with
  | zero => exact h
  | succ n ih => exact (C.transmit h _).andThen fun _ ht => ih (C.countWord ht)

/-- A cycle of FETCH. -/
theorem Carried.fetchCycle (h : I u) (hp : u.phase = .fetch) : (advance 0#256 0#256 u).Carries I Q := by
  have hbusy : u.phase ≠ .idle := by rw [hp]; decide
  exact advance_sat (I := fun v => I v ∧ v.phase ≠ .idle) ⟨h, hbusy⟩ (fun _ _ _ => trivial)
    (fun v k => C.reset v k.1 k.2) (fun v k hs hr ha => ⟨C.stall v k.1 k.2 hs hr ha, k.2⟩) (fun v k _ => C.cut v k.1)
    (fun v k => C.adv v .none k.1 k.2)

theorem Carried.fetchWithin (fuel : Nat) (h : I u) (hp : u.phase = .fetch) : (fetchWithin fuel u).Carries I Q := by
  induction fuel generalizing u with
  | zero => exact C.cut u h
  | succ n ih =>
    refine (C.fetchCycle h hp).andThen fun t ht => ?_
    split
    · next hf => exact ih ht (beq_iff_eq.mp hf)
    · exact ht

theorem Carried.nextPayload (h : I u) : (nextPayload u).Carries I Q := by
  unfold Sys2Proof.Machine.nextPayload
  split
  · exact C.move u _ h (takeNext_outside u) rfl rfl
  · exact C.fetchWithin _ (C.move u _ h (enter_outside u _ _) rfl rfl) rfl

theorem Carried.patternWords (n : Nat) (h : I u) : (patternWords n u).Carries I Q := by
  induction n generalizing u with
  | zero => exact h
  | succ n ih =>
    exact (C.nextPayload h).andThen fun _ ht => (C.transmit ht _).andThen fun _ hv => ih (C.countWord hv)

/-! ### The commands -/

theorem Carried.clear (h : I u) : (clear u).Carries I Q := by
  have hbegin : I (u.begin .clear 0#24).loadSegments := C.move u _ h ⟨⟨rfl, rfl, rfl, rfl⟩, rfl, rfl⟩ rfl rfl
  exact (C.resetSignal hbegin).andThen fun _ ht =>
    (C.maskedIf _ ht fun _ => C.clearWords _).andThen fun _ => C.complete

theorem Carried.send (h : I u) (w : ColorWord) : (send w u).Carries I Q := by
  have hbegin : I (u.begin .send w) := C.move u _ h ⟨⟨rfl, rfl, rfl, rfl⟩, rfl, rfl⟩ rfl rfl
  exact (C.maskedIf _ hbegin fun _ hv => C.transmit hv w).andThen fun _ => C.complete

theorem Carried.sendPattern (h : I u) (n : WordCount) : (sendPattern n u).Carries I Q := by
  have hbegin : I ((u.begin .sendPattern 0#24).loadCounts n) := C.move u _ h ⟨⟨rfl, rfl, rfl, rfl⟩, rfl, rfl⟩ rfl rfl
  exact (C.maskedIf _ hbegin fun _ => C.patternWords _).andThen fun _ => C.complete

/-- The end of CONSTRUCT, from the write of its operands on. -/
theorem Carried.resetThenComplete (h : I u) :
    ((Sys2Proof.Machine.resetSignal u).andThen Sys2Proof.Machine.complete).Carries I Q :=
  (C.resetSignal h).andThen fun _ => C.complete

/-- Every instruction but CONSTRUCT and PINSEL, completed or cut short. -/
theorem Carried.exec {i : Instr} {s t : State} (hi : writesConfiguration i = false) (h : I s) (ht : exec i s = .next t) :
    Q t := by
  cases i with
  | construct p g => cases hi
  | pinSel p => cases hi
  | clear => exact (C.clear h).cut_of_outcome C ht
  | send w => exact (C.send h w).cut_of_outcome C ht
  | sendPattern n => exact (C.sendPattern h n).cut_of_outcome C ht
  | reserved op => cases ht; exact C.cut s h
  | driveHigh => exact (C.driveHigh h).cut_of_outcome C ht
  | driveLow => exact (C.driveLow h).cut_of_outcome C ht
  | hold n => exact (C.hold h n).cut_of_outcome C ht
  | encodeBit1 => exact (C.encodeBit h true).cut_of_outcome C ht
  | encodeBit0 => exact (C.encodeBit h false).cut_of_outcome C ht
  | transmit w => exact (C.transmit h w).cut_of_outcome C ht
  | reset => exact (C.resetSignal h).cut_of_outcome C ht
  | irqMask => exact (C.irqMask h).cut_of_outcome C ht
  | irqRestore => exact (C.irqRestore h).cut_of_outcome C ht

end

/-! ### Operations without a pulse -/

section
variable {I Q : State → Prop} {X : Prop} (hadv : ∀ u, I u → (advance 0#256 0#256 u).Sat I Q X)
  (hdly : ∀ u n, I u → I { u with dly := n })
include hadv hdly

theorem waitCycles_sat (n : Nat) {u : State} (h : I u) : (waitCycles n u).Sat I Q X := by
  induction n generalizing u with
  | zero => exact h
  | succ n ih => exact (hadv u h).andThen fun t ht => ih (hdly t _ ht)

/-- A micro-operation that drives nothing: its write is applied to a state that its cycles have kept. -/
theorem operate_quiet_sat (ph : Phase) (n : Nat) (write : State → State) {u : State} (h : I (u.enter ph n)) :
    (operate ph n 0#256 0#256 write u).Sat (fun t => ∃ v, t = write v ∧ I v) Q X :=
  (waitCycles_sat hadv hdly (n - 1) h).andThen fun t ht => (hadv t ht).andThen fun v hv => ⟨_, rfl, hdly v 0 hv⟩

end

end Sys2Proof.Machine
end

section
/-! 20_memory.md R38, R44: what the block pulses in the cycles of an instruction. -/

namespace Sys2Proof.Machine

/-- Every cycle since `s` has pulsed nothing, or `m` on one of the two outputs. -/
def PulsedSince (m : PortWord) (s u : State) : Prop := ∃ os, u.trace = os ++ s.trace ∧ ∀ o ∈ os, pulsesOnly m o

theorem PulsedSince.refl (m : PortWord) (s : State) : PulsedSince m s s := ⟨[], rfl, by simp⟩

theorem pulsesOnly_quiet {m : PortWord} {o : Obs} (hs : o.portSet = 0#256) (hc : o.portClr = 0#256) : pulsesOnly m o :=
  .inl ⟨hs, hc⟩

section
variable {m : PortWord} {s u v : State}

theorem PulsedSince.cons {o : Obs} (h : PulsedSince m s u) (ht : v.trace = o :: u.trace) (ho : pulsesOnly m o) :
    PulsedSince m s v := by
  obtain ⟨os, htrace, hos⟩ := h
  exact ⟨o :: os, by rw [ht, htrace, List.cons_append], List.forall_mem_cons.mpr ⟨ho, hos⟩⟩

theorem PulsedSince.of_trace (h : PulsedSince m s u) (ht : v.trace = u.trace) : PulsedSince m s v := by
  rwa [PulsedSince, ht]

theorem PulsedSince.stallCycle (h : PulsedSince m s u) : PulsedSince m s u.stallCycle :=
  h.cons (stallCycle_trace u) (pulsesOnly_quiet rfl rfl)

theorem PulsedSince.resetCycle (h : PulsedSince m s u) : PulsedSince m s u.resetCycle :=
  h.cons (resetCycle_trace u) (pulsesOnly_quiet rfl rfl)

theorem PulsedSince.passed (h : PulsedSince m s u) : ∀ o ∈ passed s u, pulsesOnly m o := by
  obtain ⟨os, htrace, hos⟩ := h
  have hpassed : Sys2Proof.Machine.passed s u = os.reverse := by simp [Sys2Proof.Machine.passed, htrace]
  rw [hpassed]
  exact fun o ho => hos o (List.mem_reverse.mp ho)

end

/-- While PINMASK is `m`, the drives of an instruction pulse `m`. -/
theorem pulsedCarried (m : PortWord) (s : State) :
    Carried (fun u => PulsedSince m s u ∧ u.pinmask = m) (PulsedSince m s) where
  adv := by
    rintro u d ⟨h, hm⟩ - - - -
    rw [hm]
    exact ⟨h.cons (advanceCycle_trace u _ _) (pulsesOnly_of_drive d m _ rfl rfl), (advanceCycle_pinmask u _ _).trans hm⟩
  stall := fun _ h _ _ _ _ => ⟨h.1.stallCycle, h.2⟩
  reset := fun _ h _ _ _ => h.1.resetCycle
  cut := fun _ h => h.1
  move := fun _ _ h ho _ ht => ⟨h.1.of_trace ht, ho.pinmask.trans h.2⟩

/-- In the cycles of CFG nothing is pulsed, whatever PINMASK still holds. -/
theorem cfgCycle_pulsed {m : PortWord} {s u : State} (h : PulsedSince m s u ∧ u.cfg = s.cfg) :
    (advance 0#256 0#256 u).Sat (fun t => PulsedSince m s t ∧ t.cfg = s.cfg) (PulsedSince m s) True :=
  advance_sat (I := fun v => PulsedSince m s v ∧ v.cfg = s.cfg) h (fun _ _ _ => trivial) (fun _ k _ _ => k.1.resetCycle)
    (fun _ k _ _ _ => ⟨k.1.stallCycle, k.2⟩) (fun _ k _ => k.1) fun v k _ _ _ =>
      ⟨k.1.cons (advanceCycle_trace v _ _) (pulsesOnly_quiet rfl rfl), (advanceCycle_cfg v _ _).trans k.2⟩

/-- CONSTRUCT pulses the pin it selects (45_strip_controller.md R91). -/
theorem construct_pulsed (p : PinIndex) (g : SegCount) (s : State) :
    (construct p g s).Carries (fun t => PulsedSince (maskOfPin s.cfg.portWidth p) s t ∧
      t.pinmask = maskOfPin s.cfg.portWidth p) (PulsedSince (maskOfPin s.cfg.portWidth p) s) := by
  have hstart := (PulsedSince.refl (maskOfPin s.cfg.portWidth p) s).of_trace
    (v := (s.begin .construct (packConstruct p g)).enter .cfg s.cfg.cCfg) rfl
  refine (operate_quiet_sat (fun _ => cfgCycle_pulsed) (fun _ _ k => ⟨k.1.of_trace rfl, k.2⟩) .cfg s.cfg.cCfg
    (State.configure p g) ⟨hstart, rfl⟩).andThen ?_
  rintro _ ⟨v, rfl, hpulsed, hcfg⟩
  exact (pulsedCarried _ s).resetThenComplete ⟨hpulsed.of_trace rfl, by rw [configure_pinmask, hcfg]⟩

theorem drivenMask_of_keeps {i : Instr} (h : writesConfiguration i = false) (s : State) : drivenMask i s = s.pinmask := by
  cases i with
  | construct p g => cases h
  | _ => rfl

/-- Every instruction, completed or cut short. -/
theorem exec_pulsed {i : Instr} {s t : State} (ht : exec i s = .next t) : PulsedSince (drivenMask i s) s t := by
  cases hi : writesConfiguration i with
  | false => exact (pulsedCarried _ s).exec hi ⟨.refl _ s, (drivenMask_of_keeps hi s).symm⟩ ht
  | true =>
    cases i with
    | construct p g => exact (construct_pulsed p g s).cut_of_outcome (pulsedCarried _ s) ht
    | pinSel p => cases ht; exact (PulsedSince.refl _ s).of_trace rfl
    | _ => cases hi

end Sys2Proof.Machine

section
open Sys2Proof.Machine

/-- Settles O25: an instruction drives with the PINMASK it starts with, CONSTRUCT with the one it writes, and a stalled cycle, one of
CFG and one with `rst` = 1 pulse nothing. -/
theorem onlyTheSelectedBitIsPulsed : Obligations.OnlyTheSelectedBitIsPulsed := by
  unfold Obligations.OnlyTheSelectedBitIsPulsed
  exact fun _ _ _ ht => (exec_pulsed ht).passed

end
end

section
/-! The decoder, one equation per command (30_encoding.md R54, R59), and the encoder: the header and payload words as numbers. Then the
statements about the encoding of the command stream. -/

namespace Sys2Proof

/-! ### The decoder by opcode -/

/-- A header is one of the four commands or has a reserved opcode. -/
theorem opcode_cases (op : BitVec 4) : op = 1#4 ∨ op = 2#4 ∨ op = 3#4 ∨ op = 4#4 ∨ reservedOp op = true := by
  revert op; decide

section
variable {cw : CommandWord}

theorem decodeHeader_construct (h : opField cw = 1#4) : decodeHeader cw = .construct (pinField cw) (segField cw) := by
  simp only [decodeHeader, h]

theorem decodeHeader_clear (h : opField cw = 2#4) : decodeHeader cw = .clear := by
  simp only [decodeHeader, h]

theorem decodeHeader_send (h : opField cw = 3#4) : decodeHeader cw = .send (colorField cw) := by
  simp only [decodeHeader, h]

theorem decodeHeader_sendPattern (h : opField cw = 4#4) : decodeHeader cw = .sendPattern (countField cw) := by
  simp only [decodeHeader, h]

theorem decodeHeader_reserved (h : reservedOp (opField cw) = true) : decodeHeader cw = .reserved (opField cw) := by
  unfold decodeHeader
  split
  case h_5 => rfl
  all_goals next hop => rw [hop] at h; exact absurd h (by decide)

end

theorem opField_toNat (cw : CommandWord) : (opField cw).toNat = cw.toNat / 2 ^ 28 := by
  have := cw.isLt
  rw [opField_eq, BitVec.toNat_ofNat]
  omega

theorem opField_eq_iff (cw : CommandWord) (op : BitVec 4) : opField cw = op ↔ cw.toNat / 2 ^ 28 = op.toNat := by
  rw [← BitVec.toNat_inj, opField_toNat]

theorem reservedOp_iff (op : BitVec 4) : reservedOp op = true ↔ op.toNat = 0 ∨ 5 ≤ op.toNat := by
  revert op; decide

/-- Every header the decoder answers is well-formed under every configuration. -/
theorem decodeHeader_wellFormed (c : Params) (cw : CommandWord) : (decodeHeader cw).wellFormed c = true := by
  rcases opcode_cases (opField cw) with h | h | h | h | h
  · rw [decodeHeader_construct h]; rfl
  · rw [decodeHeader_clear h]; rfl
  · rw [decodeHeader_send h]; rfl
  · rw [decodeHeader_sendPattern h]; rfl
  · rw [decodeHeader_reserved h]; exact h

/-- The header's payload count by arithmetic (30_encoding.md R58). -/
theorem payloadCount_decodeHeader (cw : CommandWord) :
    payloadCount (decodeHeader cw) = if cw.toNat / 2 ^ 28 = 4 then cw.toNat % 2 ^ 24 else 0 := by
  rw [← opField_toNat]
  rcases opcode_cases (opField cw) with h | h | h | h | h
  · rw [decodeHeader_construct h, h]; rfl
  · rw [decodeHeader_clear h, h]; rfl
  · rw [decodeHeader_send h, h]; rfl
  · rw [decodeHeader_sendPattern h, h, countField_eq]; exact BitVec.toNat_ofNat _ _
  · rw [decodeHeader_reserved h, if_neg (by rw [reservedOp_iff] at h; omega)]; rfl

/-! ### What the decoder looks at -/

/-! PIN and SEG are parts of bits 23:0 as they are of the operand latch (45_strip_controller.md R98). -/

theorem pinField_eq_latchedPin (cw : CommandWord) : pinField cw = latchedPin (colorField cw) := by
  apply BitVec.eq_of_toNat_eq
  simp only [pinField, latchedPin, colorField, BitVec.extractLsb'_toNat, Nat.shiftRight_zero]
  omega

theorem segField_eq_latchedSeg (cw : CommandWord) : segField cw = latchedSeg (colorField cw) := by
  apply BitVec.eq_of_toNat_eq
  simp only [segField, latchedSeg, colorField, BitVec.extractLsb'_toNat, Nat.shiftRight_eq_div_pow]
  omega

/-- The opcode and bits 23:0 are all that the decoder looks at. -/
theorem decodeHeader_congr {cw cw' : CommandWord} (hop : opField cw = opField cw') (hlow : colorField cw = colorField cw') :
    decodeHeader cw = decodeHeader cw' := by
  have hcount : ∀ x : CommandWord, countField x = colorField x := fun _ => rfl
  simp only [decodeHeader, pinField_eq_latchedPin, segField_eq_latchedSeg, hcount, hop, hlow]

theorem opField_and (cw m : CommandWord) : opField (cw &&& m) = opField cw &&& opField m := BitVec.extractLsb'_and

theorem colorField_and (cw m : CommandWord) : colorField (cw &&& m) = colorField cw &&& colorField m := BitVec.extractLsb'_and

/-- A mask that holds bits 31:28 leaves the opcode. -/
theorem opField_masked (cw : CommandWord) {m : CommandWord} (hm : opField m = BitVec.allOnes 4) :
    opField (cw &&& m) = opField cw := by
  rw [opField_and, hm, BitVec.and_allOnes]

/-- A mask that holds bits 23:0 leaves the operands. -/
theorem colorField_masked (cw : CommandWord) {m : CommandWord} (hm : colorField m = BitVec.allOnes 24) :
    colorField (cw &&& m) = colorField cw := by
  rw [colorField_and, hm, BitVec.and_allOnes]

end Sys2Proof

/-! ### Encoding and framing -/

namespace Sys2Proof.Laws

theorem headerRoundTrip (i : Instr) : HeaderRoundTrip.Statement i := by
  cases i with
  | construct pin seg => exact HeaderRoundTrip.construct pin seg
  | clear => exact HeaderRoundTrip.clear
  | send w => exact HeaderRoundTrip.send w
  | sendPattern n => exact HeaderRoundTrip.sendPattern n
  | reserved op => exact HeaderRoundTrip.reserved op
  | pinSel pin => exact HeaderRoundTrip.pinSel pin
  | driveHigh => exact HeaderRoundTrip.driveHigh
  | driveLow => exact HeaderRoundTrip.driveLow
  | hold n => exact HeaderRoundTrip.hold n
  | encodeBit1 => exact HeaderRoundTrip.encodeBit1
  | encodeBit0 => exact HeaderRoundTrip.encodeBit0
  | transmit w => exact HeaderRoundTrip.transmit w
  | reset => exact HeaderRoundTrip.reset
  | irqMask => exact HeaderRoundTrip.irqMask
  | irqRestore => exact HeaderRoundTrip.irqRestore

end Sys2Proof.Laws

namespace Sys2Proof

theorem encodePayload_toNat (w : ColorWord) : (encodePayload w).toNat = w.toNat := by
  rw [encodePayload, append_toNat, BitVec.toNat_zero, Nat.zero_mul, Nat.zero_add]

@[simp] theorem colorField_encodePayload (w : ColorWord) : colorField (encodePayload w) = w := by
  rw [colorField_eq, encodePayload_toNat, BitVec.ofNat_toNat, BitVec.setWidth_eq]

theorem encode_of_header {i : Instr} {h : CommandWord} (hi : encodeHeader i = some h) (payload : List ColorWord) :
    encode ⟨i, payload⟩ = some (h :: payload.map encodePayload) := by
  simp only [encode, hi, Option.map_some]

/-- A list that holds the payload the header asks for is read as that command. -/
theorem decodeCommand_of_le {h : CommandWord} {ws : List CommandWord} (hn : payloadCount (decodeHeader h) ≤ ws.length) :
    decodeCommand (h :: ws) =
      .ok (⟨decodeHeader h, (ws.take (payloadCount (decodeHeader h))).map colorField⟩,
        ws.drop (payloadCount (decodeHeader h))) :=
  if_neg (Nat.not_lt.mpr hn)

/-- A list that ends inside the payload is not (log entry 27). -/
theorem decodeCommand_of_lt {h : CommandWord} {ws : List CommandWord} (hn : ws.length < payloadCount (decodeHeader h)) :
    decodeCommand (h :: ws) = .error (.payloadMissing ws.length (payloadCount (decodeHeader h))) :=
  if_pos hn

/-- The payload is the words after the header, each by its bits 23:0, and what follows them is left. -/
theorem decodeCommand_append {h : CommandWord} {ps : List CommandWord} (hn : ps.length = payloadCount (decodeHeader h))
    (rest : List CommandWord) : decodeCommand (h :: (ps ++ rest)) = .ok (⟨decodeHeader h, ps.map colorField⟩, rest) := by
  rw [decodeCommand_of_le (by rw [List.length_append]; omega), ← hn, List.take_left, List.drop_left]

end Sys2Proof

section
open Sys2Proof

/-- Settles O3: the header decodes back to its instruction, so that it asks for as many words as the payload has, and each payload word
holds its ColorWord in bits 23:0. -/
theorem commandRoundTrip : Obligations.CommandRoundTrip := by
  unfold Obligations.CommandRoundTrip
  rintro c ⟨i, payload⟩ rest hwf hheader hlen
  obtain ⟨hsome, hdecode⟩ := Laws.headerRoundTrip i
  obtain ⟨h, hencode⟩ := Option.isSome_iff_exists.mp (hsome.trans hheader)
  have hi : decodeHeader h = i := hdecode c h hwf hencode
  have hwords : (payload.map encodePayload).length = payloadCount (decodeHeader h) := by rw [List.length_map, hi]; exact hlen
  refine ⟨h :: payload.map encodePayload, encode_of_header hencode payload, ?_⟩
  rw [List.cons_append, decodeCommand_append hwords, hi, List.map_map]
  simp [Function.comp_def]

/-- Settles O2: the quotient is the opcode field, and each field is its arithmetic. -/
theorem headerFieldsByArithmetic : Obligations.HeaderFieldsByArithmetic := by
  unfold Obligations.HeaderFieldsByArithmetic
  intro cw
  have hop : ∀ op : BitVec 4, cw.toNat / 2 ^ 28 = op.toNat → opField cw = op := fun op => (opField_eq_iff cw op).mpr
  refine ⟨fun h => ?_, fun h => decodeHeader_clear (hop 2#4 h), fun h => ?_, fun h => ?_, fun h => ?_⟩
  · rw [decodeHeader_construct (hop 1#4 h), pinField_eq, segField_eq]
  · rw [decodeHeader_send (hop 3#4 h), colorField_eq]
  · rw [decodeHeader_sendPattern (hop 4#4 h), countField_eq]
  · rw [decodeHeader_reserved ((reservedOp_iff _).mpr (by rwa [opField_toNat])), opField_eq]

/-- Settles O4: the masks keep the fields the decoder looks at, CLEAR has no operand, and a reserved header is its opcode. -/
theorem reservedBitsAreNotExamined : Obligations.ReservedBitsAreNotExamined := by
  unfold Obligations.ReservedBitsAreNotExamined
  refine fun cw cw' => ⟨fun h => ?_, fun h => ?_, fun hop hres => ?_⟩
  · have hop := congrArg opField h
    have hlow := congrArg colorField h
    rw [opField_masked _ (by decide), opField_masked _ (by decide)] at hop
    rw [colorField_masked _ (by decide), colorField_masked _ (by decide)] at hlow
    exact decodeHeader_congr hop hlow
  · have hop := congrArg opField h
    rw [opField_masked _ (by decide)] at hop
    exact decodeHeader_clear hop
  · rw [decodeHeader_reserved hres, decodeHeader_reserved (hop ▸ hres), hop]

/-- Settles O5: the number of words is the header's payload count, and a payload word is read by its bits 23:0. -/
theorem framingFollowsTheHeader : Obligations.FramingFollowsTheHeader := by
  unfold Obligations.FramingFollowsTheHeader
  intro h ws n hn
  obtain rfl : n = payloadCount (decodeHeader h) := hn.trans (payloadCount_decodeHeader h).symm
  exact ⟨fun hle => ⟨_, decodeCommand_of_le hle, rfl, List.map_congr_left fun w _ => colorField_eq w⟩, decodeCommand_of_lt⟩

/-- Settles O1, each word decoded by computation. -/
theorem specHeadersDecode : Obligations.SpecHeadersDecode := by
  unfold Obligations.SpecHeadersDecode
  decide

/-- Settles O6: the decoder answers headers only, and an instruction has a header word exactly when it is one. -/
theorem microOperationsHaveNoEncoding : Obligations.MicroOperationsHaveNoEncoding := by
  unfold Obligations.MicroOperationsHaveNoEncoding
  refine ⟨decodeHeader_isHeader, fun i hi => ?_, decodeHeader_wellFormed⟩
  obtain ⟨hsome, -⟩ := Laws.headerRoundTrip i
  exact Option.isNone_iff_eq_none.mp (Option.isSome_eq_false_iff.mp (hsome.trans hi))

end
end

section
/-! The words of the assembler by arithmetic (30_encoding.md R62). -/

namespace Sys2Proof

theorem encodeHeader_construct (pin : PinIndex) (seg : SegCount) :
    encodeHeader (.construct pin seg) = some (BitVec.ofNat 32 (0x10000000 + seg.toNat * 256 + pin.toNat)) := by
  have := seg.isLt
  have := pin.isLt
  refine congrArg some (BitVec.eq_of_toNat_eq ?_)
  simp only [append_toNat, BitVec.toNat_ofNat]
  omega

/-- A header whose operand fills bits 23:0. -/
theorem headerWord_eq (op : BitVec 4) (w : BitVec 24) :
    (op ++ 0#4 ++ w : CommandWord) = BitVec.ofNat 32 (op.toNat * 2 ^ 28 + w.toNat) := by
  have := op.isLt
  have := w.isLt
  apply BitVec.eq_of_toNat_eq
  simp only [append_toNat, BitVec.toNat_ofNat]
  omega

theorem encodeHeader_send (w : ColorWord) : encodeHeader (.send w) = some (BitVec.ofNat 32 (0x30000000 + w.toNat)) :=
  congrArg some (headerWord_eq 3#4 w)

theorem encodeHeader_sendPattern (n : WordCount) :
    encodeHeader (.sendPattern n) = some (BitVec.ofNat 32 (0x40000000 + n.toNat)) :=
  congrArg some (headerWord_eq 4#4 n)

/-- A payload word within the assembler's limit is its number. -/
theorem encodePayload_ofNat {w : Nat} (h : w ≤ 0xFFFFFF) : encodePayload (BitVec.ofNat 24 w) = BitVec.ofNat 32 w := by
  apply BitVec.eq_of_toNat_eq
  rw [encodePayload_toNat, BitVec.toNat_ofNat, BitVec.toNat_ofNat]
  omega

end Sys2Proof

namespace Sys2Proof.Machine

/-! ### The words of each line -/

theorem assembleLine_construct (c : Params) (pin seg : Nat) :
    assembleLine c (.construct pin (some seg)) =
      if pin ≤ 255 ∧ seg ≤ 65535 then some [BitVec.ofNat 32 (0x10000000 + seg * 256 + pin)] else none := by
  dsimp only [assembleLine, Option.getD_some]
  refine if_ctx_congr Iff.rfl (fun ⟨hpin, hseg⟩ => ?_) fun _ => rfl
  rw [encode_of_header (encodeHeader_construct _ _), BitVec.toNat_ofNat, BitVec.toNat_ofNat, Nat.mod_eq_of_lt (by omega),
    Nat.mod_eq_of_lt (by omega), List.map_nil]

theorem assembleLine_send (c : Params) (w : Nat) :
    assembleLine c (.send w) = if w ≤ 0xFFFFFF then some [BitVec.ofNat 32 (0x30000000 + w)] else none := by
  dsimp only [assembleLine]
  refine if_ctx_congr Iff.rfl (fun hw => ?_) fun _ => rfl
  rw [encode_of_header (encodeHeader_send _), BitVec.toNat_ofNat, Nat.mod_eq_of_lt (by omega), List.map_nil]

theorem assembleLine_sendpattern (c : Params) (ws : List Nat) :
    assembleLine c (.sendpattern ws) =
      if ws.length ≤ 16777215 ∧ ws.all (fun w => decide (w ≤ 0xFFFFFF)) = true then
        some (BitVec.ofNat 32 (0x40000000 + ws.length) :: ws.map (BitVec.ofNat 32)) else none := by
  dsimp only [assembleLine]
  refine if_ctx_congr Iff.rfl (fun ⟨hlen, hws⟩ => ?_) fun _ => rfl
  have hpayload : (ws.map (BitVec.ofNat 24)).map encodePayload = ws.map (BitVec.ofNat 32) := by
    rw [List.map_map]
    exact List.map_congr_left fun w hw => encodePayload_ofNat (of_decide_eq_true (List.all_eq_true.mp hws w hw))
  rw [encode_of_header (encodeHeader_sendPattern _), BitVec.toNat_ofNat, Nat.mod_eq_of_lt (by omega), hpayload]

end Sys2Proof.Machine

section
open Sys2Proof.Machine

/-- Settles O7: within the limits no operand loses a bit, so that each word is its arithmetic. -/
theorem assemblerWords : Obligations.AssemblerWords := by
  unfold Obligations.AssemblerWords
  exact fun c => ⟨assembleLine_construct c, fun _ => rfl, rfl, assembleLine_send c, assembleLine_sendpattern c, fun _ hv => if_pos hv⟩

end
end

section
/-! The cycle of acceptance of a header (45_strip_controller.md R98) as an equation of whole states, and the statements about the word a
step runs and about the reserved headers. -/

namespace Sys2Proof.Machine

theorem step_of_header {s : State} {cw : CommandWord} (h : acceptedHeader s = some cw) :
    step s = exec (decodeHeader cw) s.acceptCycle := by
  simp only [step, h]

theorem busy_of_idle {s : State} (h : s.phase = .idle) : busy s = false := by
  simp [busy, h, Phase.isIdle]

theorem servePort_of_idle {s : State} {cw : CommandWord} (hp : s.phase = .idle) (h : presented s = some cw) :
    s.servePort = { s with host := s.host.tail } := by
  simp [State.servePort, h, (ready_iff s).mpr (.inl hp), State.accept, hp]

/-- In its cycle of acceptance a header leaves the stream, IE takes the host's write, and no other register changes. -/
theorem acceptCycle_eq {s : State} {cw : CommandWord} (h : acceptedHeader s = some cw) :
    s.acceptCycle =
      { s with
        host := s.host.tail
        pins := s.pins.tail
        ie := if (nowPins s).ieWe then (nowPins s).ieData else s.ie
        port := nextPort 0#256 0#256 s
        cycle := s.cycle + 1
        trace := outputs true 0#256 0#256 s :: s.trace } := by
  obtain ⟨hp, -, -, -, hcw⟩ := acceptedHeader_some h
  have hready : ready s = true := (ready_iff s).mpr (.inl hp)
  unfold State.acceptCycle State.advanceCycle
  rw [servePort_of_idle (by simpa using hp) ((presented_in_cycle s _ _ _ _).trans hcw), hready]
  cases hw : (nowPins s).ieWe <;> simp [State.hostWriteIe, State.elapse, hp, Phase.isIdle, hw]

/-! ### The word put where the next step takes its instruction from -/

theorem tableWord_zero {w : Nat} (hw : w < 2 ^ 32) : tableWord 32 w 0 = BitVec.ofNat 32 w := by
  rw [tableWord, Nat.mod_eq_of_lt hw, Nat.mul_zero, Nat.shiftRight_zero]

/-- A row's bits are one word: the words after it are zero. -/
theorem tableWord_succ {w : Nat} (hw : w < 2 ^ 32) (k : Nat) : tableWord 32 w (k + 1) = 0#32 := by
  have hlt : w < 2 ^ (32 * (k + 1)) := hw.trans_le (Nat.pow_le_pow_right (by decide) (by omega))
  rw [tableWord, Nat.mod_eq_of_lt hw, Nat.shiftRight_eq_div_pow, Nat.div_eq_of_lt hlt]

theorem withFetchWord_host (s : State) {w : Nat} (hw : w < 2 ^ 32) :
    (s.withFetchWord 32 w).host =
      ⟨0, BitVec.ofNat 32 w⟩ ::
        (List.replicate (payloadCount (decodeHeader (BitVec.ofNat 32 w))) ⟨0, 0#32⟩ ++ s.host) := by
  simp [State.withFetchWord, tableWord_zero hw, tableWord_succ hw, List.map_const']

/-- The block accepts the word in the present cycle, which is a quiet one. -/
theorem acceptedHeader_withFetchWord (s : State) {w : Nat} (hw : w < 2 ^ 32) :
    acceptedHeader (s.withFetchWord 32 w) = some (BitVec.ofNat 32 w) := by
  have hnow : nowPins (s.withFetchWord 32 w) = PinIn.quiet := rfl
  have hidle : (s.withFetchWord 32 w).phase = .idle := rfl
  simp [acceptedHeader, hidle, Phase.isIdle, secondWriter, advances, hnow, PinIn.quiet, presented, withFetchWord_host s hw]

end Sys2Proof.Machine

section
open Sys2Proof Sys2Proof.Machine

/-- Settles O13: the word is accepted in the present cycle, and the instruction runs from the end of that cycle. -/
theorem fetchedWordRuns : Obligations.FetchedWordRuns := by
  unfold Obligations.FetchedWordRuns
  intro s w hw
  have hacc := acceptedHeader_withFetchWord s hw
  refine ⟨(s.withFetchWord 32 w).acceptCycle, step_of_header hacc, ?_, ?_⟩
  · rw [decodeTableWord, tableWord_zero hw]
  · rw [acceptCycle_eq hacc, withFetchWord_host s hw]
    exact ⟨rfl, rfl, rfl, ⟨rfl, rfl, rfl, rfl⟩, rfl⟩

/-- Settles O22: a reserved header runs to the end of its cycle of acceptance, and the block is idle before and after it. -/
theorem reservedHeaderIsDropped : Obligations.ReservedHeaderIsDropped := by
  unfold Obligations.ReservedHeaderIsDropped
  refine ⟨fun _ _ => rfl, fun cw hres => ?_, fun s cw hacc hres => ?_⟩
  · rw [decodeHeader_reserved hres]
    exact ⟨rfl, rfl⟩
  · obtain ⟨hidle, -⟩ := acceptedHeader_some hacc
    have hstep : step s = .next s.acceptCycle := by rw [step_of_header hacc, decodeHeader_reserved hres]; rfl
    have hafter : s.acceptCycle.phase = .idle := by rw [acceptCycle_eq hacc]; exact hidle
    exact ⟨_, hstep, busy_of_idle hidle, busy_of_idle hafter, (ready_iff _).mpr (.inl hafter), acceptCycle_eq hacc⟩

end
end

section
/-! A bit of PORT that nobody else writes: what the cycles of an instruction make of it (20_memory.md R44, 41_gpio_line.md R67 to R70). -/

namespace Sys2Proof.Machine

theorem passed_of_trace {s u : State} {os : List Obs} (h : u.trace = os ++ s.trace) : passed s u = os.reverse := by
  simp [passed, h]

/-- In every cycle that has passed since `s` bit `j` of PORT was what it was in `s`; now it is `x`, and nobody else is to write it. -/
structure BitTurns (j : Nat) (s : State) (x : Bool) (u : State) : Prop where
  now : u.port.getLsbD j = x
  untouched : untouched j u.pins = true
  seen : ∃ os, u.trace = os ++ s.trace ∧ ∀ o ∈ os, o.port.getLsbD j = s.port.getLsbD j

/-- Bit `j` of PORT has kept its value since `s`. -/
abbrev BitHeld (j : Nat) (s u : State) : Prop := BitTurns j s (s.port.getLsbD j) u

section
variable {j : Nat} {s u v : State} {x : Bool}

theorem BitHeld.refl (h : untouched j s.pins = true) : BitHeld j s s := ⟨rfl, h, [], rfl, by simp⟩

theorem BitTurns.move (h : BitTurns j s x u) (hport : v.port = u.port) (hpins : v.pins = u.pins) (htrace : v.trace = u.trace) :
    BitTurns j s x v := ⟨hport ▸ h.now, hpins ▸ h.untouched, htrace ▸ h.seen⟩

theorem BitTurns.passed (h : BitTurns j s x u) : ∀ o ∈ passed s u, o.port.getLsbD j = s.port.getLsbD j := by
  obtain ⟨os, hos, hall⟩ := h.seen
  rw [passed_of_trace hos]
  exact fun o ho => hall o (List.mem_reverse.mp ho)

/-- A cycle records PORT as it is before the cycle's pulses `a` and `b` reach it. -/
theorem BitTurns.cycle (h : BitHeld j s u) {o : Obs} {a b : PortWord} (hport : v.port = nextPort a b u)
    (hpins : v.pins = u.pins.tail) (ho : o.port = u.port) (htrace : v.trace = o :: u.trace) :
    BitTurns j s ((s.port.getLsbD j || a.getLsbD j) && !b.getLsbD j) v := by
  obtain ⟨os, hos, hall⟩ := h.seen
  refine ⟨by rw [hport, nextPort_untouched h.untouched, h.now], ?_, o :: os, by rw [htrace, hos]; rfl, ?_⟩
  · rw [hpins, ← List.drop_one]
    exact untouched_drop 1 h.untouched
  · exact List.forall_mem_cons.mpr ⟨by rw [ho, h.now], hall⟩

theorem BitTurns.advanceCycle (h : BitHeld j s u) (a b : PortWord) :
    BitTurns j s ((s.port.getLsbD j || a.getLsbD j) && !b.getLsbD j) (u.advanceCycle a b) :=
  .cycle h (advanceCycle_port u a b) (advanceCycle_pins u a b) rfl (advanceCycle_trace u a b)

theorem BitHeld.advanceCycle (h : BitHeld j s u) {a b : PortWord} (ha : a.getLsbD j = false) (hb : b.getLsbD j = false) :
    BitHeld j s (u.advanceCycle a b) := by simpa [ha, hb] using BitTurns.advanceCycle h a b

theorem BitHeld.stallCycle (h : BitHeld j s u) : BitHeld j s u.stallCycle := by
  simpa using BitTurns.cycle h (stallCycle_port u) rfl rfl (stallCycle_trace u)

theorem BitHeld.resetCycle (h : BitHeld j s u) : BitHeld j s u.resetCycle := by
  simpa using BitTurns.cycle h (resetCycle_port u) rfl rfl (resetCycle_trace u)

/-! ### A drive operation -/

/-- The stalled cycles before an advancing one pulse nothing. -/
theorem BitHeld.advance (h : BitHeld j s u) (a b : PortWord) :
    (advance a b u).Sat (BitTurns j s ((s.port.getLsbD j || a.getLsbD j) && !b.getLsbD j)) (fun _ => True) True :=
  advance_sat (I := BitHeld j s) h (fun _ _ _ => trivial) (fun _ _ _ _ => trivial) (fun _ k _ _ _ => BitHeld.stallCycle k)
    (fun _ _ _ => trivial) fun _ k _ _ _ => BitTurns.advanceCycle k a b

/-- A micro-operation that pulses in its last cycle turns the bit at its end. -/
theorem operate_turns (h : untouched j s.pins = true) (ph : Phase) (n : Nat) (a b : PortWord) :
    (operate ph n a b id s).Sat (BitTurns j s ((s.port.getLsbD j || a.getLsbD j) && !b.getLsbD j)) (fun _ => True) True := by
  have hstart : BitHeld j s (s.enter ph n) := (BitHeld.refl h).move rfl rfl rfl
  have hquiet : ∀ v, BitHeld j s v → (Sys2Proof.Machine.advance 0#256 0#256 v).Sat (BitHeld j s) (fun _ => True) True :=
    fun v hv => by simpa using BitHeld.advance hv 0#256 0#256
  exact (waitCycles_sat hquiet (fun _ _ hv => hv.move rfl rfl rfl) (n - 1) hstart).andThen fun _ ht =>
    (BitHeld.advance ht a b).andThen fun _ hv => hv.move rfl rfl rfl

/-- A drive operation on a calm schedule whose stalls end: its cost, and what each bit of PORT is during it and after it. -/
theorem drive_turns {ph : Phase} {d : Drive}
    (hdoes : Does s (driveScript ph s.cfg.cDrive d) (operate ph s.cfg.cDrive (d.set s.pinmask) (d.clr s.pinmask) id s))
    (hlegal : s.cfg.legal = true) (hcalm : calm s.pinmask s.pins = true) (hends : stallsEnd s = true) :
    ∃ t, (operate ph s.cfg.cDrive (d.set s.pinmask) (d.clr s.pinmask) id s).outcome = .next t ∧ Took s.cfg.cDrive s t ∧
      ∀ j, untouched j s.pins = true →
        BitTurns j s ((s.port.getLsbD j || (d.set s.pinmask).getLsbD j) && !(d.clr s.pinmask).getLsbD j) t := by
  obtain ⟨t, os, ht, hended, -⟩ := hdoes.of_calm hcalm hends
  have htook := hended.took
  rw [driveScript_length, Nat.sub_add_cancel (legal_cDrive hlegal)] at htook
  refine ⟨t, congrArg Run.outcome ht, htook, fun j hj => ?_⟩
  have hturn := operate_turns hj ph s.cfg.cDrive (d.set s.pinmask) (d.clr s.pinmask)
  rwa [ht] at hturn

/-! ### A whole instruction -/

/-- While PINMASK leaves the bit out, no cycle of an instruction changes it. -/
theorem heldCarried (s : State) {m : PortWord} (hm : m.getLsbD j = false) :
    Carried (fun u => BitHeld j s u ∧ u.pinmask = m) (BitHeld j s) where
  adv := by
    rintro u d ⟨h, rfl⟩ - - - -
    exact ⟨BitHeld.advanceCycle h (by cases d <;> simp [Drive.set, hm]) (by cases d <;> simp [Drive.clr, hm]),
      advanceCycle_pinmask u _ _⟩
  stall := fun _ h _ _ _ _ => ⟨BitHeld.stallCycle h.1, h.2⟩
  reset := fun _ h _ _ _ => BitHeld.resetCycle h.1
  cut := fun _ h => h.1
  move := fun _ _ h ho hpins htrace => ⟨h.1.move ho.port hpins htrace, ho.pinmask.trans h.2⟩

theorem exec_portElsewhere {i : Instr} {s t : State} (hi : writesConfiguration i = false) (ht : exec i s = .next t) :
    PortElsewhere s.pinmask s t := fun _ hj hu =>
  ((heldCarried s hj).exec hi ⟨BitHeld.refl hu, rfl⟩ ht).now

end

end Sys2Proof.Machine
end

section
/-! The frame of the operations on the line (41_gpio_line.md R67, R68, 42_bit_encoder.md R71 to R74, 43_word_serializer.md R78,
44_reset_signal.md R84). -/

namespace Sys2Proof.Machine

/-- Without a hardware reset an operation on the line runs cycles of a script, whether or not a stall without end cuts it short, and only
TRANSMIT writes WORD and BITMASK. -/
theorem lineOperation_ran {i : Instr} {s t : State} (hi : isLineOperation i = true) (hn : noReset s.pins = true)
    (ht : exec i s = .next t) : (∃ l os, Ran s l os t) ∧ ((∀ w, i ≠ .transmit w) → KeptWord s t) := by
  have ofDoes {l : Script} {r : Run} (h : Does s l r) (hr : r.outcome = .next t) :
      (∃ l os, Ran s l os t) ∧ ((∀ w, i ≠ .transmit w) → KeptWord s t) := by
    obtain ⟨hword, hran⟩ := h.of_noReset hn hr
    exact ⟨hran, fun _ => hword⟩
  cases i with
  | driveHigh => exact ofDoes (driveHigh_does s) ht
  | driveLow => exact ofDoes (driveLow_does s .bitFall (live_of_isBit rfl)) ht
  | hold n => exact ofDoes (hold_does s _ (live_holdAfter _) n) ht
  | encodeBit1 => exact ofDoes (encodeBit1_does s) ht
  | encodeBit0 => exact ofDoes (encodeBit0_does s) ht
  | reset => exact ofDoes (resetSignal_does s) ht
  | transmit w =>
    refine ⟨?_, fun h => absurd rfl (h w)⟩
    have hdoes := (transmit_does s w).mono (Q' := fun t => CutShort s t ∧ True) (fun _ k => k) (fun _ k => ⟨k, trivial⟩) id
    rcases hdoes.of_noReset hn ht with ⟨⟨os, hended⟩, -⟩ | ⟨⟨-, -, hran⟩, -⟩
    · exact ⟨_, os, hended.toRan⟩
    · exact hran
  | _ => cases hi

end Sys2Proof.Machine
end

section
/-! The pin index map (20_memory.md R39, 41_gpio_line.md R65, R66). -/

namespace Sys2Proof

theorem pinValid_iff (w : Nat) (p : PinIndex) : pinValid w p = true ↔ p.toNat < w := decide_eq_true_iff

theorem maskOfPin_eq (w : Nat) (p : PinIndex) : maskOfPin w p = if p.toNat < w then 1#256 <<< p.toNat else 0#256 := by
  simp only [maskOfPin, pinValid_iff]

/-- A pin index is below 256, so that the bit of a valid one is never shifted out. -/
theorem maskOfPin_getLsbD (w : Nat) (p : PinIndex) (j : Nat) :
    (maskOfPin w p).getLsbD j = (decide (p.toNat < w) && decide (j = p.toNat)) := by
  have hp := p.isLt
  rw [maskOfPin_eq, Bool.eq_iff_iff]
  split
  · next hv => simp [hv]; omega
  · next hv => simp [hv]

theorem maskOfPin_eq_zero_iff (w : Nat) (p : PinIndex) : maskOfPin w p = 0#256 ↔ pinValid w p = false := by
  cases hv : pinValid w p with
  | false => simp [maskOfPin, hv]
  | true =>
    have hbit : (maskOfPin w p).getLsbD p.toNat = true := by simp [maskOfPin_getLsbD, (pinValid_iff w p).mp hv]
    have hne : maskOfPin w p ≠ 0#256 := fun h0 => by simp [h0] at hbit
    simpa using hne

end Sys2Proof

section
open Sys2Proof Sys2Proof.Machine

/-- Settles O24: DRIVEHIGH and DRIVELOW pulse PINMASK in their last cycle and nothing before it, and PORT follows at its end. -/
theorem driveOperationsSetTheLine : Obligations.DriveOperationsSetTheLine := by
  unfold Obligations.DriveOperationsSetTheLine
  intro s hlegal hcalm hends
  constructor
  · obtain ⟨t, ht, htook, hturn⟩ := drive_turns (d := .high) (driveHigh_does s) hlegal hcalm hends
    exact ⟨t, ht, htook, fun j hj => ⟨by simpa [Drive.set, Drive.clr] using (hturn j hj).now, (hturn j hj).passed⟩⟩
  · obtain ⟨t, ht, htook, hturn⟩ :=
      drive_turns (d := .low) (driveLow_does s .bitFall (live_of_isBit rfl)) hlegal hcalm hends
    exact ⟨t, ht, htook, fun j hj => ⟨by simpa [Drive.set, Drive.clr] using (hturn j hj).now, (hturn j hj).passed⟩⟩

/-- Settles O26: with PINMASK all-zero a drive pulses nothing, and every bit of PORT is one that PINMASK leaves out. -/
theorem disabledLineIsLeftAlone : Obligations.DisabledLineIsLeftAlone := by
  unfold Obligations.DisabledLineIsLeftAlone
  intro i s t hi hmask ht
  refine ⟨fun o ho => ?_, hmask ▸ exec_portElsewhere hi ht⟩
  have hpulses := (exec_pulsed ht).passed o ho
  rw [drivenMask_of_keeps hi, hmask] at hpulses
  obtain h | h | h := hpulses <;> exact h

/-- Settles O33: the cycles of an operation on the line leave the registers to the sequencer, and outside SENDPATTERN no payload word
can be accepted in them. -/
theorem lineOperationsFrame : Obligations.LineOperationsFrame := by
  unfold Obligations.LineOperationsFrame
  intro i s t hi hn ht
  obtain ⟨⟨l, os, hran⟩, hword⟩ := lineOperation_ran hi hn ht
  have hkept := hran.kept
  refine ⟨hkept.sameConfiguration, hran.ie, hkept.ieSaved, hkept.wcnt, hkept.cmd, hkept.latch, fun hcmd => ?_,
    fun hne => ⟨(hword hne).word, (hword hne).bitmask⟩, hran.others⟩
  obtain ⟨hhost, hfeed⟩ := hran.host (.inl hcmd)
  exact ⟨hfeed.fcnt, hfeed.nextWord, hfeed.nextValid, _, hhost⟩

/-- Settles O23: the two writes of PINSEL are its whole meaning, and the mask is empty exactly for a pin that does not exist. -/
theorem pinSelSelectsTheMask : Obligations.PinSelSelectsTheMask := by
  unfold Obligations.PinSelSelectsTheMask
  intro p s
  have hexec : exec (.pinSel p) s = .next (s.selectPin p) := rfl
  refine ⟨?_, maskOfPin_getLsbD _ p, pinValid_iff _ p, fun t ht => ?_, rfl⟩
  · rw [hexec, State.selectPin, maskOfPin_eq]
  · cases hexec.symm.trans ht
    rw [Bool.eq_iff_iff]
    simp [disabled, maskOfPin_eq_zero_iff]

end
end

section
/-! 41_gpio_line.md R69, R70: an instruction run from two states that differ in the line only takes the same cycles, and shows the same
`cmd_ready`, IE and `busy` in each. The two runs are followed cycle by cycle, whatever each of them pulses. -/

namespace Sys2Proof.Machine

/-! ### States that differ in the line -/

/-- `s` with another pin selected, another PORT, and other cycles seen before. -/
def State.withLine (p : PinIndex) (m q : PortWord) (tr : List Obs) (s : State) : State :=
  { s with pin := p, pinmask := m, port := q, trace := tr }

section
variable {u u' : State}

theorem SameButLine.exists_withLine (h : SameButLine u u') : ∃ p m q tr, u' = u.withLine p m q tr := ⟨_, _, _, _, h⟩

/-- What does not look at the line is the same. -/
theorem SameButLine.congr {α : Type} (h : SameButLine u u') (f : State → α)
    (hf : ∀ p m q tr, f (u.withLine p m q tr) = f u) : f u' = f u := by
  obtain ⟨p, m, q, tr, rfl⟩ := h.exists_withLine
  exact hf p m q tr

theorem SameButLine.cfg (h : SameButLine u u') : u'.cfg = u.cfg :=
  h.congr State.cfg fun _ _ _ _ => rfl

theorem SameButLine.phase (h : SameButLine u u') : u'.phase = u.phase :=
  h.congr State.phase fun _ _ _ _ => rfl

theorem SameButLine.pins (h : SameButLine u u') : u'.pins = u.pins :=
  h.congr State.pins fun _ _ _ _ => rfl

theorem SameButLine.advances (h : SameButLine u u') : advances u' = advances u :=
  h.congr Sys2Proof.Machine.advances fun _ _ _ _ => rfl

theorem SameButLine.nowPins (h : SameButLine u u') : nowPins u' = nowPins u :=
  h.congr Sys2Proof.Machine.nowPins fun _ _ _ _ => rfl

theorem SameButLine.hostWriteIe (h : SameButLine u u') (x : PinIn) : SameButLine (u.hostWriteIe x) (u'.hostWriteIe x) := by
  unfold State.hostWriteIe
  rw [h.phase]
  split
  · obtain ⟨p, m, q, tr, rfl⟩ := h.exists_withLine
    rfl
  · exact h

theorem SameButLine.accept (h : SameButLine u u') (cw : CommandWord) : SameButLine (u.accept cw) (u'.accept cw) := by
  obtain ⟨p, m, q, tr, rfl⟩ := h.exists_withLine
  unfold State.accept
  rw [h.phase]
  split <;> rfl

theorem SameButLine.servePort (h : SameButLine u u') : SameButLine u.servePort u'.servePort := by
  unfold State.servePort
  rw [h.congr presented fun _ _ _ _ => rfl, h.congr ready fun _ _ _ _ => rfl]
  obtain ⟨p, m, q, tr, rfl⟩ := h.exists_withLine
  split
  · split
    · have hnext : SameButLine { u with host := u.host.tail } { u.withLine p m q tr with host := u.host.tail } := rfl
      exact hnext.accept _
    · exact h
  · rfl

/-- Whatever the two pulse in an advancing cycle. -/
theorem SameButLine.advanceCycle (h : SameButLine u u') (a b a' b' : PortWord) :
    SameButLine (u.advanceCycle a b) (u'.advanceCycle a' b') := by
  obtain ⟨p, m, q, tr, rfl⟩ := h.exists_withLine
  exact ((show SameButLine (u.elapse _ a b) ((u.withLine p m q tr).elapse _ a' b') from rfl).hostWriteIe _).servePort

theorem SameButLine.stallCycle (h : SameButLine u u') : SameButLine u.stallCycle u'.stallCycle := by
  obtain ⟨p, m, q, tr, rfl⟩ := h.exists_withLine
  rfl

theorem SameButLine.resetCycle (h : SameButLine u u') : SameButLine u.resetCycle u'.resetCycle := by
  obtain ⟨p, m, q, tr, rfl⟩ := h.exists_withLine
  rfl

end

/-! ### Two runs in lockstep -/

/-- What a cycle shows of its timing. -/
def Obs.timing (o : Obs) : Bool × Bool × Bool := (o.cmdReady, o.ieOut, o.busy)

/-- From `s` to `u` and from `s'` to `u'` as many cycles have passed, with the same timing, and the states differ in the line only. -/
structure Alike (s s' u u' : State) : Prop where
  same : SameButLine u u'
  undriven : undriven u.pins = true
  seen : ∃ os os', u.trace = os ++ s.trace ∧ u'.trace = os' ++ s'.trace ∧ os.map Obs.timing = os'.map Obs.timing

/-- An update between two cycles that does not depend on the line. Each update of the model is seen to be one by unfolding it. -/
structure IgnoresLine (f : State → State) : Prop where
  same : ∀ u p m q tr, SameButLine (f u) (f (u.withLine p m q tr)) := by intros; rfl
  pins : ∀ u, (f u).pins = u.pins := by intro; rfl
  trace : ∀ u, (f u).trace = u.trace := by intro; rfl

/-- Two runs that end in the same way, at related states. -/
inductive Run.Coupled (R : State → State → Prop) : Run → Run → Prop where
  | completed {t t' : State} (h : R t t') : Run.Coupled R (.on t) (.on t')
  | cut {t t' : State} (h : R t t') : Run.Coupled R (.over t) (.over t')

theorem Run.Coupled.andThen {R : State → State → Prop} {r r' : Run} {f f' : State → Run} (h : r.Coupled R r')
    (hf : ∀ t t', R t t' → (f t).Coupled R (f' t')) : (r.andThen f).Coupled R (r'.andThen f') := by
  cases h with
  | completed h => exact hf _ _ h
  | cut h => exact .cut h

section
variable {s s' u u' : State}

theorem Alike.move (h : Alike s s' u u') (f : State → State) (hf : IgnoresLine f := by exact {}) :
    Alike s s' (f u) (f u') := by
  obtain ⟨p, m, q, tr, hu⟩ := h.same.exists_withLine
  refine ⟨hu ▸ hf.same u p m q tr, by rw [hf.pins]; exact h.undriven, ?_⟩
  rw [hf.trace, hf.trace]
  exact h.seen

/-- One more cycle with the same timing. -/
theorem Alike.cycle (h : Alike s s' u u') {v v' : State} {o o' : Obs} (hsame : SameButLine v v') (hp : v.pins = u.pins.tail)
    (ht : v.trace = o :: u.trace) (ht' : v'.trace = o' :: u'.trace) (ho : o.timing = o'.timing) : Alike s s' v v' := by
  obtain ⟨os, os', hos, hos', htiming⟩ := h.seen
  refine ⟨hsame, ?_, o :: os, o' :: os', by rw [ht, hos]; rfl, by rw [ht', hos']; rfl, by simp [ho, htiming]⟩
  rw [hp, ← List.drop_one]
  exact undriven_drop 1 h.undriven

theorem Alike.advanceCycle (h : Alike s s' u u') (a b a' b' : PortWord) :
    Alike s s' (u.advanceCycle a b) (u'.advanceCycle a' b') := by
  refine h.cycle (h.same.advanceCycle a b a' b') (advanceCycle_pins u a b) (advanceCycle_trace u a b)
    (advanceCycle_trace u' a' b') ?_
  exact (h.same.congr (fun v => (outputs (ready v) a b v).timing) fun _ _ _ _ => rfl).symm

theorem Alike.stallCycle (h : Alike s s' u u') : Alike s s' u.stallCycle u'.stallCycle := by
  refine h.cycle h.same.stallCycle rfl (stallCycle_trace u) (stallCycle_trace u') ?_
  exact (h.same.congr (fun v => (outputs false 0#256 0#256 v).timing) fun _ _ _ _ => rfl).symm

theorem Alike.resetCycle (h : Alike s s' u u') : Alike s s' u.resetCycle u'.resetCycle :=
  h.cycle h.same.resetCycle rfl (resetCycle_trace u) (resetCycle_trace u') rfl

/-- Where nobody else writes PORT, a cycle is of the same kind in both runs. -/
theorem Alike.advanceWithin (h : Alike s s' u u') (a b a' b' : PortWord) (n : Nat) :
    (advanceWithin a b n u).Coupled (Alike s s') (advanceWithin a' b' n u') := by
  induction n generalizing u u' with
  | zero => exact .cut h
  | succ n ih =>
    have hsw : secondWriter u = false := secondWriter_of_undriven h.undriven
    have hsw' : secondWriter u' = false := secondWriter_of_undriven (by rw [h.same.pins]; exact h.undriven)
    unfold Sys2Proof.Machine.advanceWithin tick
    rw [hsw, hsw', h.same.nowPins, h.same.advances]
    cases (nowPins u).rst with
    | true => exact .cut h.resetCycle
    | false =>
      cases advances u with
      | true => exact .completed (h.advanceCycle a b a' b')
      | false => exact ih h.stallCycle

theorem Alike.advance (h : Alike s s' u u') (a b a' b' : PortWord) :
    (advance a b u).Coupled (Alike s s') (advance a' b' u') := by
  unfold Sys2Proof.Machine.advance
  rw [h.same.pins]
  exact h.advanceWithin a b a' b' _

/-! ### The micro-operations -/

theorem Alike.waitCycles (h : Alike s s' u u') (n : Nat) : (waitCycles n u).Coupled (Alike s s') (waitCycles n u') := by
  induction n generalizing u u' with
  | zero => exact .completed h
  | succ n ih => exact (h.advance _ _ _ _).andThen fun _ _ ht => ih (ht.move State.countDly)

theorem Alike.waitPhase (h : Alike s s' u u') (ph : Phase) (n : Nat) :
    (waitPhase ph n u).Coupled (Alike s s') (waitPhase ph n u') := by
  unfold Sys2Proof.Machine.waitPhase
  split
  · exact .completed h
  · exact (h.move (State.enter ph n)).waitCycles n

theorem Alike.operate (h : Alike s s' u u') (ph : Phase) (n : Nat) (a b a' b' : PortWord) (write : State → State)
    (hw : IgnoresLine write := by exact {}) : (operate ph n a b write u).Coupled (Alike s s') (operate ph n a' b' write u') :=
  ((h.move (State.enter ph n)).waitCycles (n - 1)).andThen fun _ _ ht =>
    (ht.advance a b a' b').andThen fun _ _ hv => .completed ((hv.move fun x => { x with dly := 0 }).move write hw)

theorem Alike.driveHigh (h : Alike s s' u u') : (driveHigh u).Coupled (Alike s s') (driveHigh u') := by
  unfold Sys2Proof.Machine.driveHigh
  rw [h.same.cfg]
  exact h.operate _ _ _ _ _ _ id

theorem Alike.driveLow (h : Alike s s' u u') (ph : Phase) : (driveLow ph u).Coupled (Alike s s') (driveLow ph u') := by
  unfold Sys2Proof.Machine.driveLow
  rw [h.same.cfg]
  exact h.operate _ _ _ _ _ _ id

/-- A HOLD whose duration the configuration gives. -/
theorem Alike.holdFor (h : Alike s s' u u') (ph : Phase) (n : Params → Nat) :
    (hold ph (n u.cfg) u).Coupled (Alike s s') (hold ph (n u'.cfg) u') := by
  rw [h.same.cfg]
  exact h.waitPhase ph _

theorem Alike.encodeBit (h : Alike s s' u u') (v : Bool) :
    (if v then encodeBit1 u else encodeBit0 u).Coupled (Alike s s') (if v then encodeBit1 u' else encodeBit0 u') := by
  rw [encodeBit_eq, encodeBit_eq]
  exact h.driveHigh.andThen fun _ _ ht => (ht.holdFor .bitHigh (·.high v)).andThen fun _ _ hx =>
    (hx.driveLow .bitFall).andThen fun _ _ hy => hy.holdFor .bitLow (·.low v)

theorem Alike.transmitBits (h : Alike s s' u u') (k : Nat) :
    (transmitBits k u).Coupled (Alike s s') (transmitBits k u') := by
  induction k generalizing u u' with
  | zero => exact .completed h
  | succ k ih =>
    unfold Sys2Proof.Machine.transmitBits
    rw [h.same.congr State.bitValue fun _ _ _ _ => rfl]
    exact (h.encodeBit u.bitValue).andThen fun _ _ ht =>
      ((ht.move State.shiftMask).holdFor .bitGap (·.gBit)).andThen fun _ _ hx => ih hx

theorem Alike.transmit (h : Alike s s' u u') (w : ColorWord) : (transmit w u).Coupled (Alike s s') (transmit w u') :=
  (h.move (State.loadWord w)).transmitBits 24

theorem Alike.resetSignal (h : Alike s s' u u') : (resetSignal u).Coupled (Alike s s') (resetSignal u') :=
  (h.driveLow .rstDrive).andThen fun _ _ ht => ht.holdFor .rstHold Params.tRst

theorem Alike.irqMask (h : Alike s s' u u') : (irqMask u).Coupled (Alike s s') (irqMask u') := by
  unfold Sys2Proof.Machine.irqMask
  rw [h.same.cfg]
  exact h.operate _ _ _ _ _ _ State.maskIe

theorem Alike.irqRestore (h : Alike s s' u u') : (irqRestore u).Coupled (Alike s s') (irqRestore u') := by
  unfold Sys2Proof.Machine.irqRestore
  rw [h.same.cfg]
  exact h.operate _ _ _ _ _ _ State.restoreIe

/-! ### The commands -/

theorem Alike.maskedIf (h : Alike s s' u u') (masked : Bool) {body : State → Run}
    (hb : ∀ t t', Alike s s' t t' → (body t).Coupled (Alike s s') (body t')) :
    (maskedIf masked body u).Coupled (Alike s s') (maskedIf masked body u') := by
  unfold Sys2Proof.Machine.maskedIf
  split
  · exact h.irqMask.andThen fun t t' ht => (hb t t' ht).andThen fun _ _ => Alike.irqRestore
  · exact hb u u' h

theorem Alike.complete (h : Alike s s' u u') : (complete u).Coupled (Alike s s') (complete u') :=
  .completed (h.move State.finish)

theorem Alike.clearWords (h : Alike s s' u u') (n : Nat) : (clearWords n u).Coupled (Alike s s') (clearWords n u') := by
  induction n generalizing u u' with
  | zero => exact .completed h
  | succ n ih => exact (h.transmit _).andThen fun _ _ ht => ih (ht.move State.countWord)

theorem Alike.fetchWithin (h : Alike s s' u u') (fuel : Nat) :
    (fetchWithin fuel u).Coupled (Alike s s') (fetchWithin fuel u') := by
  induction fuel generalizing u u' with
  | zero => exact .cut h
  | succ fuel ih =>
    refine (h.advance _ _ _ _).andThen fun t t' ht => ?_
    rw [ht.same.phase]
    split
    · exact ih ht
    · exact .completed ht

theorem Alike.nextPayload (h : Alike s s' u u') : (nextPayload u).Coupled (Alike s s') (nextPayload u') := by
  unfold Sys2Proof.Machine.nextPayload
  rw [h.same.congr State.nextValid fun _ _ _ _ => rfl, h.same.congr fetchBound fun _ _ _ _ => rfl]
  split
  · exact .completed (h.move State.takeNext)
  · exact (h.move (State.enter .fetch 0)).fetchWithin _

theorem Alike.patternWords (h : Alike s s' u u') (n : Nat) :
    (patternWords n u).Coupled (Alike s s') (patternWords n u') := by
  induction n generalizing u u' with
  | zero => exact .completed h
  | succ n ih =>
    refine h.nextPayload.andThen fun t t' ht => ?_
    rw [ht.same.congr State.word fun _ _ _ _ => rfl]
    exact (ht.transmit t.word).andThen fun _ _ hx => ih (hx.move State.countWord)

theorem Alike.construct (h : Alike s s' u u') (p : PinIndex) (g : SegCount) :
    (construct p g u).Coupled (Alike s s') (construct p g u') := by
  unfold Sys2Proof.Machine.construct
  rw [h.same.cfg]
  exact ((h.move (State.begin .construct (packConstruct p g))).operate _ _ _ _ _ _
    (State.configure p g)).andThen fun _ _ ht => ht.resetSignal.andThen fun _ _ => Alike.complete

theorem Alike.clear (h : Alike s s' u u') : (clear u).Coupled (Alike s s') (clear u') := by
  unfold Sys2Proof.Machine.clear
  rw [h.same.congr State.segcount fun _ _ _ _ => rfl]
  refine ((h.move (State.begin .clear 0#24)).move State.loadSegments).resetSignal.andThen fun t t' ht => ?_
  rw [ht.same.congr uniform fun _ _ _ _ => rfl]
  exact (ht.maskedIf _ fun _ _ hx => hx.clearWords _).andThen fun _ _ => Alike.complete

theorem Alike.send (h : Alike s s' u u') (w : ColorWord) : (send w u).Coupled (Alike s s') (send w u') := by
  unfold Sys2Proof.Machine.send
  rw [h.same.congr uniform fun _ _ _ _ => rfl]
  exact ((h.move (State.begin .send w)).maskedIf _ fun _ _ hx => hx.transmit w).andThen fun _ _ => Alike.complete

theorem Alike.sendPattern (h : Alike s s' u u') (n : WordCount) :
    (sendPattern n u).Coupled (Alike s s') (sendPattern n u') :=
  (((h.move (State.begin .sendPattern 0#24)).move (State.loadCounts n)).maskedIf true
    fun _ _ hx => hx.patternWords _).andThen fun _ _ => Alike.complete

theorem Run.Coupled.outcome {R : State → State → Prop} {r r' : Run} {t : State} (h : r.Coupled R r')
    (ht : r.outcome = .next t) : ∃ t', r'.outcome = .next t' ∧ R t t' := by
  cases h with
  | completed h => cases ht; exact ⟨_, rfl, h⟩
  | cut h => cases ht; exact ⟨_, rfl, h⟩

/-- Every instruction, completed or cut short. -/
theorem Alike.exec (h : Alike s s' u u') (i : Instr) {t : State} (ht : exec i u = .next t) :
    ∃ t', exec i u' = .next t' ∧ Alike s s' t t' := by
  cases i with
  | construct p g => exact (h.construct p g).outcome ht
  | clear => exact h.clear.outcome ht
  | send w => exact (h.send w).outcome ht
  | sendPattern n => exact (h.sendPattern n).outcome ht
  | reserved op => cases ht; exact ⟨u', rfl, h⟩
  | pinSel p => cases ht; exact ⟨_, rfl, h.move (State.selectPin p)⟩
  | driveHigh => exact h.driveHigh.outcome ht
  | driveLow => exact (h.driveLow .bitFall).outcome ht
  | hold n =>
    have hhold : (hold u.phase.holdAfter n u).Coupled (Alike s s') (hold u'.phase.holdAfter n u') := by
      rw [h.same.phase]; exact h.waitPhase _ n
    exact hhold.outcome ht
  | encodeBit1 => exact (h.encodeBit true).outcome ht
  | encodeBit0 => exact (h.encodeBit false).outcome ht
  | transmit w => exact (h.transmit w).outcome ht
  | reset => exact h.resetSignal.outcome ht
  | irqMask => exact h.irqMask.outcome ht
  | irqRestore => exact h.irqRestore.outcome ht

end

theorem Alike.refl {s s' : State} (h : SameButLine s s') (hu : Sys2Proof.Machine.undriven s.pins = true) : Alike s s' s s' :=
  ⟨h, hu, [], [], rfl, rfl, rfl⟩

theorem Alike.passed_timing {s s' u u' : State} (h : Alike s s' u u') :
    (passed s u).map Obs.timing = (passed s' u').map Obs.timing := by
  obtain ⟨os, os', hos, hos', htiming⟩ := h.seen
  rw [passed_of_trace hos, passed_of_trace hos', List.map_reverse, List.map_reverse, htiming]

end Sys2Proof.Machine

section
open Sys2Proof.Machine

/-- Settles O27: the two runs are in lockstep, since no cycle's kind, no duration and no loop asks what the line is. -/
theorem timingIgnoresTheLine : Obligations.TimingIgnoresTheLine := by
  unfold Obligations.TimingIgnoresTheLine
  intro i s s' t hsame hundriven ht
  obtain ⟨t', ht', h⟩ := (Alike.refl hsame hundriven).exec i ht
  exact ⟨t', ht', h.same, h.passed_timing⟩

end
end

section
/-! The bit encoder on a calm schedule (42_bit_encoder.md R71 to R75, 46_interrupt_sync.md R109): what follows from the script of HOLD and
from that of a bit of either value. -/

namespace Sys2Proof.Machine

section
variable {s : State} {v : Bool} {r : Run}

/-- Whatever runs the cycles of a bit costs R73 or R74 and leaves the selected bit low. -/
theorem encodeScript_cost (hdoes : Does s (encodeScript s.cfg v) r) (hlegal : s.cfg.legal = true)
    (hcalm : calm s.pinmask s.pins = true) (hends : stallsEnd s = true) :
    ∃ t, r.outcome = .next t ∧ Took (2 * s.cfg.cDrive + s.cfg.high v + s.cfg.low v) s t ∧ t.port &&& s.pinmask = 0#256 := by
  obtain ⟨t, os, ht, hended, -⟩ := hdoes.of_calm hcalm hends
  have htook := hended.took
  rw [encodeScript_length (legal_cDrive hlegal)] at htook
  exact ⟨t, congrArg Run.outcome ht, htook, hended.owned.trans (portAfter_encodeScript _ _ (and_and_not _ _))⟩

/-- On an owned line that nothing stalls, the selected bit of PORT is the line: it follows the drives of the script. -/
theorem encodeScript_levels (hdoes : Does s (encodeScript s.cfg v) r) (hlegal : s.cfg.legal = true)
    (hcalm : calm s.pinmask s.pins = true) (hnever : neverStalls s = true) (hline : LineOwned s) :
    ∃ t, r.outcome = .next t ∧ lineLevels (passed s t) =
      List.replicate s.cfg.cDrive false ++ List.replicate (s.cfg.high v + s.cfg.cDrive) true ++
        List.replicate (s.cfg.low v) false ∧ LineOwned t := by
  obtain ⟨t, os, ht, hended, -⟩ := hdoes.of_calm hcalm (stallsEnd_of_neverStalls hnever)
  refine ⟨t, congrArg Run.outcome ht, ?_, hline.after hended.toRan (portAfter_encodeScript _ _ BitVec.zero_and)⟩
  rw [hline.levels hnever hended.toRan, portDuring_encodeScript (legal_cDrive hlegal)]
  simp [hline.bit, Params.pulseHigh]

end

end Sys2Proof.Machine

section
open Sys2Proof.Machine

/-- Settles O29: ENCODEBIT1 and ENCODEBIT0 run the script of a bit, of value 1 and of value 0. -/
theorem encodeBitTakesItsCycles : Obligations.EncodeBitTakesItsCycles := by
  unfold Obligations.EncodeBitTakesItsCycles
  exact fun s hlegal hcalm hends => ⟨encodeScript_cost (encodeBit1_does s) hlegal hcalm hends,
    encodeScript_cost (encodeBit0_does s) hlegal hcalm hends⟩

/-- Settles O30: the levels are those of the script of a bit, for either value. -/
theorem encodeBitWaveform : Obligations.EncodeBitWaveform := by
  unfold Obligations.EncodeBitWaveform
  exact fun s hlegal hcalm hnever hline => ⟨encodeScript_levels (encodeBit1_does s) hlegal hcalm hnever hline,
    encodeScript_levels (encodeBit0_does s) hlegal hcalm hnever hline⟩

/-- Settles O28: HOLD(n) runs n cycles without a drive, whatever phase it belongs to, and HOLD(0) runs none. -/
theorem holdTakesItsCycles : Obligations.HoldTakesItsCycles := by
  unfold Obligations.HoldTakesItsCycles
  intro n s hcalm hends
  obtain ⟨t, os, ht, hended, -⟩ := (hold_does s _ (live_holdAfter s.phase) n).of_calm hcalm hends
  have htook := hended.took
  rw [waitScript_length] at htook
  obtain ⟨hquiet, hbits⟩ := hended.silent (silent_waitScript _ n)
  refine ⟨⟨t, congrArg Run.outcome ht, htook, hended.ie, fun j _ hj => (hbits j hj).1, fun o ho => ?_⟩, rfl⟩
  rw [hended.passed, List.mem_reverse] at ho
  obtain ⟨hset, hclr, -⟩ := hquiet o ho
  exact ⟨hset, hclr⟩

end
end

section
/-! The word serializer on a calm schedule (43_word_serializer.md R78, R79, R83): the cost of TRANSMIT from the length of its script, and
the pulses that its levels make, by the runs of equal levels (00_scope.md R14). -/

namespace Sys2Proof.Machine

/-! ### Runs of equal levels -/

/-- The first run is one of the first level. -/
theorem levelRuns_cons (b : Bool) (l : List Bool) : ∃ n rs, levelRuns (b :: l) = (b, n) :: rs := by
  change ∃ n rs, addLevel b (levelRuns l) = (b, n) :: rs
  fun_cases addLevel b (levelRuns l)
  case case1 => exact ⟨1, [], rfl⟩
  case case2 n rs => exact ⟨n + 1, rs, rfl⟩
  case case3 c n rs _ => exact ⟨1, (c, n) :: rs, rfl⟩

/-- A level before one that differs is a run of its own. -/
theorem levelRuns_cons_of_head {b : Bool} {l : List Bool} (h : l.head? ≠ some b) :
    levelRuns (b :: l) = (b, 1) :: levelRuns l := by
  cases l with
  | nil => rfl
  | cons c l =>
    obtain ⟨n, rs, hruns⟩ := levelRuns_cons c l
    have hne : b ≠ c := fun hbc => h (congrArg some hbc.symm)
    change addLevel b (levelRuns (c :: l)) = _
    rw [hruns, addLevel, if_neg hne]

/-- Equal levels before one that differs are one run. -/
theorem levelRuns_replicate {b : Bool} {l : List Bool} (h : l.head? ≠ some b) {n : Nat} (hn : 1 ≤ n) :
    levelRuns (List.replicate n b ++ l) = (b, n) :: levelRuns l := by
  induction n, hn using Nat.le_induction with
  | base => exact levelRuns_cons_of_head h
  | succ n _ ih =>
    change addLevel b (levelRuns (List.replicate n b ++ l)) = _
    rw [ih, addLevel, if_pos rfl]

/-! ### Pulses -/

/-- A low level before everything else belongs to no pulse. -/
theorem pulses_false_cons (l : List Bool) : pulses (false :: l) = pulses l := by
  change pulsesOfRuns (addLevel false (levelRuns l)) = pulsesOfRuns (levelRuns l)
  fun_cases addLevel false (levelRuns l)
  case case1 => rfl
  case case2 => rfl
  case case3 => rfl

theorem pulses_low (n : Nat) (l : List Bool) : pulses (List.replicate n false ++ l) = pulses l := by
  induction n with
  | zero => rfl
  | succ n ih => exact (pulses_false_cons _).trans ih

/-- The last pulse has no gap to measure, whether or not low levels follow (log entry 29). -/
theorem pulses_last {h : Nat} (hh : 1 ≤ h) (g : Nat) :
    pulses (List.replicate h true ++ List.replicate g false) = [⟨h, none⟩] := by
  have hhead : (List.replicate g false).head? ≠ some true := by cases g <;> simp [List.replicate_succ]
  rw [pulses, levelRuns_replicate hhead hh]
  cases g with
  | zero => rfl
  | succ g =>
    have hlow := levelRuns_replicate (b := false) (l := []) (by simp) (Nat.le_add_left 1 g)
    rw [List.append_nil] at hlow
    rw [hlow]
    rfl

/-- A pulse and the gap to the next one. -/
theorem pulses_before_pulse {h g : Nat} (hh : 1 ≤ h) (hg : 1 ≤ g) (l : List Bool) :
    pulses (List.replicate h true ++ (List.replicate g false ++ true :: l)) = ⟨h, some g⟩ :: pulses (true :: l) := by
  obtain ⟨m, rfl⟩ := Nat.exists_eq_add_of_le' hg
  obtain ⟨n, rs, hruns⟩ := levelRuns_cons true l
  rw [pulses, levelRuns_replicate (by simp [List.replicate_succ]) hh, levelRuns_replicate (by simp) hg, pulses, hruns]
  rfl

/-! ### The pulses of a word -/

/-- The pulses of bits k, k+1, ..., k+n: each has the gap of its bit before the next, but for the last. -/
def bitsPulses (c : Params) (w : ColorWord) (k n : Nat) : List Pulse :=
  (List.range (n + 1)).map fun i =>
    ⟨c.pulseHigh (w.getLsbD (k + i)), if i = n then none else some (c.pulseGap (w.getLsbD (k + i)))⟩

section
variable {c : Params} (hdrive : 1 ≤ c.cDrive) (w : ColorWord)

theorem bitsPulses_zero (k : Nat) : bitsPulses c w k 0 = [⟨c.pulseHigh (w.getLsbD k), none⟩] := rfl

theorem bitsPulses_succ (k n : Nat) : bitsPulses c w k (n + 1) =
    ⟨c.pulseHigh (w.getLsbD k), some (c.pulseGap (w.getLsbD k))⟩ :: bitsPulses c w (k + 1) n := by
  rw [bitsPulses, List.range_succ_eq_map, List.map_cons, List.map_map, bitsPulses]
  simp [Function.comp_def, Nat.add_assoc, Nat.add_comm 1]

theorem wordPulses_eq_bitsPulses : wordPulses c w = bitsPulses c w 0 23 := by simp [wordPulses, bitsPulses]

include hdrive

theorem pulseHigh_pos (v : Bool) : 1 ≤ c.pulseHigh v := hdrive.trans (Nat.le_add_left _ _)

/-- A bit is low while DRIVEHIGH runs and high in the next cycle. -/
theorem bitsLevels_rise (k n : Nat) :
    ∃ l, bitsLevels c w k (n + 1) = List.replicate c.cDrive false ++ true :: l := by
  obtain ⟨h, hh⟩ := Nat.exists_eq_add_of_le' (pulseHigh_pos hdrive (w.getLsbD k))
  exact ⟨_, by rw [bitsLevels, bitLevels, hh, List.replicate_succ, List.append_assoc, List.append_assoc, List.cons_append]⟩

/-- The low levels after a pulse and those before the next one are one gap (42_bit_encoder.md R75). -/
theorem pulses_bitsLevels (k n : Nat) : pulses (bitsLevels c w k (n + 1)) = bitsPulses c w k n := by
  induction n generalizing k with
  | zero =>
    rw [bitsLevels, bitsLevels, bitLevels, List.append_nil, List.append_assoc, pulses_low,
      pulses_last (pulseHigh_pos hdrive _), bitsPulses_zero]
  | succ n ih =>
    obtain ⟨l, hl⟩ := bitsLevels_rise hdrive w (k + 1) n
    have hnext : pulses (true :: l) = bitsPulses c w (k + 1) n := by rw [← ih, hl, pulses_low]
    have hgap : 1 ≤ c.pulseGap (w.getLsbD k) := hdrive.trans (Nat.le_add_left _ _)
    calc pulses (bitsLevels c w k (n + 2))
        = pulses (List.replicate (c.pulseHigh (w.getLsbD k)) true ++
            (List.replicate (c.pulseGap (w.getLsbD k)) false ++ true :: l)) := by
          rw [bitsLevels, hl, bitLevels, List.append_assoc, List.append_assoc, pulses_low,
            ← List.append_assoc (List.replicate _ false), List.replicate_append_replicate, Params.pulseGap]
      _ = bitsPulses c w k (n + 1) := by
          rw [pulses_before_pulse (pulseHigh_pos hdrive _) hgap, hnext, bitsPulses_succ]

theorem pulses_wordLevels : pulses (wordLevels c w) = wordPulses c w :=
  (pulses_bitsLevels hdrive w 0 23).trans (wordPulses_eq_bitsPulses w).symm

end

/-! ### TRANSMIT -/

section
variable {s : State} (w : ColorWord) (hlegal : s.cfg.legal = true) (hcalm : calm s.pinmask s.pins = true)
include hlegal hcalm

/-- TRANSMIT costs R78's W(w); it ends when the mask has been shifted out, with the selected bit low. -/
theorem transmit_cost (hends : stallsEnd s = true) :
    ∃ t, exec (.transmit w) s = .next t ∧ Took (s.cfg.wordCycles w) s t ∧ t.word = w ∧ t.bitmask = 0#24 ∧
      t.port &&& s.pinmask = 0#256 := by
  obtain ⟨t, ht, ⟨os, hended⟩, -, hword, hmask⟩ := (transmit_does s w).of_calm hcalm hends
  have htook := hended.took
  rw [wordScript_length (legal_cDrive hlegal)] at htook
  exact ⟨t, congrArg Run.outcome ht, htook, hword, hmask,
    hended.owned.trans (portAfter_wordScript _ w (and_and_not _ _))⟩

/-- On an owned line that nothing stalls, the selected bit of PORT is the line: it follows the drives of the script. -/
theorem transmit_levels (hnever : neverStalls s = true) (hline : LineOwned s) :
    ∃ t, exec (.transmit w) s = .next t ∧ lineLevels (passed s t) = wordLevels s.cfg w ∧ LineOwned t := by
  obtain ⟨t, ht, ⟨os, hended⟩, -⟩ := (transmit_does s w).of_calm hcalm (stallsEnd_of_neverStalls hnever)
  refine ⟨t, congrArg Run.outcome ht, ?_, hline.after hended.toRan (portAfter_wordScript _ w BitVec.zero_and)⟩
  rw [hline.levels hnever hended.toRan, wordScript,
    portDuring_bitsScript (legal_cDrive hlegal) w 0 24 s.pinmask _ hline.bit, wordLevels]

end

end Sys2Proof.Machine

section
open Sys2Proof.Machine

/-- Settles O31: TRANSMIT runs the script of its word, which is W(w) cycles long. -/
theorem transmitTakesItsCycles : Obligations.TransmitTakesItsCycles := by
  unfold Obligations.TransmitTakesItsCycles
  exact fun w _ hlegal hcalm hends => transmit_cost w hlegal hcalm hends

/-- Settles O32: the levels are those of the bits in order, and each bit makes one pulse of them. -/
theorem transmitSendsTheBitsInOrder : Obligations.TransmitSendsTheBitsInOrder := by
  unfold Obligations.TransmitSendsTheBitsInOrder
  intro w s hlegal hcalm hnever hline
  obtain ⟨t, ht, hlevels, howned⟩ := transmit_levels w hlegal hcalm hnever hline
  exact ⟨t, ht, hlevels, by rw [hlevels, pulses_wordLevels (legal_cDrive hlegal)], howned⟩

end
end

section
/-! RESET on a calm schedule (44_reset_signal.md R84, R85): its cost and the selected bit at its end from its script, and the selected bit
in the cycles of its hold. -/

namespace Sys2Proof.Machine

variable {s u : State}

/-- Stalled cycles come on top of the advancing ones. -/
theorem Spans.le {n m : Nat} (h : Spans s n m) : n ≤ m :=
  calc n = (List.range m).countP (goesOn s) := h.1.symm
    _ ≤ (List.range m).length := List.countP_le_length
    _ = m := List.length_range

/-- The records of the last cycles, as many as the script has, are all of cycles of the script. -/
theorem Ended.mem_of_mem_take {l : Script} {os : List Obs} (h : Ended s l os u) {o : Obs}
    (ho : o ∈ u.trace.take l.length) : o ∈ os := by
  rw [h.trace, List.take_append_of_le_length h.spans.le] at ho
  exact List.mem_of_mem_take ho

/-- DRIVELOW completes with the selected bit low. -/
theorem driveLow_low {ph : Phase} (hph : ph.live) (hcalm : calm s.pinmask s.pins = true) (hends : stallsEnd s = true) :
    ∃ t os, driveLow ph s = .on t ∧ Ended s (driveScript ph s.cfg.cDrive .low) os t ∧ t.port &&& s.pinmask = 0#256 := by
  obtain ⟨t, os, ht, hended, -⟩ := (driveLow_does s ph hph).of_calm hcalm hends
  refine ⟨t, os, ht, hended, ?_⟩
  rw [hended.owned, portAfter_driveScript, Drive.apply_low, and_and_not]

/-- HOLD(n) keeps a low selected bit low in each of its cycles. -/
theorem hold_low {ph : Phase} (hph : ph.live) (n : Nat) (hcalm : calm s.pinmask s.pins = true) (hends : stallsEnd s = true)
    (hlow : s.port &&& s.pinmask = 0#256) :
    ∃ t, hold ph n s = .on t ∧ ∀ o ∈ t.trace.take n, o.port &&& s.pinmask = 0#256 := by
  obtain ⟨t, os, ht, hended, -⟩ := (hold_does s ph hph n).of_calm hcalm hends
  obtain ⟨hquiet, -⟩ := hended.silent (silent_waitScript ph n)
  refine ⟨t, ht, fun o ho => ?_⟩
  obtain ⟨-, -, hkept⟩ := hquiet o (hended.mem_of_mem_take (by rwa [waitScript_length]))
  exact hkept.trans hlow

/-- RESET holds from where its DRIVELOW has ended, so that the selected bit is low in its last T_RST cycles. -/
theorem resetSignal_low (hcalm : calm s.pinmask s.pins = true) (hends : stallsEnd s = true) :
    ∃ t, resetSignal s = .on t ∧ ∀ o ∈ t.trace.take s.cfg.tRst, o.port &&& s.pinmask = 0#256 := by
  obtain ⟨u, os, hu, hended, hlow⟩ := driveLow_low (ph := .rstDrive) (by simp [Phase.live]) hcalm hends
  have hmask : u.pinmask = s.pinmask := hended.kept.pinmask
  have hends' : stallsEnd u = true := by rwa [stallsEnd, hended.ie, hended.kept.stallAfter]
  obtain ⟨t, ht, hheld⟩ := hold_low (s := u) (ph := .rstHold) (by simp [Phase.live]) u.cfg.tRst
    (by rw [hmask]; exact hended.toRan.calm hcalm) hends' (by rwa [hmask])
  rw [hended.kept.cfg, hmask] at hheld
  exact ⟨t, by rw [resetSignal, hu, andThen_on, ht], hheld⟩

end Sys2Proof.Machine

section
open Sys2Proof.Machine

/-- Settles O34: RESET runs its script, which costs C_DRIVE + T_RST and ends low, and its hold finds the selected bit low already. -/
theorem resetHoldsTheLineLow : Obligations.ResetHoldsTheLineLow := by
  unfold Obligations.ResetHoldsTheLineLow
  intro s hlegal hcalm hends
  obtain ⟨t, ht, hheld⟩ := resetSignal_low hcalm hends
  obtain ⟨t', os, ht', hended, -⟩ := (resetSignal_does s).of_calm hcalm hends
  obtain rfl : t = t' := Run.on.inj (ht.symm.trans ht')
  have htook := hended.took
  rw [resetScript_length (legal_cDrive hlegal)] at htook
  exact ⟨t, congrArg Run.outcome ht, htook, hended.owned.trans (portAfter_resetScript _ (and_and_not _ _)), hheld⟩

end
end

section
/-! From the acceptance of a header to the end of its command (45_strip_controller.md R90, R98): the step as an instruction run from the end
of the cycle of acceptance, and `busy` in every cycle after that one. -/

namespace Sys2Proof.Machine

theorem acceptedHeader_of_host {s : State} {cw : CommandWord} {hs : List HostWord} (hidle : s.phase = .idle)
    (hhost : s.host = ⟨0, cw⟩ :: hs) (hwriter : secondWriter s = false) (hrst : (nowPins s).rst = false)
    (hadv : advances s = true) : acceptedHeader s = some cw := by
  simp [acceptedHeader, hidle, Phase.isIdle, hwriter, hrst, hadv, presented, hhost]

/-! ### The cycles of a command -/

/-- Every cycle since `s` has shown `busy`, and no hardware reset is to come. -/
structure BusySince (s u : State) : Prop where
  seen : ∃ os, u.trace = os ++ s.trace ∧ ∀ o ∈ os, o.busy = true
  noReset : noReset u.pins = true

theorem BusySince.refl {s : State} (h : Sys2Proof.Machine.noReset s.pins = true) : BusySince s s := ⟨⟨[], rfl, by simp⟩, h⟩

section
variable {s u v : State}

theorem BusySince.move (h : BusySince s u) (hpins : v.pins = u.pins) (htrace : v.trace = u.trace) : BusySince s v :=
  ⟨htrace ▸ h.seen, hpins ▸ h.noReset⟩

theorem BusySince.cycle (h : BusySince s u) {o : Obs} (hpins : v.pins = u.pins.tail) (htrace : v.trace = o :: u.trace)
    (ho : o.busy = true) : BusySince s v := by
  obtain ⟨os, hos, hall⟩ := h.seen
  exact ⟨⟨o :: os, by rw [htrace, hos]; rfl, List.forall_mem_cons.mpr ⟨ho, hall⟩⟩, hpins ▸ noReset_tail h.noReset⟩

theorem busy_of_not_idle (h : u.phase ≠ .idle) : busy u = true := by
  rw [busy, Bool.not_eq_true', Bool.eq_false_iff, ne_eq, isIdle_iff]
  exact h

theorem BusySince.advanceCycle (h : BusySince s u) (hbusy : u.phase ≠ .idle) (a b : PortWord) :
    BusySince s (u.advanceCycle a b) :=
  h.cycle (advanceCycle_pins u a b) (advanceCycle_trace u a b) (busy_of_not_idle hbusy)

theorem BusySince.stallCycle (h : BusySince s u) (hbusy : u.phase ≠ .idle) : BusySince s u.stallCycle :=
  h.cycle rfl (stallCycle_trace u) (busy_of_not_idle hbusy)

theorem BusySince.no_reset (h : BusySince s u) (hr : (nowPins u).rst = true) : False := by
  rw [rst_of_noReset h.noReset] at hr; cases hr

end

theorem busyCarried (s : State) : Carried (BusySince s) (BusySince s) where
  adv := fun _ _ h hbusy _ _ _ => h.advanceCycle hbusy _ _
  stall := fun _ h hbusy _ _ _ => h.stallCycle hbusy
  reset := fun _ h _ _ hr => (h.no_reset hr).elim
  cut := fun _ h => h
  move := fun _ _ h _ hpins htrace => h.move hpins htrace

/-- So does CONSTRUCT, whose one write of the configuration Carried leaves out. -/
theorem construct_busy {s u : State} (h : BusySince s u) (p : PinIndex) (g : SegCount) :
    (construct p g u).Carries (BusySince s) (BusySince s) := by
  refine ((busyCarried s).stable.operate .cfg u.cfg.cCfg .none (State.configure p g) (l := [])
    (s := u.begin .construct (packConstruct p g)) (h.move rfl rfl) (by simp [Phase.live])).andThen ?_
  rintro _ ⟨v, rfl, hv, -⟩
  exact (busyCarried s).resetThenComplete (hv.move rfl rfl)

/-- Every instruction, completed or cut short. -/
theorem exec_busy {i : Instr} {s t : State} (hn : noReset s.pins = true) (ht : exec i s = .next t) : BusySince s t := by
  cases hi : writesConfiguration i with
  | false => exact (busyCarried s).exec hi (.refl hn) ht
  | true =>
    cases i with
    | construct p g => exact (construct_busy (.refl hn) p g).cut_of_outcome (busyCarried s) ht
    | pinSel p => cases ht; exact (BusySince.refl hn).move rfl rfl
    | _ => cases hi

/-! ### A command takes time -/

/-- At least `n` cycles are on record. -/
abbrev Recorded (n : Nat) (u : State) : Prop := n ≤ u.trace.length

theorem recordedCarried (n : Nat) : Carried (Recorded n) (Recorded n) where
  adv := fun u d h _ _ _ _ => by rw [Recorded, advanceCycle_trace]; exact Nat.le_succ_of_le h
  stall := fun u h _ _ _ _ => by rw [Recorded, stallCycle_trace]; exact Nat.le_succ_of_le h
  reset := fun u h _ _ _ => by rw [Recorded, resetCycle_trace]; exact Nat.le_succ_of_le h
  cut := fun _ h => h
  move := fun _ _ h _ _ htrace => by rw [Recorded, htrace]; exact h

/-- However a run ends, at least `n` cycles are on record then. -/
abbrev Run.Records (n : Nat) (r : Run) : Prop := r.Carries (Recorded n) (Recorded n)

theorem advanceWithin_records (a b : PortWord) (fuel : Nat) {n : Nat} {u : State} (h : Recorded n u) :
    (advanceWithin a b fuel u).Records (if fuel = 0 then n else n + 1) := by
  induction fuel generalizing n u with
  | zero => exact h
  | succ fuel ih =>
    rw [if_neg (Nat.succ_ne_zero _)]
    have hmore : ∀ v o, v.trace = o :: u.trace → Recorded (n + 1) v := fun v o hv => by
      rw [Recorded, hv, List.length_cons]; exact Nat.succ_le_succ h
    unfold advanceWithin
    rcases tick_cases u a b with ⟨-, e⟩ | ⟨-, -, e⟩ | ⟨-, -, -, e⟩ | ⟨-, -, -, e⟩ <;> rw [e]
    · trivial
    · exact hmore _ _ (resetCycle_trace u)
    · exact hmore _ _ (advanceCycle_trace u a b)
    · have hstall := ih (hmore _ _ (stallCycle_trace u))
      split at hstall
      · exact hstall
      · exact Run.Sat.mono hstall (fun _ k => Nat.le_of_succ_le k) (fun _ k => Nat.le_of_succ_le k) id

theorem advance_records (a b : PortWord) {n : Nat} {u : State} (h : Recorded n u) : (advance a b u).Records (n + 1) :=
  advanceWithin_records a b (u.pins.length + 1) h

/-- A micro-operation of the form of `operate` takes at least one cycle, whatever its count. -/
theorem operate_records (ph : Phase) (k : Nat) (a b : PortWord) {write : State → State}
    (hwrite : ∀ t, (write t).trace = t.trace) {n : Nat} {u : State} (h : Recorded n u) :
    (operate ph k a b write u).Records (n + 1) := by
  have hwait : (waitCycles (k - 1) (u.enter ph k)).Sat (Recorded n) (Recorded (n + 1)) True :=
    waitCycles_sat (fun v hv => (advance_records _ _ hv).imp fun _ => Nat.le_of_succ_le) (fun _ _ hv => hv) (k - 1) h
  refine hwait.andThen fun v hv => Run.Sat.andThen (advance_records a b hv) fun t ht => ?_
  show Recorded (n + 1) (write { t with dly := 0 })
  rw [Recorded, hwrite]
  exact ht

theorem Carried.transmitBits {I Q : State → Prop} (C : Carried I Q) (k : Nat) {u : State} (h : I u) :
    (transmitBits k u).Carries I Q := by
  induction k generalizing u with
  | zero => exact h
  | succ k ih =>
    refine (C.encodeBit h _).andThen fun t ht => ?_
    have hshift : I t.shiftMask := C.move t _ ht (shiftMask_outside t) rfl rfl
    exact (C.stable.waitPhase .bitGap _ (l := []) hshift (live_of_isBit rfl)).andThen fun _ hv => ih hv.1

/-- TRANSMIT starts with the DRIVEHIGH of its first bit. -/
theorem transmit_records (w : ColorWord) {n : Nat} {u : State} (h : Recorded n u) : (transmit w u).Records (n + 1) := by
  have C := recordedCarried (n + 1)
  have hrise : (driveHigh (u.loadWord w)).Records (n + 1) := operate_records _ _ _ _ (write := id) (fun _ => rfl) h
  have hbit (v : Bool) : (if v then encodeBit1 (u.loadWord w) else encodeBit0 (u.loadWord w)).Records (n + 1) := by
    rw [encodeBit_eq]
    exact hrise.andThen fun _ ht => (C.stable.waitPhase .bitHigh _ (l := []) ht (live_of_isBit rfl)).andThen fun _ hv =>
      (C.driveLow hv.1).andThen fun _ hx =>
        (C.stable.waitPhase .bitLow _ (l := []) hx (live_of_isBit rfl)).imp fun _ k => k.1
  exact (hbit _).andThen fun t ht =>
    (C.stable.waitPhase .bitGap _ (l := []) (s := t.shiftMask) ht (live_of_isBit rfl)).andThen fun _ hv =>
      C.transmitBits 23 hv.1

theorem irqMask_records {n : Nat} {u : State} (h : Recorded n u) : (irqMask u).Records (n + 1) :=
  operate_records _ _ _ _ (write := State.maskIe) (fun _ => rfl) h

/-- Every command starts with an operation that takes at least one cycle, and what follows takes no record back. -/
theorem command_records {i : Instr} (hheader : i.isHeader = true) (htime : takesTime i = true) {s t : State}
    (ht : exec i s = .next t) : s.trace.length < t.trace.length := by
  have C := recordedCarried (s.trace.length + 1)
  have hstart : Recorded s.trace.length s := le_rfl
  cases i with
  | construct p g =>
    have hrun : (construct p g s).Records (s.trace.length + 1) :=
      (operate_records _ _ _ _ (write := State.configure p g) (u := s.begin .construct (packConstruct p g)) (fun _ => rfl)
        hstart).andThen fun _ => C.resetThenComplete
    exact hrun.cut_of_outcome C ht
  | clear =>
    have hreset : (resetSignal (s.begin .clear 0#24).loadSegments).Records (s.trace.length + 1) :=
      (operate_records _ _ _ _ (write := id) (u := (s.begin .clear 0#24).loadSegments) (fun _ => rfl) hstart).andThen fun _ hu =>
        (C.stable.waitPhase .rstHold _ (l := []) hu (by simp [Phase.live])).imp fun _ k => k.1
    have hrun : (clear s).Records (s.trace.length + 1) := hreset.andThen fun _ hu =>
      (C.maskedIf _ hu fun _ => C.clearWords _).andThen fun _ => C.complete
    exact hrun.cut_of_outcome C ht
  | send w =>
    have hwords : (maskedIf (uniform s) (transmit w) (s.begin .send w)).Records (s.trace.length + 1) := by
      unfold maskedIf
      split
      · exact (irqMask_records (u := s.begin .send w) hstart).andThen fun _ hu => (C.transmit hu w).andThen fun _ => C.irqRestore
      · exact transmit_records w hstart
    have hrun : (send w s).Records (s.trace.length + 1) := hwords.andThen fun _ => C.complete
    exact hrun.cut_of_outcome C ht
  | sendPattern n =>
    have hwords : (maskedIf true (patternWords n.toNat) ((s.begin .sendPattern 0#24).loadCounts n)).Records
        (s.trace.length + 1) :=
      (irqMask_records (u := (s.begin .sendPattern 0#24).loadCounts n) hstart).andThen fun _ hu =>
        (C.patternWords _ hu).andThen fun _ => C.irqRestore
    have hrun : (sendPattern n s).Records (s.trace.length + 1) := hwords.andThen fun _ => C.complete
    exact hrun.cut_of_outcome C ht
  | reserved op => cases htime
  | _ => cases hheader

/-- The decoder answers a command that takes time for every opcode that is not reserved. -/
theorem takesTime_decodeHeader (cw : CommandWord) : takesTime (decodeHeader cw) = !reservedOp (opField cw) := by
  rcases opcode_cases (opField cw) with h | h | h | h | h
  · rw [decodeHeader_construct h, h]; rfl
  · rw [decodeHeader_clear h, h]; rfl
  · rw [decodeHeader_send h, h]; rfl
  · rw [decodeHeader_sendPattern h, h]; rfl
  · rw [decodeHeader_reserved h, h]; rfl

end Sys2Proof.Machine

section
open Sys2Proof Sys2Proof.Machine

/-- Settles O12: a word presented to an idle block in an advancing cycle is its accepted header, and the cycle of acceptance is an
equation of states. -/
theorem stepRunsTheAcceptedHeader : Obligations.StepRunsTheAcceptedHeader := by
  unfold Obligations.StepRunsTheAcceptedHeader
  intro s cw hs hidle hhost hwriter hrst hadv
  have hacc := acceptedHeader_of_host hidle hhost hwriter hrst hadv
  rw [step_of_header hacc, acceptCycle_eq hacc, hhost, List.tail_cons]

/-- Settles O21: the cycle of acceptance is one of an idle block; the command shows busy in each of its cycles, and has at least one
unless its opcode is reserved. -/
theorem busyFromAcceptanceToTheEnd : Obligations.BusyFromAcceptanceToTheEnd := by
  unfold Obligations.BusyFromAcceptanceToTheEnd
  intro s t cw hacc hn ht
  obtain ⟨hidle, -⟩ := acceptedHeader_some hacc
  rw [step_of_header hacc] at ht
  have haccept : s.acceptCycle.trace = outputs true 0#256 0#256 s :: s.trace := by rw [acceptCycle_eq hacc]
  have hcalm : noReset s.acceptCycle.pins = true := by rw [acceptCycle_eq hacc]; exact noReset_tail hn
  obtain ⟨⟨os, hos, hbusy⟩, -⟩ := exec_busy hcalm ht
  refine ⟨os.reverse, ?_, busy_of_idle hidle, fun o ho => hbusy o (List.mem_reverse.mp ho), ?_⟩
  · rw [passed_of_trace (os := os ++ [outputs true 0#256 0#256 s]) (by rw [hos, haccept]; simp)]
    simp
  rw [List.reverse_eq_nil_iff]
  constructor
  · rintro rfl
    by_contra hres
    have htime : takesTime (decodeHeader cw) = true := by rw [takesTime_decodeHeader]; simpa using hres
    have hlonger := command_records (decodeHeader_isHeader cw) htime ht
    rw [hos] at hlonger
    exact absurd hlonger (Nat.lt_irrefl _)
  · intro hres
    rw [decodeHeader_reserved hres] at ht
    cases ht
    simpa using hos

end
end

section
/-! A series of operations with the updates of a command between them (45_strip_controller.md R91 to R95): what the cycles of its script
leave, whatever happens to IE and to the registers of the sequencer on the way. -/

namespace Sys2Proof.Machine

/-! ### The schedule at a later moment -/

section
variable {s u : State} {n : Nat} (hp : u.pins = s.pins.drop n) (hi : u.ie = true → s.ie = true)
  (ha : u.stallAfter = s.stallAfter)
include hi ha

theorem stallsEnd_later (h : stallsEnd s = true) : stallsEnd u = true := by
  rw [stallsEnd, Bool.or_eq_true, Bool.not_eq_true', Bool.not_eq_true'] at h ⊢
  rw [ha]
  refine h.imp_left fun h => ?_
  cases hu : u.ie with
  | false => rfl
  | true => rw [hi hu] at h; cases h

include hp

theorem neverStalls_later (h : neverStalls s = true) : neverStalls u = true := by
  rw [neverStalls, Bool.or_eq_true, Bool.not_eq_true', Bool.and_eq_true] at h ⊢
  rw [ha, hp]
  refine h.imp (fun h => ?_) fun h => ⟨h.1, all_drop n h.2⟩
  cases hu : u.ie with
  | false => rfl
  | true => rw [hi hu] at h; cases h

end

/-- The premises of the statements about completion: a legal configuration, and a schedule that neither disturbs the selected bit nor
resets the block nor stalls it for ever. -/
structure Undisturbed (s : State) : Prop where
  legal : s.cfg.legal = true
  calm : Sys2Proof.Machine.calm s.pinmask s.pins = true
  ends : stallsEnd s = true

/-! ### Courses -/

/-- From `s` to `u` the cycles of the script `l` have advanced, and `os` is what was seen, the latest first. Unlike `Ran` it lets the
updates of a command stand between the cycles; if any of them sets IE, it was set in `s`. -/
structure Course (s : State) (l : Script) (os : List Obs) (u : State) : Prop where
  conf : SameConfiguration s u
  cmd : u.cmd = s.cmd
  stallAfter : u.stallAfter = s.stallAfter
  ie : u.ie = true → s.ie = true
  trace : u.trace = os ++ s.trace
  cycle : u.cycle = s.cycle + os.length
  pins : u.pins = s.pins.drop os.length
  least : l.length ≤ os.length
  owned : u.port &&& s.pinmask = portAfter s.pinmask (s.port &&& s.pinmask) l
  levels : neverStalls s = true →
    os.reverse.map (fun o => o.port &&& s.pinmask) = portDuring s.pinmask (s.port &&& s.pinmask) l
  lines : ∀ o ∈ os, o.line = if s.pinmask == 0#256 then none else some (o.port.getLsbD s.pin.toNat)
  host : s.cmd ≠ .sendPattern → u.host = waitHost^[os.length] s.host ∧ KeptFeed s u

theorem portDuring_length (m p : PortWord) (l : Script) : (portDuring m p l).length = l.length := by
  induction l generalizing p with
  | nil => rfl
  | cons x l ih => rw [portDuring, List.length_cons, ih, List.length_cons]

theorem Course.refl (s : State) : Course s [] [] s where
  conf := .refl s
  cmd := rfl
  stallAfter := rfl
  ie := id
  trace := rfl
  cycle := rfl
  pins := rfl
  least := le_rfl
  owned := rfl
  levels := fun _ => rfl
  lines := by simp
  host := fun _ => ⟨rfl, .refl s⟩

theorem Ended.course {s u : State} {l : Script} {os : List Obs} (h : Ended s l os u) : Course s l os u where
  conf := h.kept.sameConfiguration
  cmd := h.kept.cmd
  stallAfter := h.kept.stallAfter
  ie := fun hi => h.ie ▸ hi
  trace := h.trace
  cycle := h.cycle
  pins := h.pins
  least := h.spans.le
  owned := h.owned
  levels := h.levels
  lines := h.lines
  host := fun hc => h.host (.inl hc)

section
variable {s u v : State} {l l' : Script} {os os' : List Obs}

theorem Course.undisturbed (h : Course s l os u) (hs : Undisturbed s) : Undisturbed u where
  legal := by rw [h.conf.cfg]; exact hs.legal
  calm := by rw [h.conf.pinmask, h.pins]; exact calm_drop _ hs.calm
  ends := stallsEnd_later h.ie h.stallAfter hs.ends

theorem Course.neverStalls (h : Course s l os u) (hs : Sys2Proof.Machine.neverStalls s = true) :
    Sys2Proof.Machine.neverStalls u = true := neverStalls_later h.pins h.ie h.stallAfter hs

/-- Absent stalls the cycles are those of the script. -/
theorem Course.exact (h : Course s l os u) (hs : Sys2Proof.Machine.neverStalls s = true) : os.length = l.length := by
  rw [← portDuring_length s.pinmask (s.port &&& s.pinmask) l, ← h.levels hs, List.length_map, List.length_reverse]

theorem Course.passed (h : Course s l os u) : passed s u = os.reverse := passed_of_trace h.trace

theorem Course.trans (h : Course s l os u) (k : Course u l' os' v) : Course s (l ++ l') (os' ++ os) v where
  conf := h.conf.trans k.conf
  cmd := k.cmd.trans h.cmd
  stallAfter := k.stallAfter.trans h.stallAfter
  ie := h.ie ∘ k.ie
  trace := by rw [k.trace, h.trace, List.append_assoc]
  cycle := by rw [k.cycle, h.cycle, List.length_append]; omega
  pins := by rw [k.pins, h.pins, List.drop_drop, List.length_append, Nat.add_comm]
  least := by rw [List.length_append, List.length_append, Nat.add_comm]; exact Nat.add_le_add k.least h.least
  owned := by
    have hk := k.owned
    rw [h.conf.pinmask, h.owned] at hk
    rw [hk, portAfter_append]
  levels := fun hs => by
    have hk := k.levels (h.neverStalls hs)
    rw [h.conf.pinmask, h.owned] at hk
    rw [List.reverse_append, List.map_append, h.levels hs, hk, portDuring_append]
  lines := fun o ho => by
    rcases List.mem_append.mp ho with ho | ho
    · rw [k.lines o ho, h.conf.pinmask, h.conf.pin]
    · exact h.lines o ho
  host := fun hc => by
    obtain ⟨hh, hf⟩ := h.host hc
    obtain ⟨kh, kf⟩ := k.host (h.cmd ▸ hc)
    exact ⟨by rw [kh, hh, List.length_append, Function.iterate_add_apply], hf.trans kf⟩

/-- An update between two cycles. Only SENDPATTERN's touch the prefetch. -/
theorem Course.update (h : Course s l os u) (ho : SameOutside u v) (hcmd : v.cmd = u.cmd)
    (hstall : v.stallAfter = u.stallAfter) (hie : v.ie = true → s.ie = true) (htrace : v.trace = u.trace)
    (hcycle : v.cycle = u.cycle) (hpins : v.pins = u.pins) (hfeed : s.cmd ≠ .sendPattern → KeptFeed u v) :
    Course s l os v where
  conf := h.conf.trans ho.toSameConfiguration
  cmd := hcmd.trans h.cmd
  stallAfter := hstall.trans h.stallAfter
  ie := hie
  trace := htrace.trans h.trace
  cycle := hcycle.trans h.cycle
  pins := hpins.trans h.pins
  least := h.least
  owned := by rw [ho.port]; exact h.owned
  levels := h.levels
  lines := h.lines
  host := fun hc => by
    obtain ⟨hh, hf⟩ := h.host hc
    exact ⟨ho.host.trans hh, hf.trans (hfeed hc)⟩

theorem Course.countWord (h : Course s l os u) : Course s l os u.countWord :=
  h.update (countWord_outside u) rfl rfl h.ie rfl rfl rfl fun _ => ⟨rfl, rfl, rfl⟩

theorem Course.maskIe (h : Course s l os u) : Course s l os u.maskIe :=
  h.update (maskIe_outside u) rfl rfl (fun hi => nomatch hi) rfl rfl rfl fun _ => ⟨rfl, rfl, rfl⟩

theorem Course.restoreIe (h : Course s l os u) (hi : u.ieSaved = s.ie) : Course s l os u.restoreIe :=
  h.update (restoreIe_outside u) rfl rfl (fun hu => hi ▸ hu) rfl rfl rfl fun _ => ⟨rfl, rfl, rfl⟩

/-- A course at one IE: how many of its cycles advanced is exact whatever the stalls (46_interrupt_sync.md R109). -/
structure Steady (s : State) (l : Script) (os : List Obs) (u : State) : Prop extends Course s l os u where
  sameIe : u.ie = s.ie
  ieSaved : u.ieSaved = s.ieSaved
  took : Took l.length s u

theorem Ended.steady (h : Ended s l os u) : Steady s l os u := ⟨h.course, h.ie, h.kept.ieSaved, h.took⟩

theorem Steady.refl (s : State) : Steady s [] [] s := (Ended.refl s).steady

theorem Steady.trans (h : Steady s l os u) (k : Steady u l' os' v) : Steady s (l ++ l') (os' ++ os) v where
  toCourse := h.toCourse.trans k.toCourse
  sameIe := k.sameIe.trans h.sameIe
  ieSaved := k.ieSaved.trans h.ieSaved
  took := by rw [List.length_append]; exact h.took.trans k.took h.sameIe h.stallAfter

theorem Steady.countWord (h : Steady s l os u) : Steady s l os u.countWord :=
  ⟨h.toCourse.countWord, h.sameIe, h.ieSaved, h.took⟩

/-! ### The line -/

/-- On an owned line that nothing stalls, the selected bit of PORT is the line. -/
theorem LineOwned.courseLevels (h : LineOwned s) (hn : Sys2Proof.Machine.neverStalls s = true) (hr : Course s l os u) :
    lineLevels (Sys2Proof.Machine.passed s u) = (portDuring s.pinmask 0#256 l).map (·.getLsbD s.pin.toNat) := by
  have hlevels := hr.levels hn
  rw [h.zero] at hlevels
  rw [← hlevels, hr.passed, lineLevels, List.map_map]
  refine List.map_congr_left fun o ho => ?_
  have hline := line_of_owned h
  have henabled : (s.pinmask == 0#256) = false := by
    rw [Bool.eq_false_iff]
    intro hz
    simp [lineNow, disabled, hz] at hline
  rw [hr.lines o (List.mem_reverse.mp ho), henabled]
  simp [h.bit]

/-- A script that leaves the bit low leaves the line owned. -/
theorem LineOwned.afterCourse (h : LineOwned s) (hr : Course s l os u) (hz : portAfter s.pinmask 0#256 l = 0#256) :
    LineOwned u := by
  have hport := hr.owned
  rw [h.zero, hz] at hport
  refine ⟨by rw [hr.conf.pin, hr.conf.cfg]; exact h.valid,
    by rw [hr.conf.pin, hr.conf.cfg, hr.conf.pinmask]; exact h.mask, ?_⟩
  have hbit := congrArg (·.getLsbD s.pin.toNat) hport
  rw [hr.conf.pin]
  simpa [h.bit] using hbit

end

/-! ### The scripts of the commands -/

/-- The words of a command, with nothing between them (45_strip_controller.md R92, R94). -/
def wordsScript (c : Params) (ws : List ColorWord) : Script := ws.flatMap (wordScript c)

/-- A masked section around `l` where one is asked for (46_interrupt_sync.md R106). -/
def sectionScript (c : Params) (masked : Bool) (l : Script) : Script :=
  if masked then driveScript .syncMask c.cSync .none ++ l ++ driveScript .syncRestore c.cSync .none else l

section
variable {c : Params}

theorem wordsScript_cons (w : ColorWord) (ws : List ColorWord) :
    wordsScript c (w :: ws) = wordScript c w ++ wordsScript c ws := rfl

theorem patternCycles_cons (w : ColorWord) (ws : List ColorWord) :
    patternCycles c (w :: ws) = c.wordCycles w + patternCycles c ws := by
  rw [patternCycles, List.map_cons, List.sum_cons, patternCycles]

theorem patternCycles_replicate (n : Nat) (w : ColorWord) : patternCycles c (List.replicate n w) = n * c.wordCycles w := by
  rw [patternCycles, List.map_replicate, List.sum_replicate, smul_eq_mul]

theorem wordsScript_length (h : 1 ≤ c.cDrive) (ws : List ColorWord) : (wordsScript c ws).length = patternCycles c ws := by
  induction ws with
  | nil => rfl
  | cons w ws ih => rw [wordsScript_cons, List.length_append, wordScript_length h, ih, patternCycles_cons]

theorem portAfter_wordsScript (ws : List ColorWord) {m p : PortWord} (h : p &&& ~~~m = 0#256) (h0 : ws = [] → p = 0#256) :
    portAfter m p (wordsScript c ws) = 0#256 := by
  induction ws generalizing p with
  | nil => exact h0 rfl
  | cons w ws ih =>
    rw [wordsScript_cons, portAfter_append, portAfter_wordScript c w h]
    exact ih BitVec.zero_and fun _ => rfl

theorem portDuring_wordsScript (h : 1 ≤ c.cDrive) (ws : List ColorWord) {m : PortWord} {b : Nat} (hb : m.getLsbD b = true) :
    (portDuring m 0#256 (wordsScript c ws)).map (·.getLsbD b) = patternLevels c ws := by
  induction ws with
  | nil => rfl
  | cons w ws ih =>
    rw [wordsScript_cons, portDuring_append, portAfter_wordScript c w BitVec.zero_and, List.map_append, ih, wordScript,
      portDuring_bitsScript h w 0 24 m b hb]
    rfl

theorem portDuring_resetScript (h : 1 ≤ c.cDrive) (m : PortWord) :
    portDuring m 0#256 (resetScript c) = List.replicate (c.cDrive + c.tRst) 0#256 := by
  rw [resetScript, portDuring_append, portAfter_driveScript, portDuring_driveScript _ _ _ _ _ h, portDuring_waitScript,
    Drive.apply_low, BitVec.zero_and, List.replicate_append_replicate]

theorem sectionScript_length (h : 1 ≤ c.cSync) (masked : Bool) (l : Script) :
    (sectionScript c masked l).length = l.length + if masked then 2 * c.cSync else 0 := by
  cases masked with
  | false => rfl
  | true =>
    simp only [sectionScript, if_true, List.length_append, driveScript_length]
    omega

theorem portAfter_sectionScript (masked : Bool) (l : Script) (m p : PortWord) :
    portAfter m p (sectionScript c masked l) = portAfter m p l := by
  cases masked with
  | false => rfl
  | true => simp only [sectionScript, if_true, portAfter_append, portAfter_driveScript, Drive.apply_none]

theorem portDuring_sectionScript (h : 1 ≤ c.cSync) (masked : Bool) (l : Script) (m p : PortWord) :
    portDuring m p (sectionScript c masked l) =
      List.replicate (if masked then c.cSync else 0) p ++ portDuring m p l ++
        List.replicate (if masked then c.cSync else 0) (portAfter m p l) := by
  cases masked with
  | false => simp [sectionScript]
  | true =>
    simp only [sectionScript, if_true, portDuring_append, portAfter_append, portAfter_driveScript, Drive.apply_none,
      portDuring_driveScript _ _ _ _ _ h]

end

/-! ### Operations that complete -/

section
variable {s : State} (hs : Undisturbed s)
include hs

theorem transmit_completes (w : ColorWord) :
    ∃ t os, transmit w s = .on t ∧ Steady s (wordScript s.cfg w) os t ∧ t.wcnt = s.wcnt := by
  obtain ⟨t, ht, ⟨os, hended⟩, hkept, -⟩ := (transmit_does s w).of_calm hs.calm hs.ends
  exact ⟨t, os, ht, hended.steady, hkept.wcnt⟩

theorem resetSignal_completes : ∃ t os, resetSignal s = .on t ∧ Steady s (resetScript s.cfg) os t ∧ t.wcnt = s.wcnt := by
  obtain ⟨t, os, ht, hended, -⟩ := (resetSignal_does s).of_calm hs.calm hs.ends
  exact ⟨t, os, ht, hended.steady, hended.kept.wcnt⟩

theorem irqMask_completes :
    ∃ u os, irqMask s = .on u.maskIe ∧ Ended s (driveScript .syncMask s.cfg.cSync .none) os u := by
  obtain ⟨_, ht, u, rfl, ⟨os, hended⟩, -⟩ := (irqMask_does s).of_calm hs.calm hs.ends
  exact ⟨u, os, ht, hended⟩

theorem irqRestore_completes :
    ∃ u os, irqRestore s = .on u.restoreIe ∧ Ended s (driveScript .syncRestore s.cfg.cSync .none) os u := by
  obtain ⟨_, ht, u, rfl, ⟨os, hended⟩, -⟩ := (irqRestore_does s).of_calm hs.calm hs.ends
  exact ⟨u, os, ht, hended⟩

/-- The loop of CLEAR counts each of its words (45_strip_controller.md R92). -/
theorem clearWords_completes (n : Nat) :
    ∃ t os, clearWords n s = .on t ∧ Steady s (wordsScript s.cfg (List.replicate n 0#24)) os t ∧
      t.wcnt = s.wcnt - BitVec.ofNat 24 n := by
  induction n generalizing s with
  | zero => exact ⟨s, [], rfl, .refl s, by simp⟩
  | succ n ih =>
    obtain ⟨u, os, hu, hword, hwcnt⟩ := transmit_completes hs 0#24
    obtain ⟨t, os', ht, hwords, hleft⟩ := ih (hword.countWord.undisturbed hs)
    rw [countWord_cfg, hword.conf.cfg] at hwords
    refine ⟨t, os' ++ os, by rw [clearWords, hu, andThen_on, ht], hword.countWord.trans hwords, ?_⟩
    rw [hleft, countWord_wcnt, hwcnt, BitVec.ofNat_add]
    ring

/-- A section that is masked or not, around words sent at one IE: IE is as before at its end, and IE_SAVED has held it
(46_interrupt_sync.md R103, R104, R106). -/
theorem maskedIf_completes (masked : Bool) {body : State → Run} {l : Script} {k : WordCount}
    (hbody : ∀ u, Undisturbed u → u.cfg = s.cfg → u.wcnt = s.wcnt →
      ∃ t os, body u = .on t ∧ Steady u l os t ∧ t.wcnt = k) :
    ∃ t os, maskedIf masked body s = .on t ∧ Course s (sectionScript s.cfg masked l) os t ∧ t.wcnt = k ∧ t.ie = s.ie ∧
      t.ieSaved = (if masked then s.ie else s.ieSaved) ∧ (masked = false → Took l.length s t) := by
  cases masked with
  | false =>
    obtain ⟨t, os, ht, hwords, hk⟩ := hbody s hs rfl rfl
    exact ⟨t, os, ht, hwords.toCourse, hk, hwords.sameIe, hwords.ieSaved, fun _ => hwords.took⟩
  | true =>
    obtain ⟨u, os₁, hu, hmask⟩ := irqMask_completes hs
    have hmasked : Course s (driveScript .syncMask s.cfg.cSync .none) os₁ u.maskIe := hmask.course.maskIe
    obtain ⟨v, os₂, hv, hwords, hk⟩ := hbody u.maskIe (hmasked.undisturbed hs) hmasked.conf.cfg hmask.kept.wcnt
    have hsent := hmasked.trans hwords.toCourse
    obtain ⟨x, os₃, hx, hrestore⟩ := irqRestore_completes (hsent.undisturbed hs)
    have hsaved : x.ieSaved = s.ie := by
      rw [hrestore.kept.ieSaved, hwords.ieSaved, maskIe_ieSaved, hmask.ie]
    have hend := (hsent.trans hrestore.course).restoreIe hsaved
    rw [hsent.conf.cfg] at hend
    refine ⟨x.restoreIe, _, ?_, hend, hrestore.kept.wcnt.trans hk, hsaved, hsaved, fun h => nomatch h⟩
    simp only [maskedIf, if_true, hu, andThen_on, hv, hx]

end

end Sys2Proof.Machine
end

section
/-! CONSTRUCT, CLEAR and SEND on a schedule whose stalls end (45_strip_controller.md R91 to R93): the operations of each in a row, their
script, and the line and the pulses that follow from it. -/

namespace Sys2Proof.Machine

/-! ### CONSTRUCT -/

theorem silent_driveScript (ph : Phase) (n : Nat) : Script.silent (driveScript ph n .none) := by
  intro x hx
  rcases List.mem_append.mp hx with hx | hx
  · exact silent_waitScript ph (n - 1) x hx
  · rw [List.mem_singleton.mp hx]

/-- The cycles of CFG, at whose end CONSTRUCT's operands are written. -/
theorem cfg_completes (pin : PinIndex) (seg : SegCount) {s : State} (hs : Undisturbed s) :
    ∃ u os, operate .cfg s.cfg.cCfg 0#256 0#256 (State.configure pin seg) s = .on (u.configure pin seg) ∧
      Ended s (driveScript .cfg s.cfg.cCfg .none) os u := by
  obtain ⟨_, ht, u, rfl, ⟨os, hended⟩, -⟩ :=
    ((ranStable s).operate .cfg s.cfg.cCfg .none (State.configure pin seg) (l := []) ⟨[], .refl s⟩
      (by simp [Phase.live])).of_calm hs.calm hs.ends
  exact ⟨u, os, ht, hended⟩

/-- CONSTRUCT is the cycles of CFG on the old pin, in which nothing is pulsed, and RESET on the new one. -/
theorem construct_completes (pin : PinIndex) (seg : SegCount) {s : State} (hs : Undisturbed s)
    (hnew : calm (maskOfPin s.cfg.portWidth pin) s.pins = true) :
    ∃ u t os os', exec (.construct pin seg) s = .next t.finish ∧
      Ended (s.begin .construct (packConstruct pin seg)) (driveScript .cfg s.cfg.cCfg .none) os u ∧
      Ended (u.configure pin seg) (resetScript s.cfg) os' t ∧
      ∀ o ∈ t.trace.take s.cfg.tRst, o.port &&& maskOfPin s.cfg.portWidth pin = 0#256 := by
  have hbegin : Undisturbed (s.begin .construct (packConstruct pin seg)) := ⟨hs.legal, hs.calm, hs.ends⟩
  obtain ⟨u, os, hu, hcfg⟩ := cfg_completes pin seg hbegin
  have hmask : (u.configure pin seg).pinmask = maskOfPin s.cfg.portWidth pin := by rw [configure_pinmask, hcfg.kept.cfg]; rfl
  have hcalm : calm (u.configure pin seg).pinmask (u.configure pin seg).pins = true := by
    rw [hmask]; exact hcfg.toRan.calm hnew
  have hends : stallsEnd (u.configure pin seg) = true := (hcfg.course.undisturbed hbegin).ends
  obtain ⟨t, os', ht, hreset, -⟩ := (resetSignal_does (u.configure pin seg)).of_calm hcalm hends
  obtain ⟨t', ht', hlow⟩ := resetSignal_low hcalm hends
  obtain rfl : t' = t := Run.on.inj (ht'.symm.trans ht)
  have hsame : (u.configure pin seg).cfg = s.cfg := hcfg.kept.cfg
  rw [hsame] at hreset
  rw [hsame, hmask] at hlow
  refine ⟨u, t', os, os', ?_, hcfg, hreset, hlow⟩
  change (construct pin seg s).outcome = _
  rw [construct]
  change ((operate .cfg (s.begin .construct (packConstruct pin seg)).cfg.cCfg _ _ _ _).andThen _).outcome = _
  rw [hu, andThen_on, ht, andThen_on]
  rfl

/-! ### CLEAR and SEND -/

theorem uniform_iff (s : State) : uniform s = true ↔ s.cfg.maskPolicy = .uniform := by rw [uniform, beq_iff_eq]

theorem uniform_of_reference {s : State} (h : s.cfg.maskPolicy = .reference) : uniform s = false := by
  rw [Bool.eq_false_iff, ne_eq, uniform_iff, h]
  decide

theorem uniform_of_cfg {s u : State} (h : u.cfg = s.cfg) : uniform u = uniform s := by rw [uniform, h, uniform]

/-- What the masked section of CLEAR and SEND costs (70_reset_and_hazards.md R144). -/
theorem sectionCycles_eq (s : State) : s.cfg.sectionCycles = if uniform s then 2 * s.cfg.cSync else 0 := by
  simp only [Params.sectionCycles, uniform_iff]

theorem sectionCycles_half (s : State) : s.cfg.sectionCycles / 2 = if uniform s then s.cfg.cSync else 0 := by
  rw [sectionCycles_eq]
  split <;> omega

/-- A command without a payload that has completed: from `s`, with CMD, the latch and WCNT as it sets them at its start, the cycles of the
script `l` have advanced, the last before `u`; a masked section under UNIFORM puts IE back. -/
structure Served (s : State) (c : Cmd) (a : BitVec 24) (n : WordCount) (l : Script) (os : List Obs) (u : State) : Prop where
  course : Course { s with cmd := c, latch := a, wcnt := n } l os u
  plain : c ≠ .sendPattern
  ie : u.ie = s.ie
  ieSaved : u.ieSaved = if s.cfg.maskPolicy = .uniform then s.ie else s.ieSaved
  took : s.cfg.maskPolicy = .reference → Took l.length s u

section
variable {s u : State} {c : Cmd} {a : BitVec 24} {n : WordCount} {l : Script} {os : List Obs}

theorem Served.feed (h : Served s c a n l os u) : u.fcnt = s.fcnt ∧ u.nextValid = s.nextValid ∧ ∃ k, u.host = waitHost^[k] s.host := by
  obtain ⟨hhost, hfeed⟩ := h.course.host h.plain
  exact ⟨hfeed.fcnt, hfeed.nextValid, _, hhost⟩

theorem Served.conf (h : Served s c a n l os u) : SameConfiguration s u.finish :=
  ⟨h.course.conf.pin, h.course.conf.pinmask, h.course.conf.segcount, h.course.conf.cfg⟩

/-- The cost of a command whose script is `k` cycles and its masked section: exact where nothing is masked or nothing stalls. -/
theorem Served.cost (h : Served s c a n l os u) {k : Nat} (hl : l.length = k + s.cfg.sectionCycles) :
    (s.cfg.maskPolicy = .reference → Took k s u.finish) ∧ s.cycle + (k + s.cfg.sectionCycles) ≤ u.finish.cycle ∧
      (s.ie = false → u.finish.cycle = s.cycle + (k + s.cfg.sectionCycles)) := by
  have hcycle : u.finish.cycle = s.cycle + os.length := h.course.cycle
  have hleast := h.course.least
  refine ⟨fun hpolicy => ?_, by omega, fun hie => ?_⟩
  · have htook := h.took hpolicy
    rwa [hl, Params.sectionCycles, hpolicy, if_neg (by decide), Nat.add_zero] at htook
  · have hn : neverStalls { s with cmd := c, latch := a, wcnt := n } = true := by simp [neverStalls, hie]
    rw [hcycle, h.course.exact hn, hl]

theorem Served.undisturbed (h : Served s c a n l os u) (hs : Undisturbed s) : Undisturbed u.finish := by
  obtain ⟨hlegal, hcalm, hends⟩ := h.course.undisturbed ⟨hs.legal, hs.calm, hs.ends⟩
  exact ⟨hlegal, hcalm, hends⟩

theorem Served.levels (h : Served s c a n l os u) (hn : neverStalls s = true) (hline : LineOwned s)
    (hlow : portAfter s.pinmask 0#256 l = 0#256) :
    lineLevels (passed s u.finish) = (portDuring s.pinmask 0#256 l).map (·.getLsbD s.pin.toNat) ∧ LineOwned u.finish := by
  have hline' : LineOwned { s with cmd := c, latch := a, wcnt := n } := ⟨hline.valid, hline.mask, hline.low⟩
  obtain ⟨hvalid, hmask, hzero⟩ := hline'.afterCourse h.course hlow
  have hlevels := hline'.courseLevels hn h.course
  exact ⟨hlevels, hvalid, hmask, hzero⟩

end

/-- The script of CLEAR. -/
def clearScript (s : State) : Script :=
  resetScript s.cfg ++ sectionScript s.cfg (uniform s) (wordsScript s.cfg (List.replicate s.segcount.toNat 0#24))

/-- The script of SEND. -/
def sendScript (s : State) (w : ColorWord) : Script := sectionScript s.cfg (uniform s) (wordScript s.cfg w)

section
variable {s : State} (hs : Undisturbed s)
include hs

theorem clear_completes :
    ∃ u os, exec .clear s = .next u.finish ∧ Served s .clear 0#24 (s.segcount.setWidth 24) (clearScript s) os u ∧
      u.wcnt = 0#24 := by
  have hbegin : Undisturbed (s.begin .clear 0#24).loadSegments := ⟨hs.legal, hs.calm, hs.ends⟩
  obtain ⟨t, os, ht, hreset, hwcnt⟩ := resetSignal_completes hbegin
  have hcfg : t.cfg = s.cfg := hreset.conf.cfg
  obtain ⟨u, os', hu, hwords, hzero, hie, hsaved, htook⟩ :=
    maskedIf_completes (hreset.undisturbed hbegin) (uniform t) (body := clearWords s.segcount.toNat)
      (l := wordsScript s.cfg (List.replicate s.segcount.toNat 0#24)) (k := 0#24) fun v hv hvc hvw => by
        obtain ⟨x, os, hx, hsent, hleft⟩ := clearWords_completes hv s.segcount.toNat
        rw [hvc, hcfg] at hsent
        refine ⟨x, os, hx, hsent, ?_⟩
        rw [hleft, hvw, hwcnt, loadSegments_wcnt, begin_segcount, BitVec.ofNat_toNat, BitVec.sub_self]
  rw [uniform_of_cfg hcfg, hcfg] at hwords
  rw [uniform_of_cfg hcfg] at hsaved htook
  refine ⟨u, os' ++ os, ?_, ⟨hreset.toCourse.trans hwords, by decide, hie.trans hreset.sameIe, ?_, fun hpolicy => ?_⟩, hzero⟩
  · change (clear s).outcome = _
    rw [clear, ht, andThen_on, hu, andThen_on]
    rfl
  · rw [hsaved, hreset.sameIe, hreset.ieSaved]
    simp only [uniform_iff]
    rfl
  · have hplain := uniform_of_reference hpolicy
    have hlength : (clearScript s).length =
        (resetScript s.cfg).length + (wordsScript s.cfg (List.replicate s.segcount.toNat 0#24)).length := by
      rw [clearScript, hplain, List.length_append]; rfl
    rw [hlength]
    exact hreset.took.trans (htook hplain) hreset.sameIe hreset.stallAfter

theorem send_completes (w : ColorWord) :
    ∃ u os, exec (.send w) s = .next u.finish ∧ Served s .send w s.wcnt (sendScript s w) os u ∧ u.wcnt = s.wcnt := by
  obtain ⟨u, os, hu, hwords, hwcnt, hie, hsaved, htook⟩ :=
    maskedIf_completes (s := s.begin .send w) ⟨hs.legal, hs.calm, hs.ends⟩ (uniform s) (body := transmit w)
      (l := wordScript s.cfg w) (k := s.wcnt) fun v hv hvc hvw => by
        obtain ⟨x, os, hx, hsent, hleft⟩ := transmit_completes hv w
        rw [hvc] at hsent
        exact ⟨x, os, hx, hsent, hleft.trans hvw⟩
  refine ⟨u, os, ?_, ⟨hwords, by decide, hie, ?_, fun hpolicy => ?_⟩, hwcnt⟩
  · change (send w s).outcome = _
    rw [send, hu, andThen_on]
    rfl
  · rw [hsaved]
    simp only [uniform_iff]
    rfl
  · have hplain := uniform_of_reference hpolicy
    have hlength : sendScript s w = wordScript s.cfg w := by rw [sendScript, hplain]; rfl
    rw [hlength]
    exact htook hplain

end

theorem clearScript_length {s : State} (hlegal : s.cfg.legal = true) : (clearScript s).length =
    s.cfg.cDrive + s.cfg.tRst + s.segcount.toNat * s.cfg.wordCycles 0#24 + s.cfg.sectionCycles := by
  have hdrive := legal_cDrive hlegal
  rw [clearScript, List.length_append, resetScript_length hdrive, sectionScript_length (legal_cSync hlegal),
    wordsScript_length hdrive, patternCycles_replicate, sectionCycles_eq, Params.resetCycles]
  omega

theorem sendScript_length {s : State} (hlegal : s.cfg.legal = true) (w : ColorWord) :
    (sendScript s w).length = s.cfg.wordCycles w + s.cfg.sectionCycles := by
  rw [sendScript, sectionScript_length (legal_cSync hlegal), wordScript_length (legal_cDrive hlegal), sectionCycles_eq]

theorem portAfter_clearScript (s : State) {p : PortWord} (h : p &&& ~~~s.pinmask = 0#256) :
    portAfter s.pinmask p (clearScript s) = 0#256 := by
  rw [clearScript, portAfter_append, portAfter_resetScript _ h, portAfter_sectionScript]
  exact portAfter_wordsScript _ BitVec.zero_and fun _ => rfl

theorem portAfter_sendScript (s : State) (w : ColorWord) {p : PortWord} (h : p &&& ~~~s.pinmask = 0#256) :
    portAfter s.pinmask p (sendScript s w) = 0#256 := by
  rw [sendScript, portAfter_sectionScript]
  exact portAfter_wordScript _ w h

/-! ### The line -/

/-- The levels of the line during CLEAR, absent stalls. -/
def clearLevels (s : State) : List Bool :=
  List.replicate (s.cfg.cDrive + s.cfg.tRst) false ++
    (List.replicate (s.cfg.sectionCycles / 2) false ++ patternLevels s.cfg (List.replicate s.segcount.toNat 0#24) ++
      List.replicate (s.cfg.sectionCycles / 2) false)

section
variable {s : State} (hs : Undisturbed s) (hn : neverStalls s = true) (hline : LineOwned s)
include hs hn hline

theorem clear_waveform : ∃ (u : State) (os : List Obs), exec .clear s = .next u.finish ∧
    Served s .clear 0#24 (s.segcount.setWidth 24) (clearScript s) os u ∧
    lineLevels (passed s u.finish) = clearLevels s ∧ LineOwned u.finish := by
  have hdrive := legal_cDrive hs.legal
  obtain ⟨u, os, hu, hserved, -⟩ := clear_completes hs
  obtain ⟨hlevels, howned⟩ := hserved.levels hn hline (portAfter_clearScript s BitVec.zero_and)
  refine ⟨u, os, hu, hserved, ?_, howned⟩
  rw [hlevels, clearScript, portDuring_append, portAfter_resetScript _ BitVec.zero_and, portDuring_resetScript hdrive,
    portDuring_sectionScript (legal_cSync hs.legal), portAfter_wordsScript _ BitVec.zero_and fun _ => rfl, List.map_append,
    List.map_append, List.map_append, portDuring_wordsScript hdrive _ hline.bit, clearLevels, sectionCycles_half]
  simp

theorem send_waveform (w : ColorWord) : ∃ u : State, exec (.send w) s = .next u.finish ∧
    lineLevels (passed s u.finish) = List.replicate (s.cfg.sectionCycles / 2) false ++ wordLevels s.cfg w ++
      List.replicate (s.cfg.sectionCycles / 2) false ∧ LineOwned u.finish := by
  obtain ⟨u, os, hu, hserved, -⟩ := send_completes hs w
  obtain ⟨hlevels, howned⟩ := hserved.levels hn hline (portAfter_sendScript s w BitVec.zero_and)
  refine ⟨u, hu, ?_, howned⟩
  rw [hlevels, sendScript, portDuring_sectionScript (legal_cSync hs.legal), portAfter_wordScript _ w BitVec.zero_and,
    List.map_append, List.map_append, wordScript, portDuring_bitsScript (legal_cDrive hs.legal) w 0 24 _ _ hline.bit,
    sectionCycles_half, wordLevels]
  simp

end

/-! ### How many pulses -/

/-- The first run of high levels is one pulse, with or without a gap after it. -/
theorem pulsesOfRuns_high_length (h : Nat) (rs : List (Bool × Nat)) :
    (pulsesOfRuns ((true, h) :: rs)).length = (pulsesOfRuns rs).length + 1 := by
  match rs with
  | [] => rfl
  | [(false, _)] => rfl
  | (false, _) :: (_, _) :: _ => rfl
  | (true, _) :: _ => rfl

theorem pulses_high_length {h : Nat} (hh : 1 ≤ h) {l : List Bool} (hl : l.head? ≠ some true) :
    (pulses (List.replicate h true ++ l)).length = (pulses l).length + 1 := by
  rw [pulses, levelRuns_replicate hl hh, pulsesOfRuns_high_length, pulses]

theorem head_low_append {n : Nat} {l : List Bool} (h : n = 0 → l.head? ≠ some true) :
    (List.replicate n false ++ l).head? ≠ some true := by
  cases n with
  | zero => exact h rfl
  | succ n => simp [List.replicate_succ]

section
variable {c : Params} (hdrive : 1 ≤ c.cDrive)
include hdrive

theorem head_bitsLevels (w : ColorWord) (k n : Nat) {l : List Bool} (hl : l.head? ≠ some true) :
    (bitsLevels c w k n ++ l).head? ≠ some true := by
  cases n with
  | zero => exact hl
  | succ n =>
    rw [bitsLevels, bitLevels, List.append_assoc, List.append_assoc, List.append_assoc]
    exact head_low_append fun h => by omega

/-- Each bit makes one pulse, whatever follows at a low level. -/
theorem pulses_bitsLevels_length (w : ColorWord) (k n : Nat) {l : List Bool} (hl : l.head? ≠ some true) :
    (pulses (bitsLevels c w k n ++ l)).length = n + (pulses l).length := by
  induction n generalizing k with
  | zero => rw [bitsLevels, List.nil_append, Nat.zero_add]
  | succ n ih =>
    rw [bitsLevels, bitLevels, List.append_assoc, List.append_assoc, List.append_assoc, pulses_low,
      pulses_high_length (pulseHigh_pos hdrive _) (head_low_append fun _ => head_bitsLevels hdrive w _ n hl), pulses_low, ih]
    omega

theorem head_patternLevels (ws : List ColorWord) {l : List Bool} (hl : l.head? ≠ some true) :
    (patternLevels c ws ++ l).head? ≠ some true := by
  cases ws with
  | nil => exact hl
  | cons w ws =>
    rw [patternLevels, List.flatMap_cons, wordLevels, bitsLevels, bitLevels]
    simp only [List.append_assoc]
    exact head_low_append fun h => by omega

theorem pulses_patternLevels_length (ws : List ColorWord) {l : List Bool} (hl : l.head? ≠ some true) :
    (pulses (patternLevels c ws ++ l)).length = 24 * ws.length + (pulses l).length := by
  induction ws with
  | nil => rw [patternLevels, List.flatMap_nil, List.nil_append, List.length_nil, Nat.mul_zero, Nat.zero_add]
  | cons w ws ih =>
    have hnext : (patternLevels c ws ++ l).head? ≠ some true := head_patternLevels hdrive ws hl
    rw [show patternLevels c (w :: ws) = bitsLevels c w 0 24 ++ patternLevels c ws from rfl, List.append_assoc,
      pulses_bitsLevels_length hdrive w 0 24 hnext, ih, List.length_cons]
    omega

theorem pulses_clearLevels_length {s : State} (hc : s.cfg = c) : (pulses (clearLevels s)).length = 24 * s.segcount.toNat := by
  have hend : (List.replicate (s.cfg.sectionCycles / 2) false).head? ≠ some true := by
    rw [← List.append_nil (List.replicate _ false)]
    exact head_low_append fun _ => by simp
  have hquiet : pulses (List.replicate (s.cfg.sectionCycles / 2) false) = [] := by
    rw [← List.append_nil (List.replicate _ false), pulses_low]
    rfl
  rw [clearLevels, pulses_low, List.append_assoc, pulses_low,
    pulses_patternLevels_length (by rw [hc]; exact hdrive) _ hend, List.length_replicate, hquiet]
  rfl

end

end Sys2Proof.Machine

section
open Sys2Proof Sys2Proof.Machine

/-- Settles O38: CFG's cycles pulse nothing on the old pin, and RESET leaves the new bit low and holds it so. -/
theorem constructConfiguresAndResets : Obligations.ConstructConfiguresAndResets := by
  unfold Obligations.ConstructConfiguresAndResets
  intro pin seg s hlegal hcalm hnew hends
  obtain ⟨u, t, os, os', ht, hcfg, hreset, hlow⟩ := construct_completes pin seg ⟨hlegal, hcalm, hends⟩ hnew
  have hmask : t.pinmask = maskOfPin s.cfg.portWidth pin := by
    rw [hreset.kept.pinmask, configure_pinmask, hcfg.kept.cfg]; rfl
  have hcost : Took (s.cfg.cCfg + s.cfg.cDrive + s.cfg.tRst) s t := by
    have hfirst : Took (driveScript .cfg s.cfg.cCfg .none).length s (u.configure pin seg) := hcfg.took
    have hboth := hfirst.trans hreset.took hcfg.ie hcfg.kept.stallAfter
    rwa [driveScript_length, Nat.sub_add_cancel (legal_cCfg hlegal), resetScript_length (legal_cDrive hlegal),
      Params.resetCycles, ← Nat.add_assoc] at hboth
  have hplain : (s.begin .construct (packConstruct pin seg)).cmd ≠ .sendPattern := by rw [begin_cmd]; decide
  obtain ⟨hhost, hfeed⟩ := hcfg.host (.inl hplain)
  obtain ⟨hhost', hfeed'⟩ := hreset.host (.inl (by rwa [configure_cmd, hcfg.kept.cmd]))
  have hwait : t.host = waitHost^[os'.length + os.length] s.host := by
    rw [hhost', configure_host, hhost, Function.iterate_add_apply]; rfl
  refine ⟨t.finish, ht, hreset.kept.pin, ?_, hreset.kept.segcount, ?_, rfl, rfl, hcost, ?_, ?_, hreset.ie.trans hcfg.ie,
    hreset.kept.ieSaved.trans hcfg.kept.ieSaved, hreset.kept.wcnt.trans hcfg.kept.wcnt, hfeed'.fcnt.trans hfeed.fcnt,
    hfeed'.nextValid.trans hfeed.nextValid, hreset.kept.cfg.trans hcfg.kept.cfg, ⟨_, hwait⟩, fun j hj hu => ?_⟩
  · rw [finish_pinmask, hmask, maskOfPin_eq]
  · rw [Bool.eq_iff_iff]
    simp [disabled, hmask, maskOfPin_eq_zero_iff]
  · have howned := hreset.owned.trans (portAfter_resetScript _ (and_and_not _ _))
    rwa [← hreset.kept.pinmask] at howned
  · rw [finish_pinmask, hmask]; exact hlow
  · have hfirst := ((hcfg.silent (silent_driveScript _ _)).2 j hu).1
    refine Eq.trans (hreset.others j ?_ ?_) hfirst
    · rwa [← hreset.kept.pinmask]
    · rw [configure_pins, hcfg.pins]; exact untouched_drop _ hu

/-- Settles O39: RESET and the words are the script of CLEAR, whose loop counts WCNT from SEGCOUNT down to 0. -/
theorem clearResetsAndSendsZeros : Obligations.ClearResetsAndSendsZeros := by
  unfold Obligations.ClearResetsAndSendsZeros
  intro s hlegal hcalm hends
  obtain ⟨u, os, hu, hserved, hzero⟩ := clear_completes ⟨hlegal, hcalm, hends⟩
  obtain ⟨hfcnt, hvalid, hhost⟩ := hserved.feed
  obtain ⟨htook, hleast, hexact⟩ := hserved.cost (clearScript_length hlegal)
  exact ⟨u.finish, hu, rfl, rfl, hzero, hserved.ie, hserved.conf, hfcnt, hvalid, hhost, hserved.ieSaved, htook, hleast, hexact,
    hserved.course.owned.trans (portAfter_clearScript s (and_and_not _ _)), exec_portElsewhere rfl hu⟩

/-- Settles O40: the levels are those of CLEAR's script. -/
theorem clearWaveform : Obligations.ClearWaveform := by
  unfold Obligations.ClearWaveform
  intro s hlegal hcalm hn hline
  obtain ⟨u, os, hu, -, hlevels, howned⟩ := clear_waveform ⟨hlegal, hcalm, stallsEnd_of_neverStalls hn⟩ hn hline
  exact ⟨u.finish, hu, hlevels, howned⟩

/-- Settles O41: the levels of a CLEAR depend on the configuration only, which the first leaves as it was, and each bit of its words
makes one pulse. -/
theorem clearTwiceIsIdentical : Obligations.ClearTwiceIsIdentical := by
  unfold Obligations.ClearTwiceIsIdentical
  intro s hlegal hcalm hn hline
  have hs : Undisturbed s := ⟨hlegal, hcalm, stallsEnd_of_neverStalls hn⟩
  obtain ⟨t, os, ht, hserved, hlevels, howned⟩ := clear_waveform hs hn hline
  have hn' : neverStalls t.finish = true := hserved.course.neverStalls hn
  obtain ⟨u, -, hu, -, hlevels', -⟩ := clear_waveform (hserved.undisturbed hs) hn' howned
  have hsame : clearLevels t.finish = clearLevels s := by
    rw [clearLevels, hserved.conf.cfg, hserved.conf.segcount, clearLevels]
  refine ⟨t.finish, u.finish, ht, hu, ?_, ?_⟩
  · rw [hlevels, hlevels', hsame]
  · rw [hlevels, pulses_clearLevels_length (legal_cDrive hlegal) rfl]

/-- Settles O42: SEND is TRANSMIT of its word, in a masked section under UNIFORM. -/
theorem sendTransmitsOneWord : Obligations.SendTransmitsOneWord := by
  unfold Obligations.SendTransmitsOneWord
  intro w s hlegal hcalm hends
  obtain ⟨u, os, hu, hserved, hwcnt⟩ := send_completes ⟨hlegal, hcalm, hends⟩ w
  obtain ⟨hfcnt, hvalid, hhost⟩ := hserved.feed
  obtain ⟨htook, hleast, hexact⟩ := hserved.cost (sendScript_length hlegal w)
  exact ⟨u.finish, hu, rfl, rfl, hserved.ie, hserved.conf, hwcnt, hfcnt, hvalid, hhost, hserved.ieSaved, htook, hleast, hexact,
    hserved.course.owned.trans (portAfter_sendScript s w (and_and_not _ _)), exec_portElsewhere rfl hu⟩

/-- Settles O43: the levels are those of SEND's script, in which no RESET stands. -/
theorem sendWaveform : Obligations.SendWaveform := by
  unfold Obligations.SendWaveform
  intro w s hlegal hcalm hn hline
  obtain ⟨u, hu, hlevels, howned⟩ := send_waveform ⟨hlegal, hcalm, stallsEnd_of_neverStalls hn⟩ hn hline w
  exact ⟨u.finish, hu, hlevels, howned⟩

end
end

section
/-! The command port while SENDPATTERN runs (45_strip_controller.md R95, R96): how the words of the stream are taken in the cycles of a
word and in FETCH. All of it at IE = 0, where every cycle advances (46_interrupt_sync.md R108). -/

namespace Sys2Proof.Machine

/-! ### One cycle -/

theorem waitHost_iterate_nil (k : Nat) : waitHost^[k] [] = [] := Function.iterate_fixed rfl k

theorem waitHost_iterate_cons (k : Nat) (h : HostWord) (hs : List HostWord) :
    waitHost^[k] (h :: hs) = { h with delay := h.delay - k } :: hs := by
  induction k with
  | zero => rfl
  | succ k ih => rw [Function.iterate_succ_apply', ih, waitHost, Nat.sub_sub]

theorem presented_nil {s : State} (h : s.host = []) : presented s = none := by simp [presented, h]

theorem presented_cons {s : State} {h : HostWord} {hs : List HostWord} (hh : s.host = h :: hs) :
    presented s = if h.delay = 0 then some h.data else none := by simp [presented, hh]

section
variable {s : State} {cw : CommandWord}

theorem accept_of_fetch (h : s.phase = .fetch) :
    s.accept cw = ({ s with fcnt := s.fcnt - 1#24 }.loadWord (colorField cw)).enter .bitRise s.cfg.cDrive := by
  simp only [State.accept, h]

/-- The cycle in which a word is accepted. -/
theorem advanceCycle_of_accepted (hr : ready s = true) (hp : presented s = some cw) (a b : PortWord) :
    s.advanceCycle a b =
      { (s.elapse (outputs (ready s) a b s) a b).hostWriteIe (nowPins s) with host := s.host.tail }.accept cw := by
  unfold State.advanceCycle State.servePort
  rw [presented_in_cycle, hp]
  simp only [ready_in_cycle, hr, if_true, hostWriteIe_host, elapse_host]

theorem KeptFeed.of_not_presented (h : presented s = none) (a b : PortWord) : KeptFeed s (s.advanceCycle a b) := by
  rw [advanceCycle_of_not_presented h]
  constructor <;> simp

end

/-! ### The cycles of a word -/

/-- The prefetch, `k` cycles after a TRANSMIT began with NEXT empty, `f` words to accept and `hs` to come: the first of them is taken as
soon as it is presented, and no other before the TRANSMIT ends. -/
inductive Fed (f : WordCount) (hs : List HostWord) (k : Nat) (u : State) : Prop where
  | waiting (hfcnt : u.fcnt = f) (hvalid : u.nextValid = false) (hhost : u.host = waitHost^[k] hs)
      (hlate : f = 0#24 ∨ ∀ h ∈ hs.head?, k ≤ h.delay)
  | taken (h : HostWord) (tl : List HostWord) (hhs : hs = h :: tl) (hf : f ≠ 0#24) (hk : h.delay < k)
      (hfcnt : u.fcnt = f - 1#24) (hvalid : u.nextValid = true) (hnext : u.nextWord = colorField h.data)
      (hhost : u.host = waitHost^[k - h.delay - 1] tl)

section
variable {f : WordCount} {hs : List HostWord} {k : Nat} {s u v : State}

theorem Fed.start (hv : s.nextValid = false) : Fed s.fcnt s.host 0 s :=
  .waiting rfl hv rfl (.inr fun _ _ => Nat.zero_le _)

theorem Fed.congr (h : Fed f hs k u) (hf : KeptFeed u v) (hh : v.host = u.host) : Fed f hs k v := by
  cases h with
  | waiting h1 h2 h3 h4 => exact .waiting (hf.fcnt.trans h1) (hf.nextValid.trans h2) (hh.trans h3) h4
  | taken h tl h1 h2 h3 h4 h5 h6 h7 =>
    exact .taken h tl h1 h2 h3 (hf.fcnt.trans h4) (hf.nextValid.trans h5) (hf.nextWord.trans h6) (hh.trans h7)

theorem ready_of_isBit (hb : u.phase.isBit = true) (hc : u.cmd = .sendPattern) :
    ready u = (u.fcnt != 0#24 && !u.nextValid) := by
  cases hp : u.phase <;> simp_all [ready, wantsNext, Phase.isBit, Cmd.isPattern]

/-- Nothing is wanted, or nothing presented: the host waits. -/
theorem advanceCycle_feeds_nothing (h : ready u = false ∨ presented u = none) (a b : PortWord) :
    (u.advanceCycle a b).host = waitHost u.host ∧ KeptFeed u (u.advanceCycle a b) := by
  rcases h with h | h
  · exact ⟨advanceCycle_host_not_ready u a b h, .ofAdvance u a b (.inl h)⟩
  · exact ⟨by rw [advanceCycle_of_not_presented h], .of_not_presented h a b⟩

/-- The word presented is wanted: it is taken into NEXT. -/
theorem advanceCycle_prefetches {cw : CommandWord} (hb : u.phase.isBit = true) (hr : ready u = true)
    (hp : presented u = some cw) (a b : PortWord) :
    (u.advanceCycle a b).fcnt = u.fcnt - 1#24 ∧ (u.advanceCycle a b).nextValid = true ∧
      (u.advanceCycle a b).nextWord = colorField cw ∧ (u.advanceCycle a b).host = u.host.tail := by
  rw [advanceCycle_of_accepted hr hp, accept_of_isBit _ (by simpa using hb)]
  simp

theorem Fed.cycle (h : Fed f hs k u) (hb : u.phase.isBit = true) (hc : u.cmd = .sendPattern) (a b : PortWord) :
    Fed f hs (k + 1) (u.advanceCycle a b) := by
  have hready := ready_of_isBit hb hc
  cases h with
  | taken h tl hhs hf hk hfcnt hvalid hnext hhost =>
    obtain ⟨hwait, hkept⟩ := advanceCycle_feeds_nothing (.inl (by rw [hready, hvalid, Bool.not_true, Bool.and_false])) a b
    refine .taken h tl hhs hf (Nat.lt_succ_of_lt hk) (hkept.fcnt.trans hfcnt) (hkept.nextValid.trans hvalid)
      (hkept.nextWord.trans hnext) ?_
    rw [hwait, hhost, show k + 1 - h.delay - 1 = k - h.delay - 1 + 1 by omega, Function.iterate_succ_apply']
  | waiting hfcnt hvalid hhost hlate =>
    have hstill (hno : ready u = false ∨ presented u = none) (hlater : f = 0#24 ∨ ∀ h ∈ hs.head?, k + 1 ≤ h.delay) :
        Fed f hs (k + 1) (u.advanceCycle a b) := by
      obtain ⟨hwait, hkept⟩ := advanceCycle_feeds_nothing hno a b
      exact .waiting (hkept.fcnt.trans hfcnt) (hkept.nextValid.trans hvalid)
        (by rw [hwait, hhost, Function.iterate_succ_apply']) hlater
    by_cases hf : f = 0#24
    · exact hstill (.inl (by rw [hready, hfcnt, hf]; rfl)) (.inl hf)
    cases hs with
    | nil =>
      rw [waitHost_iterate_nil] at hhost
      exact hstill (.inr (presented_nil hhost)) (.inr (by simp))
    | cons h tl =>
      rw [waitHost_iterate_cons] at hhost
      have hpresented := presented_cons hhost
      have hle : k ≤ h.delay := hlate.resolve_left hf h rfl
      by_cases hk : h.delay = k
      · have hin : ready u = true := by rw [hready, hfcnt, hvalid]; simpa using hf
        rw [if_pos (by simp [hk])] at hpresented
        obtain ⟨hfcnt', hvalid', hnext, htail⟩ := advanceCycle_prefetches hb hin hpresented a b
        refine .taken h tl rfl hf (by omega) (by rw [hfcnt', hfcnt]) hvalid' hnext ?_
        rw [htail, hhost, hk, Nat.add_sub_cancel_left]
        rfl
      · have hne : h.delay - k ≠ 0 := by omega
        rw [if_neg hne] at hpresented
        refine hstill (.inr hpresented) (.inr fun x hx => ?_)
        obtain rfl : h = x := Option.some.inj hx
        omega

end

/-- Inside SENDPATTERN's masked section. -/
structure Masked (s : State) : Prop extends Undisturbed s where
  ie : s.ie = false
  cmd : s.cmd = .sendPattern

theorem Course.masked {s u : State} {l : Script} {os : List Obs} (h : Course s l os u) (hs : Masked s) : Masked u where
  toUndisturbed := h.undisturbed hs.toUndisturbed
  ie := by
    have hie := h.ie
    rw [hs.ie] at hie
    exact Bool.eq_false_iff.mpr fun hu => Bool.false_ne_true (hie hu)
  cmd := h.cmd.trans hs.cmd

theorem Masked.neverStalls {s : State} (h : Masked s) : Sys2Proof.Machine.neverStalls s = true := by
  rw [Sys2Proof.Machine.neverStalls, h.ie]; rfl

/-- A word's script, its cycles seen by the prefetch too. -/
theorem fedStable {s : State} (hs : Masked s) (f : WordCount) (hw : List HostWord) :
    Stable (fun ph => ph.isBit = true) (fun l u => (∃ os, Ended s l os u) ∧ Fed f hw l.length u)
      (fun l u => (∃ os, Ended s l os u) ∧ Fed f hw l.length u) (CutShort s) (calm s.pinmask s.pins = false) where
  live := fun _ h => live_of_isBit h
  weak := fun _ _ h => h
  adv := by
    rintro l u d ⟨⟨os, hended⟩, hfed⟩ hb hw hr ha
    refine ⟨(ranStable s).adv l u d ⟨os, hended.toRan⟩ (live_of_isBit hb) hw hr ha, ?_⟩
    rw [List.length_append]
    exact hfed.cycle hb (hended.kept.cmd.trans hs.cmd) _ _
  stall := by
    rintro l u ⟨⟨os, hended⟩, -⟩ hb hw hr ha
    rw [advances_of_masked u (hended.ie.trans hs.ie)] at ha
    cases ha
  hung := by
    rintro l u ⟨⟨os, hended⟩, -⟩ hb hh
    exact (ranStable s).hung l u ⟨os, hended.toRan⟩ (live_of_isBit hb) hh
  reset := by
    rintro l u ⟨⟨os, hended⟩, -⟩ hb hw hr
    exact (ranStable s).reset l u ⟨os, hended.toRan⟩ (live_of_isBit hb) hw hr
  refuse := by
    rintro l u ⟨⟨os, hended⟩, -⟩ hb hw
    exact (ranStable s).refuse l u ⟨os, hended.toRan⟩ (live_of_isBit hb) hw
  enter := fun l u ph n hb h => ⟨(ranStable s).enter l u ph n (live_of_isBit hb) h.1, h.2.congr (.ofEnter u ph n) rfl⟩
  dly := fun l u n h => ⟨(ranStable s).dly l u n h.1, h.2.congr (.ofDly u n) rfl⟩

/-- TRANSMIT inside SENDPATTERN: its script, and the prefetch of the next word. -/
theorem transmit_feeds (w : ColorWord) {s : State} (hs : Masked s) (hv : s.nextValid = false) :
    ∃ t os, transmit w s = .on t ∧ Ended s (wordScript s.cfg w) os t ∧ Fed s.fcnt s.host (s.cfg.wordCycles w) t := by
  have hload : (∃ os, Ended s [] os (s.loadWord w)) ∧ Fed s.fcnt s.host 0 (s.loadWord w) :=
    ⟨⟨[], (Ended.refl s).congr (Kept.ofLoad s w) ⟨rfl, rfl, rfl⟩ rfl rfl rfl rfl rfl rfl⟩,
      (Fed.start hv).congr ⟨rfl, rfl, rfl⟩ rfl⟩
  obtain ⟨t, ht, ⟨⟨os, hended⟩, hfed⟩, -⟩ :=
    ((fedStable hs s.fcnt s.host).transmit (l := []) w (fun _ h => h)
      (fun l u h => ⟨ran_shiftMask s l u h.1, h.2.congr ⟨rfl, rfl, rfl⟩ rfl⟩) hload).of_calm hs.calm hs.ends
  rw [List.nil_append] at hended hfed
  rw [wordScript_length (legal_cDrive hs.legal)] at hfed
  exact ⟨t, os, ht, hended, hfed⟩

/-! ### FETCH -/

theorem advance_of_advances {s : State} (hc : calm s.pinmask s.pins = true) (ha : advances s = true) (a b : PortWord) :
    advance a b s = .on (s.advanceCycle a b) := by
  simp only [advance, advanceWithin, tick, secondWriter_of_calm hc, rst_of_noReset (noReset_of_calm hc), ha, if_true,
    Bool.false_eq_true, if_false]

/-- Nothing presented: FETCH goes on. -/
theorem fetchCycle_waits {s : State} (hf : s.phase = .fetch) (hp : presented s = none) :
    (s.advanceCycle 0#256 0#256).phase = .fetch ∧ (s.advanceCycle 0#256 0#256).host = waitHost s.host ∧
      KeptFeed s (s.advanceCycle 0#256 0#256) := by
  refine ⟨?_, advanceCycle_feeds_nothing (.inr hp) _ _⟩
  rw [advanceCycle_of_not_presented hp]
  simpa using hf

section
variable {s : State} (hs : Masked s) (hf : s.phase = .fetch)
include hs hf

/-- A cycle of FETCH on the line: nothing is driven. `Ran` has the phases of its script for the command port alone, which it leaves aside
where the script says that the cycle is one of a bit; a `Course` does not look at them. -/
theorem fetchCycle_course : Course s [(.fetch, .none)] [outputs (ready s) 0#256 0#256 s] (s.advanceCycle 0#256 0#256) := by
  have hbusy : s.phase ≠ .idle := by rw [hf]; decide
  have hadv := advances_of_masked s hs.ie
  have hran : Ran s [(.bitGap, .none)] [outputs (ready s) 0#256 0#256 s] (s.advanceCycle 0#256 0#256) :=
    (Ran.refl s).cycleSeen (.ofAdvance s _ _) (advanceCycle_trace s _ _) (advanceCycle_cycle s _ _) (advanceCycle_pins s _ _)
      (advanceCycle_ie_busy s _ _ hbusy) .none (advanceCycle_port s _ _) (busy_of_not_idle hbusy) (secondWriter_of_calm hs.calm)
      _ rfl (.inr ⟨.bitGap, rfl, hadv⟩) fun hc => hc.elim (fun h => absurd hs.cmd h) fun h => nomatch h _ (List.mem_singleton.mpr rfl)
  have hcourse := (Ended.mk hran fun _ => (goesOn_zero s).trans hadv).course
  exact { hcourse with owned := hcourse.owned, levels := hcourse.levels, least := hcourse.least }

/-- FETCH ends in the cycle in which the next word is presented (45_strip_controller.md R95). -/
theorem fetch_completes {h : HostWord} {tl : List HostWord} (hh : s.host = h :: tl) :
    ∃ t os, fetchWithin (h.delay + 1) s = .on t ∧ Course s (waitScript .fetch (h.delay + 1)) os t ∧ t.host = tl ∧
      t.fcnt = s.fcnt - 1#24 ∧ t.nextValid = s.nextValid ∧ t.word = colorField h.data ∧ t.wcnt = s.wcnt ∧
      t.ieSaved = s.ieSaved := by
  obtain ⟨d, cw⟩ := h
  induction d generalizing s with
  | zero =>
    have hin : ready s = true := (ready_iff s).mpr (.inr (.inl hf))
    have hcycle := advanceCycle_of_accepted hin (presented_cons hh) 0#256 0#256
    rw [accept_of_fetch (by simpa using hf)] at hcycle
    have hphase : (s.advanceCycle 0#256 0#256).phase = .bitRise := by rw [hcycle]; rfl
    refine ⟨_, _, ?_, fetchCycle_course hs hf, ?_, ?_, ?_, ?_, advanceCycle_wcnt s _ _, advanceCycle_ieSaved s _ _⟩
    · rw [fetchWithin, advance_of_advances hs.calm (advances_of_masked s hs.ie), andThen_on, hphase]
      rfl
    all_goals rw [hcycle]; simp [hh]
  | succ d ih =>
    have hcourse := fetchCycle_course hs hf
    obtain ⟨hphase, hhost, hkept⟩ := fetchCycle_waits hf (presented_cons hh)
    obtain ⟨t, os, ht, hmore, htl, hfcnt, hvalid, hword, hwcnt, hsaved⟩ :=
      ih (hcourse.masked hs) hphase (by rw [hhost, hh]; rfl)
    refine ⟨t, _, ?_, hcourse.trans hmore, htl, by rw [hfcnt, hkept.fcnt], hvalid.trans hkept.nextValid, hword,
      hwcnt.trans (advanceCycle_wcnt s _ _), hsaved.trans (advanceCycle_ieSaved s _ _)⟩
    rw [fetchWithin, advance_of_advances hs.calm (advances_of_masked s hs.ie), andThen_on, hphase]
    exact ht

/-- With no word to come FETCH goes on (70_reset_and_hazards.md R137). -/
theorem fetch_waits (hh : s.host = []) (n : Nat) :
    ∃ t os, fetchWithin n s = .over t ∧ Course s (waitScript .fetch n) os t ∧ t.phase = .fetch ∧ t.host = [] ∧ KeptFeed s t ∧
      t.wcnt = s.wcnt := by
  induction n generalizing s with
  | zero => exact ⟨s, [], rfl, .refl s, hf, hh, .refl s, rfl⟩
  | succ n ih =>
    have hcourse := fetchCycle_course hs hf
    obtain ⟨hphase, hhost, hkept⟩ := fetchCycle_waits hf (presented_nil hh)
    obtain ⟨t, os, ht, hmore, hfetch, hnone, hfeed, hwcnt⟩ := ih (hcourse.masked hs) hphase (by rw [hhost, hh]; rfl)
    refine ⟨t, _, ?_, hcourse.trans hmore, hfetch, hnone, hkept.trans hfeed, hwcnt.trans (advanceCycle_wcnt s _ _)⟩
    rw [fetchWithin, advance_of_advances hs.calm (advances_of_masked s hs.ie), andThen_on, hphase]
    exact ht

end

end Sys2Proof.Machine
end

section
/-! SENDPATTERN (45_strip_controller.md R94 to R97, R101): its loop word by word, for a host that takes its time, for one that keeps up
with the words, and for one that stops short. -/

namespace Sys2Proof.Machine

/-! ### One word -/

/-- The word `w` is the next to be sent, after `d` cycles of FETCH; then `f` words are still to be accepted, and `hs` is to come. -/
inductive Queued (s : State) : Nat → ColorWord → WordCount → List HostWord → Prop where
  | ready (hvalid : s.nextValid = true) : Queued s 0 s.nextWord s.fcnt s.host
  | coming (hvalid : s.nextValid = false) (h : HostWord) (tl : List HostWord) (hhost : s.host = h :: tl) :
      Queued s (h.delay + 1) (colorField h.data) (s.fcnt - 1#24) tl

section
variable {s : State} {d : Nat} {w : ColorWord} {f : WordCount} {hs : List HostWord} (hm : Masked s) (hq : Queued s d w f hs)
include hm hq

/-- The next payload word, without a cycle in between when it is prefetched (45_strip_controller.md R95). -/
theorem nextPayload_completes : ∃ t os, nextPayload s = .on t ∧ Course s (waitScript .fetch d) os t ∧ t.word = w ∧ t.fcnt = f ∧
    t.host = hs ∧ t.nextValid = false ∧ t.wcnt = s.wcnt ∧ t.ieSaved = s.ieSaved := by
  cases hq with
  | ready hvalid =>
    refine ⟨s.takeNext, [], by rw [nextPayload, if_pos hvalid], ?_, rfl, rfl, rfl, rfl, rfl, rfl⟩
    exact (Course.refl s).update (takeNext_outside s) rfl rfl id rfl rfl rfl fun h => absurd hm.cmd h
  | coming hvalid h _ hhost =>
    have henter : Course s [] [] (s.enter .fetch 0) :=
      (Course.refl s).update (enter_outside s _ _) rfl rfl id rfl rfl rfl fun h => absurd hm.cmd h
    obtain ⟨t, os, ht, hcourse, htl, hfcnt, hnext, hword, hwcnt, hsaved⟩ :=
      fetch_completes (henter.masked hm) rfl (h := h) (tl := hs) hhost
    refine ⟨t, _, ?_, henter.trans hcourse, hword, hfcnt, htl, hnext.trans hvalid, hwcnt, hsaved⟩
    have hbound : fetchBound (s.enter .fetch 0) = h.delay + 1 := by rw [fetchBound, enter_host, hhost]
    rw [nextPayload, if_neg (by rw [hvalid]; decide)]
    change fetchWithin (fetchBound (s.enter .fetch 0)) (s.enter .fetch 0) = _
    rw [hbound, ht]

/-- One turn of the loop. -/
theorem patternWord_completes : ∃ t os, (∀ n, patternWords (n + 1) s = patternWords n t) ∧
    Course s (waitScript .fetch d ++ wordScript s.cfg w) os t ∧ Fed f hs (s.cfg.wordCycles w) t ∧ t.wcnt = s.wcnt - 1#24 ∧
    t.ieSaved = s.ieSaved := by
  obtain ⟨u, os, hu, hfetch, hword, hfcnt, hhost, hvalid, hwcnt, hsaved⟩ := nextPayload_completes hm hq
  obtain ⟨t, os', ht, hsent, hfed⟩ := transmit_feeds w (hfetch.masked hm) hvalid
  rw [hfetch.conf.cfg] at hsent
  rw [hfetch.conf.cfg, hfcnt, hhost] at hfed
  refine ⟨t.countWord, _, fun n => ?_, hfetch.trans hsent.course.countWord, hfed.congr ⟨rfl, rfl, rfl⟩ rfl, ?_,
    hsent.kept.ieSaved.trans hsaved⟩
  · rw [patternWords, hu, andThen_on, hword, ht, andThen_on]
  · rw [countWord_wcnt, hsent.kept.wcnt, hwcnt]

end

/-! ### A host that takes its time -/

/-- The stream holds the words `ws`, and then `rest`, which may have been waiting. -/
def Holds (hs : List HostWord) (ws : List ColorWord) (rest : List HostWord) : Prop :=
  ∃ payload k, hs = payload ++ waitHost^[k] rest ∧ payload.map (fun h => colorField h.data) = ws

theorem Holds.wait {hs : List HostWord} {ws : List ColorWord} {rest : List HostWord} (h : Holds hs ws rest) (n : Nat) :
    Holds (waitHost^[n] hs) ws rest := by
  obtain ⟨payload, k, rfl, rfl⟩ := h
  cases payload with
  | nil => exact ⟨[], n + k, by rw [List.nil_append, List.nil_append, Function.iterate_add_apply], rfl⟩
  | cons h tl => exact ⟨{ h with delay := h.delay - n } :: tl, k, by rw [List.cons_append, waitHost_iterate_cons]; rfl, rfl⟩

/-- Between two words of SENDPATTERN: WCNT counts the words `ws` that the host supplies and `j` that it does not, the first of them
prefetched or not. -/
structure Pending (s : State) (ws : List ColorWord) (rest : List HostWord) (j : Nat) : Prop where
  wcnt : s.wcnt.toNat = ws.length + j
  short : j = 0 ∨ rest = []
  feed : (s.nextValid = false ∧ s.fcnt = s.wcnt ∧ Holds s.host ws rest) ∨
    (s.nextValid = true ∧ s.fcnt = s.wcnt - 1#24 ∧ ∃ ws', ws = s.nextWord :: ws' ∧ Holds s.host ws' rest)

section
variable {s t : State} {w : ColorWord} {ws : List ColorWord} {rest : List HostWord} {j : Nat}

theorem Pending.queued (hp : Pending s (w :: ws) rest j) :
    ∃ d hs, Queued s d w (s.wcnt - 1#24) hs ∧ Holds hs ws rest ∧ (s.nextValid = false → 1 ≤ d) := by
  rcases hp.feed with ⟨hvalid, hfcnt, payload, k, hhost, hws⟩ | ⟨hvalid, hfcnt, ws', hws, hholds⟩
  · cases payload with
    | nil => cases hws
    | cons h tl =>
      obtain ⟨rfl, rfl⟩ := List.cons.inj hws
      have hq := Queued.coming hvalid h _ hhost
      rw [hfcnt] at hq
      exact ⟨_, _, hq, ⟨tl, k, rfl, rfl⟩, fun _ => Nat.le_add_left 1 _⟩
  · obtain ⟨rfl, rfl⟩ := List.cons.inj hws
    have hq := Queued.ready hvalid
    rw [hfcnt] at hq
    exact ⟨0, _, hq, hholds, fun hv => by rw [hvalid] at hv; cases hv⟩

/-- What the prefetch has done while a word was sent leaves the rest pending. -/
theorem Fed.pending {hs : List HostWord} {k : Nat} (h : Fed t.wcnt hs k t) (hholds : Holds hs ws rest)
    (hwcnt : t.wcnt.toNat = ws.length + j) (hshort : j = 0 ∨ rest = []) : Pending t ws rest j := by
  refine ⟨hwcnt, hshort, ?_⟩
  cases h with
  | waiting hfcnt hvalid hhost => exact .inl ⟨hvalid, hfcnt, by rw [hhost]; exact hholds.wait k⟩
  | taken h tl hhs hf hk hfcnt hvalid hnext hhost =>
    obtain ⟨payload, i, hpayload, rfl⟩ := hholds
    cases payload with
    | nil =>
      have hj : j ≠ 0 := by
        rintro rfl
        exact hf (BitVec.eq_of_toNat_eq hwcnt)
      rw [hshort.resolve_left hj, waitHost_iterate_nil, List.append_nil, hhs] at hpayload
      cases hpayload
    | cons h' tl' =>
      rw [hhs] at hpayload
      obtain ⟨rfl, rfl⟩ := List.cons.inj hpayload
      refine .inr ⟨hvalid, hfcnt, tl'.map fun h => colorField h.data, ?_, ?_⟩
      · rw [hnext, List.map_cons]
      · rw [hhost]
        exact Holds.wait ⟨tl', i, rfl, rfl⟩ _

/-- Where none of the supplied words is left, none is prefetched. -/
theorem Pending.none_left (h : Pending s [] rest j) :
    s.nextValid = false ∧ s.fcnt = s.wcnt ∧ s.wcnt.toNat = j ∧ ∃ k, s.host = waitHost^[k] rest := by
  rcases h.feed with ⟨hvalid, hfcnt, payload, k, hhost, hnil⟩ | ⟨-, -, ws', hws, -⟩
  · rw [List.map_eq_nil_iff.mp hnil, List.nil_append] at hhost
    exact ⟨hvalid, hfcnt, h.wcnt.trans (Nat.zero_add j), k, hhost⟩
  · cases hws

end

theorem toNat_pred {x : WordCount} {m : Nat} (h : x.toNat = m + 1) : (x - 1#24).toNat = m := by
  have := x.isLt
  bv_omega

/-- The loop sends the supplied words, whenever they come. Its script is that of the words with the cycles of FETCH among them. -/
theorem patternWords_sends {rest : List HostWord} {j : Nat} (ws : List ColorWord) {s : State} (hm : Masked s)
    (hp : Pending s ws rest j) :
    ∃ t os l, patternWords (ws.length + j) s = patternWords j t ∧ Course s l os t ∧ Pending t [] rest j ∧
      t.ieSaved = s.ieSaved ∧ patternCycles s.cfg ws + (if s.nextValid || ws.isEmpty then 0 else 1) ≤ l.length ∧
      ∀ p, p &&& ~~~s.pinmask = 0#256 → (ws = [] → p = 0#256) → portAfter s.pinmask p l = 0#256 := by
  induction ws generalizing s with
  | nil => exact ⟨s, [], [], by rw [List.length_nil, Nat.zero_add], .refl s, hp, rfl, by simp [patternCycles], fun p _ h => h rfl⟩
  | cons w ws ih =>
    obtain ⟨d, hs, hq, hholds, hd⟩ := hp.queued
    obtain ⟨u, os, hturn, hcourse, hfed, hwcnt, hsaved⟩ := patternWord_completes hm hq
    rw [← hwcnt] at hfed
    have hcount : u.wcnt.toNat = ws.length + j := by
      rw [hwcnt]
      exact toNat_pred (by rw [hp.wcnt, List.length_cons]; omega)
    obtain ⟨t, os', l, hrest, hmore, hleft, hsaved', hcost, hlow⟩ := ih (hcourse.masked hm) (hfed.pending hholds hcount hp.short)
    rw [hcourse.conf.cfg] at hcost
    rw [hcourse.conf.pinmask] at hlow
    refine ⟨t, _, _, ?_, hcourse.trans hmore, hleft, hsaved'.trans hsaved, ?_, fun p hpm _ => ?_⟩
    · rw [List.length_cons, show ws.length + 1 + j = ws.length + j + 1 by omega, hturn, hrest]
    · have hfetch : (if s.nextValid || (w :: ws).isEmpty then 0 else 1) ≤ d := by
        cases hv : s.nextValid with
        | false => exact hd hv
        | true => exact Nat.zero_le d
      rw [List.length_append, List.length_append, waitScript_length, wordScript_length (legal_cDrive hm.legal), patternCycles_cons]
      omega
    · rw [portAfter_append, portAfter_append, portAfter_waitScript, portAfter_wordScript _ w hpm]
      exact hlow _ BitVec.zero_and fun _ => rfl

/-! ### A host that keeps up -/

/-- Each word follows the one before at once, when the host presents it no later than the last cycle of that one. -/
theorem patternWords_inTime {rest : List HostWord} (hs : List HostWord) {s : State} {d e : Nat} {w : ColorWord} {f : WordCount}
    (hm : Masked s) (hq : Queued s d w f (waitHost^[e] (hs ++ rest))) (hf : f.toNat = hs.length)
    (htime : followsInTime s.cfg w e hs = true) :
    ∃ t os, patternWords (hs.length + 1) s = .on t ∧
      Course s (waitScript .fetch d ++ wordsScript s.cfg (w :: hs.map fun h => colorField h.data)) os t ∧
      t.ieSaved = s.ieSaved := by
  induction hs generalizing s d e w f with
  | nil =>
    obtain ⟨u, os, hturn, hcourse, -, -, hsaved⟩ := patternWord_completes hm hq
    refine ⟨u, os, hturn 0, ?_, hsaved⟩
    rwa [List.map_nil, wordsScript_cons, wordsScript, List.flatMap_nil, List.append_nil]
  | cons h tl ih =>
    obtain ⟨u, os, hturn, hcourse, hfed, -, hsaved⟩ := patternWord_completes hm hq
    rw [followsInTime, Bool.and_eq_true, decide_eq_true_eq] at htime
    obtain ⟨hnow, hlater⟩ := htime
    rw [List.cons_append, waitHost_iterate_cons] at hfed
    cases hfed with
    | waiting _ _ _ hlate =>
      rcases hlate with hlate | hlate
      · rw [hlate] at hf; cases hf
      · exact absurd (hlate _ rfl) (Nat.not_le.mpr hnow)
    | taken h' tl' hhs hf' hk hfcnt hvalid hnext hhost =>
      obtain ⟨rfl, rfl⟩ := List.cons.inj hhs
      have hq' := Queued.ready hvalid
      rw [hnext, hhost, Nat.sub_right_comm] at hq'
      obtain ⟨t, os', ht, hmore, hsaved'⟩ := ih (hcourse.masked hm) hq' (by rw [hfcnt]; exact toNat_pred hf)
        (by rwa [hcourse.conf.cfg])
      have hall := hcourse.trans hmore
      rw [hcourse.conf.cfg, List.append_assoc] at hall
      exact ⟨t, _, (hturn _).trans ht, hall, hsaved'.trans hsaved⟩

/-! ### IRQMASK that nothing stalls -/

/-- A cycle that is known to advance. -/
theorem advance_goesOn {s u : State} {l : Script} {os : List Obs} (h : Ended s l os u) (hexact : os.length = l.length)
    (hgo : goesOn s l.length = true) (hc : calm s.pinmask s.pins = true) (hl : u.phase.live) :
    ∃ t os', advance 0#256 0#256 u = .on t ∧ Ended s (l ++ [(u.phase, .none)]) os' t ∧ os'.length = l.length + 1 ∧
      t.phase = u.phase := by
  have hadv : advances u = true := by
    rw [← goesOn_zero, goesOn_later h.pins h.ie h.kept.stallAfter, Nat.add_zero, hexact, hgo]
  have hcalm : calm u.pinmask u.pins = true := by rw [h.kept.pinmask]; exact h.toRan.calm hc
  obtain ⟨os', hended⟩ := (ranStable s).adv l u .none ⟨os, h.toRan⟩ hl (secondWriter_of_calm hcalm)
    (rst_of_noReset (noReset_of_calm hcalm)) hadv
  have hcycle : (u.advanceCycle 0#256 0#256).cycle = u.cycle + 1 := advanceCycle_cycle u _ _
  refine ⟨_, os', advance_of_advances hcalm hadv _ _, hended, ?_, (advanceCycle_position u _ _ hl.2).1⟩
  have hlong := hended.cycle
  rw [Drive.set, Drive.clr, hcycle, h.cycle] at hlong
  omega

theorem waitCycles_goesOn (n : Nat) {s u : State} {l : Script} {os : List Obs} (h : Ended s l os u)
    (hexact : os.length = l.length) (hgo : ∀ k < l.length + n, goesOn s k = true) (hc : calm s.pinmask s.pins = true)
    (hl : u.phase.live) :
    ∃ t os', waitCycles n u = .on t ∧ Ended s (l ++ waitScript u.phase n) os' t ∧ os'.length = l.length + n ∧
      t.phase = u.phase := by
  induction n generalizing u l os with
  | zero => exact ⟨u, os, rfl, by rwa [waitScript, List.replicate_zero, List.append_nil], hexact, rfl⟩
  | succ n ih =>
    obtain ⟨v, os₁, hv, hended, hlong, hphase⟩ := advance_goesOn h hexact (hgo _ (by omega)) hc hl
    have hstart := hended.congr (KeptWord.ofDly v (v.dly - 1)).toKept (KeptFeed.ofDly v _) rfl rfl rfl rfl rfl rfl
    obtain ⟨t, os', ht, hend, hlong', hphase'⟩ := ih (u := v.countDly) hstart (by simpa using hlong)
      (fun k hk => hgo k (by simp at hk; omega)) (by rw [countDly_phase, hphase]; exact hl)
    rw [countDly_phase, hphase] at hend
    refine ⟨t, os', by rw [waitCycles, hv, andThen_on, ht], ?_, by simp at hlong'; omega, by rw [hphase', countDly_phase, hphase]⟩
    rwa [List.append_assoc] at hend

/-- Without a stall in its cycles IRQMASK takes C_SYNC cycles, whatever stalls come later. -/
theorem irqMask_goesOn {s : State} (hlegal : s.cfg.legal = true) (hc : calm s.pinmask s.pins = true)
    (hgo : ∀ k, k < s.cfg.cSync → goesOn s k = true) :
    ∃ u os, irqMask s = .on u.maskIe ∧ Ended s (driveScript .syncMask s.cfg.cSync .none) os u ∧ os.length = s.cfg.cSync := by
  have hsync := legal_cSync hlegal
  have hlive : Phase.live .syncMask := by simp [Phase.live]
  have hstart : Ended s [] [] (s.enter .syncMask s.cfg.cSync) :=
    (Ended.refl s).congr (KeptWord.ofEnter s _ _).toKept (.ofEnter s _ _) rfl rfl rfl rfl rfl rfl
  obtain ⟨v, os, hv, hwait, hlong, hphase⟩ :=
    waitCycles_goesOn (s.cfg.cSync - 1) hstart rfl (fun k hk => hgo k (by simp at hk; omega)) hc hlive
  rw [List.nil_append] at hwait
  rw [enter_phase] at hwait hphase
  rw [List.length_nil, Nat.zero_add] at hlong
  obtain ⟨u, os', hu, hended, hlong', -⟩ := advance_goesOn hwait (by rw [hlong, waitScript_length])
    (hgo _ (by rw [waitScript_length]; omega)) hc (by rw [hphase]; exact hlive)
  rw [hphase] at hended
  refine ⟨{ u with dly := 0 }, os', ?_,
    hended.congr (KeptWord.ofDly u 0).toKept (.ofDly u 0) rfl rfl rfl rfl rfl rfl, by rw [hlong', waitScript_length]; omega⟩
  rw [irqMask, operate, hv, andThen_on, hu, andThen_on]

end Sys2Proof.Machine
end

section
/-! SENDPATTERN from its start to its end (45_strip_controller.md R94): IRQMASK, the loop and IRQRESTORE, with a payload that comes, one
that comes in time, and one that stops short. -/

namespace Sys2Proof.Machine

theorem isEmpty_iff_count_zero {α : Type} {l : List α} {n : WordCount} (h : l.length = n.toNat) :
    l.isEmpty = true ↔ n = 0#24 := by
  rw [List.isEmpty_iff, ← List.length_eq_zero_iff, h, ← BitVec.toNat_inj]
  rfl

/-- No word is accepted in a phase that is not one of a bit. -/
theorem portClosed_driveScript (s : State) {ph : Phase} (h : ph.isBit = false) (n : Nat) (d : Drive) :
    portClosed s (driveScript ph n d) := by
  refine .inr fun x hx => ?_
  rcases List.mem_append.mp hx with hx | hx
  · rw [List.eq_of_mem_replicate hx, h]
  · rw [List.mem_singleton.mp hx, h]

/-- SENDPATTERN's registers at the start of its masking. -/
def State.startPattern (n : WordCount) (s : State) : State := (s.begin .sendPattern 0#24).loadCounts n

theorem sendPattern_of_masked {n : WordCount} {s m : State} (h : irqMask (s.startPattern n) = .on m) :
    sendPattern n s = ((patternWords n.toNat m).andThen irqRestore).andThen complete := by
  change (maskedIf true (patternWords n.toNat) (s.startPattern n)).andThen complete = _
  rw [maskedIf, if_pos rfl, h, andThen_on]

/-- IRQMASK has passed: IE_SAVED holds IE, the counters the words, and the host has been waiting meanwhile. -/
structure PatternMasked (n : WordCount) (s : State) (os : List Obs) (m : State) : Prop where
  course : Course (s.startPattern n) (driveScript .syncMask s.cfg.cSync .none) os m
  masked : Masked m
  ieSaved : m.ieSaved = s.ie
  wcnt : m.wcnt = n
  fcnt : m.fcnt = n
  nextValid : m.nextValid = false
  host : m.host = waitHost^[os.length] s.host

theorem Ended.patternMasked {n : WordCount} {s u : State} {os : List Obs} (hlegal : s.cfg.legal = true)
    (hcalm : calm s.pinmask s.pins = true)
    (h : Ended (s.startPattern n) (driveScript .syncMask s.cfg.cSync .none) os u) : PatternMasked n s os u.maskIe := by
  obtain ⟨hhost, hfeed⟩ := h.host (portClosed_driveScript _ rfl _ _)
  have hpins : calm u.pinmask u.pins = true := by rw [h.kept.pinmask]; exact h.toRan.calm hcalm
  exact ⟨h.course.maskIe, ⟨⟨(congrArg Params.legal h.kept.cfg).trans hlegal, hpins, stallsEnd_of_masked rfl⟩, rfl, h.kept.cmd⟩, h.ie,
    h.kept.wcnt, hfeed.fcnt, hfeed.nextValid, hhost⟩

section
variable {n : WordCount} {s m : State} {os : List Obs} {ws : List ColorWord} {rest : List HostWord} {j : Nat}

theorem PatternMasked.pending (h : PatternMasked n s os m) (hws : Supplies s ws rest) (hn : n.toNat = ws.length + j)
    (hshort : j = 0 ∨ rest = []) : Pending m ws rest j := by
  obtain ⟨payload, hhost, hpayload⟩ := hws
  refine ⟨by rw [h.wcnt, hn], hshort, .inl ⟨h.nextValid, by rw [h.fcnt, h.wcnt], ?_⟩⟩
  rw [h.host, hhost]
  exact Holds.wait ⟨payload, 0, rfl, hpayload⟩ _

theorem irqMask_startPattern (n : WordCount) (hs : Undisturbed s) :
    ∃ m os, irqMask (s.startPattern n) = .on m ∧ PatternMasked n s os m := by
  obtain ⟨u, os, hu, hended⟩ := irqMask_completes (s := s.startPattern n) ⟨hs.legal, hs.calm, hs.ends⟩
  exact ⟨u.maskIe, os, hu, hended.patternMasked hs.legal hs.calm⟩

/-- The end of the masked section: IE is what it was, and the feed stays empty. -/
theorem PatternMasked.restores (h : PatternMasked n s os m) {u : State} {l : Script} {os' : List Obs} (hwords : Course m l os' u)
    (hsaved : u.ieSaved = m.ieSaved) :
    ∃ x os'', irqRestore u = .on x.restoreIe ∧ Course m (l ++ driveScript .syncRestore s.cfg.cSync .none) os'' x ∧
      x.ieSaved = s.ie ∧ x.wcnt = u.wcnt ∧ KeptFeed u x ∧ ∃ k, x.host = waitHost^[k] u.host := by
  obtain ⟨x, os'', hx, hrestore⟩ := irqRestore_completes (hwords.masked h.masked).toUndisturbed
  obtain ⟨hhost, hfeed⟩ := hrestore.host (portClosed_driveScript _ rfl _ _)
  have hcourse := hwords.trans hrestore.course
  have hcfg : u.cfg = s.cfg := hwords.conf.cfg.trans h.course.conf.cfg
  rw [hcfg] at hcourse
  exact ⟨x, _, hx, hcourse, by rw [hrestore.kept.ieSaved, hsaved, h.ieSaved], hrestore.kept.wcnt, hfeed, _, hhost⟩

end

/-! ### A payload that comes -/

theorem sendPattern_completes {n : WordCount} {ws : List ColorWord} {rest : List HostWord} {s : State} (hs : Undisturbed s)
    (hws : Supplies s ws rest) (hn : ws.length = n.toNat) :
    ∃ x os l, exec (.sendPattern n) s = .next x.restoreIe.finish ∧ Course (s.startPattern n) l os x ∧ x.ieSaved = s.ie ∧
      x.wcnt = 0#24 ∧ x.fcnt = 0#24 ∧ x.nextValid = false ∧ (∃ k, x.host = waitHost^[k] rest) ∧
      2 * s.cfg.cSync + (if ws.isEmpty then 0 else 1) + patternCycles s.cfg ws ≤ l.length ∧
      (ws ≠ [] → portAfter s.pinmask (s.port &&& s.pinmask) l = 0#256) := by
  obtain ⟨m, os, hmask, hmasked⟩ := irqMask_startPattern n hs
  obtain ⟨u, os', l, hu, hwords, hleft, hsaved, hcost, hlow⟩ :=
    patternWords_sends (j := 0) ws hmasked.masked (hmasked.pending hws hn.symm (.inl rfl))
  obtain ⟨hvalid, hfcnt, hwcnt, k, hhost⟩ := hleft.none_left
  have hzero : u.wcnt = 0#24 := BitVec.eq_of_toNat_eq hwcnt
  obtain ⟨x, os'', hx, hcourse, hie, hwcnt', hfeed, i, hhost'⟩ := hmasked.restores hwords hsaved
  have hcfg : m.cfg = s.cfg := hmasked.course.conf.cfg
  have hpinmask : m.pinmask = s.pinmask := hmasked.course.conf.pinmask
  refine ⟨x, _, _, ?_, hmasked.course.trans hcourse, hie, hwcnt'.trans hzero, (hfeed.fcnt.trans hfcnt).trans hzero,
    hfeed.nextValid.trans hvalid, ⟨i + k, by rw [hhost', hhost, Function.iterate_add_apply]⟩, ?_, fun hne => ?_⟩
  · change (sendPattern n s).outcome = _
    rw [sendPattern_of_masked hmask, ← hn, ← Nat.add_zero ws.length, hu]
    change ((irqRestore u).andThen complete).outcome = _
    rw [hx]
    rfl
  · have hsync := legal_cSync hs.legal
    rw [hmasked.nextValid, Bool.false_or, hcfg] at hcost
    rw [List.length_append, List.length_append, driveScript_length, driveScript_length]
    omega
  · rw [portAfter_append, portAfter_driveScript, Drive.apply_none, portAfter_append, portAfter_driveScript, Drive.apply_none,
      ← hpinmask]
    exact hlow _ (and_and_not _ _) fun h => absurd h hne

/-! ### A payload that stops short -/

/-- With no word to come the loop stays in FETCH. -/
theorem patternWords_missing {s : State} (hm : Masked s) (hvalid : s.nextValid = false) (hhost : s.host = []) (n : Nat) :
    ∃ t os k, patternWords (n + 1) s = .over t ∧ Course s (waitScript .fetch k) os t ∧ t.phase = .fetch ∧ t.host = [] ∧
      KeptFeed s t ∧ t.wcnt = s.wcnt := by
  have henter : Course s [] [] (s.enter .fetch 0) :=
    (Course.refl s).update (enter_outside s _ _) rfl rfl id rfl rfl rfl fun h => absurd hm.cmd h
  obtain ⟨t, os, ht, hcourse, hphase, hnone, hfeed, hwcnt⟩ :=
    fetch_waits (henter.masked hm) rfl hhost (fetchBound (s.enter .fetch 0))
  refine ⟨t, _, _, ?_, henter.trans hcourse, hphase, hnone, (KeptFeed.ofEnter s _ _).trans hfeed, hwcnt⟩
  rw [patternWords, nextPayload, if_neg (by rw [hvalid]; decide)]
  change (fetchWithin (fetchBound (s.enter .fetch 0)) (s.enter .fetch 0)).andThen _ = _
  rw [ht, andThen_over]

theorem sendPattern_starves {n : WordCount} {ws : List ColorWord} {s : State} (hs : Undisturbed s) (hws : Supplies s ws [])
    (hn : ws.length < n.toNat) :
    ∃ t os l, exec (.sendPattern n) s = .next t ∧ Course (s.startPattern n) l os t ∧ Masked t ∧ t.phase = .fetch ∧ t.host = [] ∧
      t.fcnt = t.wcnt ∧ t.wcnt.toNat = n.toNat - ws.length ∧ t.nextValid = false ∧
      (ws ≠ [] → portAfter s.pinmask (s.port &&& s.pinmask) l = 0#256) := by
  obtain ⟨j, hj⟩ : ∃ j, n.toNat = ws.length + (j + 1) := ⟨n.toNat - ws.length - 1, by omega⟩
  obtain ⟨m, os, hmask, hmasked⟩ := irqMask_startPattern n hs
  obtain ⟨u, os', l, hu, hwords, hleft, -, -, hlow⟩ :=
    patternWords_sends ws hmasked.masked (hmasked.pending hws hj (.inr rfl))
  obtain ⟨hvalid, hfcnt, hwcnt, k, hhost⟩ := hleft.none_left
  rw [waitHost_iterate_nil] at hhost
  have hmu := hwords.masked hmasked.masked
  obtain ⟨t, os'', i, ht, hfetch, hphase, hnone, hfeed, hwcnt'⟩ := patternWords_missing hmu hvalid hhost j
  have hpinmask : m.pinmask = s.pinmask := hmasked.course.conf.pinmask
  refine ⟨t, _, _, ?_, hmasked.course.trans (hwords.trans hfetch), hfetch.masked hmu, hphase, hnone,
    by rw [hfeed.fcnt, hfcnt, hwcnt'], by rw [hwcnt', hwcnt]; omega, hfeed.nextValid.trans hvalid, fun hne => ?_⟩
  · change (sendPattern n s).outcome = _
    rw [sendPattern_of_masked hmask, hj, hu, ht]
    rfl
  · rw [portAfter_append, portAfter_driveScript, Drive.apply_none, portAfter_append, portAfter_waitScript, ← hpinmask]
    exact hlow _ (and_and_not _ _) fun h => absurd h hne

/-! ### A payload in time -/

/-- What follows IRQMASK: one cycle of FETCH before the first word and none before the others, then IRQRESTORE. -/
def patternScript (c : Params) (ws : List ColorWord) : Script :=
  waitScript .fetch (if ws.isEmpty then 0 else 1) ++ wordsScript c ws ++ driveScript .syncRestore c.cSync .none

section
variable {c : Params} (ws : List ColorWord)

theorem patternScript_length (hlegal : c.legal = true) :
    (patternScript c ws).length = (if ws.isEmpty then 0 else 1) + patternCycles c ws + c.cSync := by
  rw [patternScript, List.length_append, List.length_append, waitScript_length, wordsScript_length (legal_cDrive hlegal),
    driveScript_length, Nat.sub_add_cancel (legal_cSync hlegal)]

theorem portAfter_patternScript (m : PortWord) : portAfter m 0#256 (patternScript c ws) = 0#256 := by
  rw [patternScript, portAfter_append, portAfter_append, portAfter_waitScript,
    portAfter_wordsScript _ BitVec.zero_and fun _ => rfl, portAfter_driveScript, Drive.apply_none]

theorem portDuring_patternScript (hlegal : c.legal = true) {m : PortWord} {b : Nat} (hb : m.getLsbD b = true) :
    (portDuring m 0#256 (patternScript c ws)).map (·.getLsbD b) =
      (if ws.isEmpty then [] else [false]) ++ patternLevels c ws ++ List.replicate c.cSync false := by
  rw [patternScript, portDuring_append, portDuring_append, portAfter_append, portAfter_waitScript,
    portAfter_wordsScript _ BitVec.zero_and fun _ => rfl, portDuring_waitScript,
    portDuring_driveScript _ _ _ _ _ (legal_cSync hlegal), List.map_append, List.map_append,
    portDuring_wordsScript (legal_cDrive hlegal) _ hb, List.map_replicate, List.map_replicate, BitVec.getLsbD_zero]
  cases ws <;> rfl

end


theorem PatternMasked.inTime {n : WordCount} {s m : State} {os : List Obs} {payload rest : List HostWord}
    (h : PatternMasked n s os m) (hlong : os.length = s.cfg.cSync) (hhost : s.host = payload ++ rest)
    (hn : payload.length = n.toNat) (htime : Sys2Proof.Machine.inTime s.cfg payload = true) :
    ∃ u os', patternWords n.toNat m = .on u ∧
      Course m (waitScript .fetch (if (payload.map fun h => colorField h.data).isEmpty then 0 else 1) ++
        wordsScript s.cfg (payload.map fun h => colorField h.data)) os' u ∧ u.ieSaved = m.ieSaved := by
  have hcfg : m.cfg = s.cfg := h.course.conf.cfg
  rw [← hn]
  cases payload with
  | nil => exact ⟨m, [], rfl, .refl m, rfl⟩
  | cons w tl =>
    rw [Sys2Proof.Machine.inTime, Bool.and_eq_true, decide_eq_true_eq] at htime
    obtain ⟨hfirst, hlater⟩ := htime
    have hcoming := h.host
    rw [hhost, List.cons_append, waitHost_iterate_cons, hlong, Nat.sub_eq_zero_of_le hfirst] at hcoming
    have hleft : (m.fcnt - 1#24).toNat = tl.length := by rw [h.fcnt]; exact toNat_pred hn.symm
    obtain ⟨u, os', hu, hcourse, hsaved⟩ := patternWords_inTime (e := 0) tl h.masked (Queued.coming h.nextValid _ _ hcoming) hleft
      (by rw [hcfg]; exact hlater)
    rw [hcfg] at hcourse
    exact ⟨u, os', hu, hcourse, hsaved⟩

/-- On an owned line a script without a drive shows low levels only, stalled or not. -/
theorem LineOwned.silentLevels {s u : State} {l : Script} {os : List Obs} (h : LineOwned s) (hr : Ran s l os u)
    (hl : Script.silent l) : lineLevels os.reverse = List.replicate os.length false := by
  rw [List.eq_replicate_iff, lineLevels, List.length_map, List.length_reverse]
  refine ⟨rfl, fun b hb => ?_⟩
  obtain ⟨o, ho, rfl⟩ := List.mem_map.mp hb
  have hmem := List.mem_reverse.mp ho
  obtain ⟨-, -, hport⟩ := (hr.silent hl).1 o hmem
  have hbit := congrArg (·.getLsbD s.pin.toNat) (hport.trans h.zero)
  rw [h.line hr o hmem]
  simpa [h.bit] using hbit

theorem sendPattern_inTime {n : WordCount} {payload rest : List HostWord} {s : State} (hlegal : s.cfg.legal = true)
    (hcalm : calm s.pinmask s.pins = true) (hhost : s.host = payload ++ rest) (hn : payload.length = n.toNat)
    (htime : inTime s.cfg payload = true) (hgo : ∀ k, k < s.cfg.cSync → goesOn s k = true) :
    ∃ m x os os', exec (.sendPattern n) s = .next x.restoreIe.finish ∧
      Ended (s.startPattern n) (driveScript .syncMask s.cfg.cSync .none) os m ∧ os.length = s.cfg.cSync ∧ Masked m.maskIe ∧
      Course m.maskIe (patternScript s.cfg (payload.map fun h => colorField h.data)) os' x := by
  obtain ⟨m, os, hmask, hended, hlong⟩ := irqMask_goesOn (s := s.startPattern n) hlegal hcalm hgo
  have hmasked := hended.patternMasked hlegal hcalm
  obtain ⟨u, os', hu, hwords, hsaved⟩ := hmasked.inTime hlong hhost hn htime
  obtain ⟨x, os'', hx, hcourse, -⟩ := hmasked.restores hwords hsaved
  refine ⟨m, x, os, os'', ?_, hended, hlong, hmasked.masked, hcourse⟩
  change (sendPattern n s).outcome = _
  rw [sendPattern_of_masked hmask, hu, andThen_on, hx]
  rfl

end Sys2Proof.Machine

section
open Sys2Proof Sys2Proof.Machine

/-- Settles O44: the loop takes the words of the payload one by one, whenever they are presented, with at least one cycle of FETCH before
the first. -/
theorem sendPatternCompletes : Obligations.SendPatternCompletes := by
  unfold Obligations.SendPatternCompletes
  intro n ws rest s hlegal hcalm hends hws hn
  obtain ⟨x, os, l, hx, hcourse, hie, hwcnt, hfcnt, hvalid, hhost, hcost, hlow⟩ :=
    sendPattern_completes ⟨hlegal, hcalm, hends⟩ hws hn
  refine ⟨x.restoreIe.finish, hx, rfl, rfl, hie, hie, hwcnt, hfcnt, hvalid,
    ⟨hcourse.conf.pin, hcourse.conf.pinmask, hcourse.conf.segcount, hcourse.conf.cfg⟩, hhost, ?_, ?_, exec_portElsewhere rfl hx⟩
  · have hleast := hcourse.least
    have hcycle : x.cycle = s.cycle + os.length := hcourse.cycle
    simp only [isEmpty_iff_count_zero hn] at hcost
    change _ ≤ x.cycle
    omega
  · by_cases hne : ws = []
    · exact .inl ((isEmpty_iff_count_zero hn).mp (List.isEmpty_iff.mpr hne))
    · exact .inr (hcourse.owned.trans (hlow hne))

/-- Settles O45: IRQMASK is exact by its premise, and from its end on IE is 0, so that every cycle advances. -/
theorem sendPatternWaveform : Obligations.SendPatternWaveform := by
  unfold Obligations.SendPatternWaveform
  intro n payload rest s hlegal hcalm hhost hn htime hgo
  obtain ⟨m, x, os, os', hx, hmask, hlong, hmasked, hcourse⟩ := sendPattern_inTime hlegal hcalm hhost hn htime hgo
  have hempty : (payload.map fun h => colorField h.data).isEmpty = true ↔ n = 0#24 :=
    isEmpty_iff_count_zero ((List.length_map _).trans hn)
  refine ⟨x.restoreIe.finish, hx, ?_, fun hline => ?_⟩
  · have hcycle : x.cycle = s.cycle + os.length + os'.length := hcourse.cycle.trans (congrArg (· + os'.length) hmask.cycle)
    have hexact := hcourse.exact hmasked.neverStalls
    rw [patternScript_length _ hlegal] at hexact
    simp only [hempty] at hexact
    change x.cycle = _
    omega
  · have hline' : LineOwned (s.startPattern n) := ⟨hline.valid, hline.mask, hline.low⟩
    have howned : LineOwned m.maskIe :=
      hline'.afterCourse hmask.course.maskIe (by rw [portAfter_driveScript, Drive.apply_none])
    have hpassed : passed s x.restoreIe.finish = os.reverse ++ os'.reverse := by
      rw [passed_of_trace (os := os' ++ os), List.reverse_append]
      rw [finish_trace, restoreIe_trace, hcourse.trace, maskIe_trace, hmask.trace, List.append_assoc]
      rfl
    have hlow := hline'.silentLevels hmask.toRan (silent_driveScript _ _)
    have hlevels := howned.courseLevels hmasked.neverStalls hcourse
    rw [hcourse.passed, portDuring_patternScript _ hlegal howned.bit] at hlevels
    simp only [hempty] at hlevels
    constructor
    · rw [hpassed, lineLevels, List.map_append, ← lineLevels, ← lineLevels, hlow, hlong, hlevels, List.append_assoc,
        List.append_assoc, List.append_assoc]
    · obtain ⟨hvalid, hmask', hbit⟩ := howned.afterCourse hcourse (portAfter_patternScript _ _)
      exact ⟨hvalid, hmask', hbit⟩

/-- Settles O47: the loop sends the words there are; then FETCH waits, at IE = 0, for one that does not come. -/
theorem missingPayloadLeavesFetch : Obligations.MissingPayloadLeavesFetch := by
  unfold Obligations.MissingPayloadLeavesFetch
  intro n ws s hlegal hcalm hends hws hn
  obtain ⟨t, os, l, ht, hcourse, hmasked, hphase, hhost, hfcnt, hwcnt, hvalid, hlow⟩ :=
    sendPattern_starves ⟨hlegal, hcalm, hends⟩ hws hn
  refine ⟨t, ht, hphase, hmasked.cmd, hmasked.ie, busy_of_not_idle (by rw [hphase]; decide), hhost, hfcnt ▸ hwcnt, hwcnt, hvalid, ?_⟩
  by_cases hne : ws = []
  · exact .inl hne
  · exact .inr (hcourse.owned.trans (hlow hne))

end
end

section
/-! 46_interrupt_sync.md R108, R110: a run that begins at IE = 0 with the stalls of the schedule taken out is the same run, cycle for
cycle. Every operation that keeps IE = 0 commutes with taking them out, and so does a row of such operations. -/

namespace Sys2Proof.Machine

/-! ### One cycle -/

section
variable (s : State)

theorem nowPins_unstalled : nowPins (unstalled s) = { nowPins s with stall := false } := by
  unfold nowPins unstalled
  cases s.pins <;> rfl

theorem secondWriter_unstalled : secondWriter (unstalled s) = secondWriter s := by
  unfold secondWriter
  rw [nowPins_unstalled]
  rfl

theorem nextPort_unstalled (a b : PortWord) : nextPort a b (unstalled s) = nextPort a b s := by
  unfold nextPort
  rw [nowPins_unstalled]
  rfl

/-- A cycle that passes takes its own stall with it. -/
theorem elapse_unstalled (o : Obs) (a b : PortWord) : (unstalled s).elapse o a b = unstalled (s.elapse o a b) := by
  unfold State.elapse
  rw [nextPort_unstalled]
  simp only [unstalled, List.map_tail]

theorem hostWriteIe_unstalled (p : PinIn) : (unstalled s).hostWriteIe { p with stall := false } = unstalled (s.hostWriteIe p) := by
  unfold State.hostWriteIe
  change (if s.phase.isIdle && p.ieWe then _ else _) = _
  split <;> rfl

theorem accept_unstalled (cw : CommandWord) : (unstalled s).accept cw = unstalled (s.accept cw) := by
  have hphase : (unstalled s).phase = s.phase := rfl
  unfold State.accept
  rw [hphase]
  split <;> rfl

theorem servePort_unstalled : (unstalled s).servePort = unstalled s.servePort := by
  have hpresented : presented (unstalled s) = presented s := rfl
  have hready : ready (unstalled s) = ready s := rfl
  unfold State.servePort
  rw [hpresented, hready]
  split
  · split
    · exact accept_unstalled { s with host := s.host.tail } _
    · rfl
  · rfl

theorem advanceCycle_unstalled (a b : PortWord) : (unstalled s).advanceCycle a b = unstalled (s.advanceCycle a b) := by
  have houtputs : outputs (ready (unstalled s)) a b (unstalled s) = outputs (ready s) a b s := rfl
  unfold State.advanceCycle
  rw [houtputs, elapse_unstalled, nowPins_unstalled, hostWriteIe_unstalled, servePort_unstalled]

theorem resetCycle_unstalled : (unstalled s).resetCycle = unstalled s.resetCycle := by
  have houtputs : resetOutputs (unstalled s) = resetOutputs s := rfl
  unfold State.resetCycle
  rw [houtputs, elapse_unstalled]
  rfl

end

/-! ### Operations -/

/-- Two runs that end in the same way, the second where the first does but for the stalls; where the first completes, `P` holds. -/
inductive Run.Unstalls (P : State → Prop) : Run → Run → Prop where
  | completed {t : State} (h : P t) : Unstalls P (.on t) (.on (unstalled t))
  | cut (t : State) : Unstalls P (.over t) (.over (unstalled t))
  | refused (r : Refusal) : Unstalls P (.refused r) (.refused r)

theorem Run.Unstalls.andThen {P P' : State → Prop} {r r' : Run} {f f' : State → Run} (h : r.Unstalls P r')
    (hf : ∀ t, P t → (f t).Unstalls P' (f' (unstalled t))) : (r.andThen f).Unstalls P' (r'.andThen f') := by
  cases h with
  | completed h => exact hf _ h
  | cut t => exact .cut t
  | refused r => exact .refused r

theorem Run.Unstalls.imp {P P' : State → Prop} {r r' : Run} (h : r.Unstalls P r') (hp : ∀ t, P t → P' t) :
    r.Unstalls P' r' := by
  cases h with
  | completed h => exact .completed (hp _ h)
  | cut t => exact .cut t
  | refused r => exact .refused r

theorem Run.Unstalls.outcome {P : State → Prop} {r r' : Run} (h : r.Unstalls P r') :
    (∀ t, r.outcome = .next t → r'.outcome = .next (unstalled t)) ∧ ∀ x, r.outcome = .refused x → r'.outcome = .refused x := by
  cases h with
  | completed h => exact ⟨fun _ ht => by cases ht; rfl, fun _ hx => nomatch hx⟩
  | cut t => exact ⟨fun _ ht => by cases ht; rfl, fun _ hx => nomatch hx⟩
  | refused r => exact ⟨fun _ ht => (nomatch ht), fun _ hx => hx⟩

/-- From IE = 0 the operation does not depend on the stalls, and where it completes IE is still 0. -/
def IgnoresStalls (op : State → Run) : Prop := ∀ s : State, s.ie = false → (op s).Unstalls (·.ie = false) (op (unstalled s))

/-- The fact the rest is built on: while IE = 0 a cycle is of the same kind with and without a stall. -/
theorem advance_unstalls {s : State} (hs : s.ie = false) (hbusy : s.phase ≠ .idle) (a b : PortWord) :
    (advance a b s).Unstalls (fun t => t.ie = false ∧ (s.phase ≠ .fetch → t.phase = s.phase)) (advance a b (unstalled s)) := by
  have hadv : advances s = true := advances_of_masked s hs
  have hadv' : advances (unstalled s) = true := advances_of_masked _ hs
  unfold advance advanceWithin tick
  rw [secondWriter_unstalled, nowPins_unstalled, resetCycle_unstalled, advanceCycle_unstalled, hadv, hadv']
  cases secondWriter s with
  | true => exact .refused _
  | false =>
    cases (nowPins s).rst with
    | true => exact .cut _
    | false =>
      exact .completed ⟨(advanceCycle_ie_busy s a b hbusy).trans hs, fun hf => (advanceCycle_position s a b hf).1⟩

theorem waitCycles_unstalls (n : Nat) {s : State} (hs : s.ie = false) (hl : s.phase.live) :
    (waitCycles n s).Unstalls (fun t => t.ie = false ∧ t.phase = s.phase) (waitCycles n (unstalled s)) := by
  induction n generalizing s with
  | zero => exact .completed ⟨hs, rfl⟩
  | succ n ih =>
    refine (advance_unstalls hs hl.1 _ _).andThen fun t ⟨ht, hp⟩ => ?_
    have hsame : t.countDly.phase = s.phase := hp hl.2
    exact (ih (s := t.countDly) ht (hsame ▸ hl)).imp fun u ⟨hu, hq⟩ => ⟨hu, hq.trans hsame⟩

theorem waitPhase_ignoresStalls {ph : Phase} (hl : ph.live) (n : Nat) : IgnoresStalls (waitPhase ph n) := by
  intro s hs
  unfold waitPhase
  split
  · exact .completed hs
  · exact (waitCycles_unstalls n (s := s.enter ph n) hs hl).imp fun _ => And.left

/-- The write at the end of a micro-operation is applied at IE = 0. -/
theorem operate_unstalls {ph : Phase} (hl : ph.live) (n : Nat) (a b : PortWord) (write : State → State) {s : State}
    (hs : s.ie = false) (hwrite : ∀ u, write (unstalled u) = unstalled (write u) := by intro; rfl) :
    (operate ph n a b write s).Unstalls (fun t => ∃ u : State, u.ie = false ∧ t = write u)
      (operate ph n a b write (unstalled s)) := by
  refine (waitCycles_unstalls (n - 1) (s := s.enter ph n) hs hl).andThen fun t ⟨ht, hp⟩ => ?_
  have hbusy : t.phase ≠ .idle := by rw [hp]; exact hl.1
  refine (advance_unstalls ht hbusy a b).andThen fun u ⟨hu, _⟩ => ?_
  change Run.Unstalls _ _ (.on (write (unstalled { u with dly := 0 })))
  rw [hwrite]
  exact .completed ⟨{ u with dly := 0 }, hu, rfl⟩

theorem drive_ignoresStalls {ph : Phase} (hl : ph.live) (n : Nat) (a b : PortWord) : IgnoresStalls (operate ph n a b id) :=
  fun _ hs => (operate_unstalls hl n a b id hs).imp fun _ ⟨_, hu, ht⟩ => ht ▸ hu

theorem driveHigh_ignoresStalls : IgnoresStalls driveHigh :=
  fun s => drive_ignoresStalls (live_of_isBit rfl) s.cfg.cDrive s.pinmask 0#256 s

theorem driveLow_ignoresStalls {ph : Phase} (hl : ph.live) : IgnoresStalls (driveLow ph) :=
  fun s => drive_ignoresStalls hl s.cfg.cDrive 0#256 s.pinmask s

/-- A HOLD whose duration the configuration gives. -/
theorem holdFor_ignoresStalls {ph : Phase} (hl : ph.live) (n : Params → Nat) : IgnoresStalls fun s => hold ph (n s.cfg) s :=
  fun s => waitPhase_ignoresStalls hl (n s.cfg) s

theorem encodeBit_ignoresStalls (v : Bool) : IgnoresStalls fun s => if v then encodeBit1 s else encodeBit0 s := by
  rw [funext (encodeBit_eq v)]
  exact fun s hs => (driveHigh_ignoresStalls s hs).andThen fun t ht =>
    (holdFor_ignoresStalls (live_of_isBit rfl) (·.high v) t ht).andThen fun u hu =>
      (driveLow_ignoresStalls (live_of_isBit rfl) u hu).andThen fun x hx =>
        holdFor_ignoresStalls (live_of_isBit rfl) (·.low v) x hx

theorem transmitBits_ignoresStalls (k : Nat) : IgnoresStalls (transmitBits k) := by
  induction k with
  | zero => exact fun _ hs => .completed hs
  | succ k ih =>
    exact fun s hs => (encodeBit_ignoresStalls s.bitValue s hs).andThen fun t ht =>
      (holdFor_ignoresStalls (live_of_isBit rfl) (·.gBit) t.shiftMask ht).andThen ih

theorem transmit_ignoresStalls (w : ColorWord) : IgnoresStalls (transmit w) :=
  fun s hs => transmitBits_ignoresStalls 24 (s.loadWord w) hs

theorem resetSignal_ignoresStalls : IgnoresStalls resetSignal :=
  fun s hs => (driveLow_ignoresStalls (by simp [Phase.live]) s hs).andThen
    (holdFor_ignoresStalls (by simp [Phase.live]) Params.tRst)

theorem irqMask_ignoresStalls : IgnoresStalls irqMask :=
  fun s hs => (operate_unstalls (by simp [Phase.live]) s.cfg.cSync 0#256 0#256 State.maskIe hs).imp fun _ ⟨_, _, ht⟩ => ht ▸ rfl

/-! ### Commands

From IRQRESTORE on IE may be 1 again, but no cycle follows. -/

/-- The run does not depend on the stalls. -/
def SameUnstalled (op : State → Run) (s : State) : Prop := (op s).Unstalls (fun _ => True) (op (unstalled s))

theorem IgnoresStalls.same {op : State → Run} (h : IgnoresStalls op) {s : State} (hs : s.ie = false) : SameUnstalled op s :=
  (h s hs).imp fun _ _ => trivial

theorem irqRestore_same {s : State} (hs : s.ie = false) : SameUnstalled irqRestore s :=
  (operate_unstalls (by simp [Phase.live]) s.cfg.cSync 0#256 0#256 State.restoreIe hs).imp fun _ _ => trivial

theorem maskedIf_same (masked : Bool) {body : State → Run} (hbody : IgnoresStalls body) {s : State} (hs : s.ie = false) :
    SameUnstalled (maskedIf masked body) s := by
  unfold SameUnstalled maskedIf
  split
  · exact (irqMask_ignoresStalls s hs).andThen fun t ht => (hbody t ht).andThen fun _ => irqRestore_same
  · exact hbody.same hs

/-- The end of a command comes after its last cycle. -/
theorem SameUnstalled.thenComplete {op : State → Run} {s : State} (h : SameUnstalled op s) :
    ((op s).andThen complete).Unstalls (fun _ => True) ((op (unstalled s)).andThen complete) :=
  h.andThen fun t _ => .completed (t := t.finish) trivial

theorem clearWords_ignoresStalls (n : Nat) : IgnoresStalls (clearWords n) := by
  induction n with
  | zero => exact fun _ hs => .completed hs
  | succ n ih => exact fun s hs => (transmit_ignoresStalls 0#24 s hs).andThen fun t ht => ih t.countWord ht

theorem fetchWithin_unstalls (fuel : Nat) {s : State} (hs : s.ie = false) (hf : s.phase = .fetch) :
    (fetchWithin fuel s).Unstalls (·.ie = false) (fetchWithin fuel (unstalled s)) := by
  induction fuel generalizing s with
  | zero => exact .cut s
  | succ fuel ih =>
    have hbusy : s.phase ≠ .idle := by rw [hf]; decide
    refine (advance_unstalls hs hbusy _ _).andThen fun t ⟨ht, _⟩ => ?_
    have hphase : (unstalled t).phase = t.phase := rfl
    rw [hphase]
    split
    · next h => exact ih ht (beq_iff_eq.mp h)
    · exact .completed ht

theorem fetchBound_unstalled (s : State) : fetchBound (unstalled s) = fetchBound s := by
  have hhost : (unstalled s).host = s.host := rfl
  unfold fetchBound
  rw [hhost]
  split
  · exact List.length_map _
  · rfl

theorem nextPayload_ignoresStalls : IgnoresStalls nextPayload := by
  intro s hs
  have hvalid : (unstalled s).nextValid = s.nextValid := rfl
  unfold nextPayload
  rw [hvalid, fetchBound_unstalled]
  split
  · exact .completed (t := s.takeNext) hs
  · exact fetchWithin_unstalls _ (s := s.enter .fetch 0) hs rfl

theorem patternWords_ignoresStalls (n : Nat) : IgnoresStalls (patternWords n) := by
  induction n with
  | zero => exact fun _ hs => .completed hs
  | succ n ih =>
    exact fun s hs => (nextPayload_ignoresStalls s hs).andThen fun t ht =>
      (transmit_ignoresStalls t.word t ht).andThen fun u hu => ih u.countWord hu

section
variable {s : State} (hs : s.ie = false)
include hs

theorem construct_same (p : PinIndex) (g : SegCount) : SameUnstalled (construct p g) s :=
  (operate_unstalls (ph := .cfg) (by simp [Phase.live]) s.cfg.cCfg 0#256 0#256 (State.configure p g)
    (s := s.begin .construct (packConstruct p g)) hs).andThen fun _ ⟨_, hu, ht⟩ =>
      (resetSignal_ignoresStalls.same (ht ▸ hu)).thenComplete

theorem clear_same : SameUnstalled clear s :=
  (resetSignal_ignoresStalls (s.begin .clear 0#24).loadSegments hs).andThen fun t ht =>
    (maskedIf_same (uniform t) (clearWords_ignoresStalls s.segcount.toNat) ht).thenComplete

theorem send_same (w : ColorWord) : SameUnstalled (send w) s :=
  (maskedIf_same (uniform s) (transmit_ignoresStalls w) (s := s.begin .send w) hs).thenComplete

theorem sendPattern_same (n : WordCount) : SameUnstalled (sendPattern n) s :=
  (maskedIf_same true (patternWords_ignoresStalls n.toNat) (s := (s.begin .sendPattern 0#24).loadCounts n) hs).thenComplete

/-- Every instruction is a run of that kind. -/
theorem exec_same (i : Instr) : ∃ op : State → Run, (∀ u, exec i u = (op u).outcome) ∧ SameUnstalled op s := by
  cases i with
  | construct p g => exact ⟨_, fun _ => rfl, construct_same hs p g⟩
  | clear => exact ⟨_, fun _ => rfl, clear_same hs⟩
  | send w => exact ⟨_, fun _ => rfl, send_same hs w⟩
  | sendPattern n => exact ⟨_, fun _ => rfl, sendPattern_same hs n⟩
  | reserved op => exact ⟨.on, fun _ => rfl, .completed trivial⟩
  | pinSel p => exact ⟨fun u => .on (u.selectPin p), fun _ => rfl, .completed (t := s.selectPin p) trivial⟩
  | driveHigh => exact ⟨_, fun _ => rfl, driveHigh_ignoresStalls.same hs⟩
  | driveLow => exact ⟨_, fun _ => rfl, (driveLow_ignoresStalls (live_of_isBit rfl)).same hs⟩
  | hold n =>
    exact ⟨fun u => hold u.phase.holdAfter n u, fun _ => rfl,
      (waitPhase_ignoresStalls (live_holdAfter s.phase) n).same hs⟩
  | encodeBit1 => exact ⟨_, fun _ => rfl, (encodeBit_ignoresStalls true).same hs⟩
  | encodeBit0 => exact ⟨_, fun _ => rfl, (encodeBit_ignoresStalls false).same hs⟩
  | transmit w => exact ⟨_, fun _ => rfl, (transmit_ignoresStalls w).same hs⟩
  | reset => exact ⟨_, fun _ => rfl, resetSignal_ignoresStalls.same hs⟩
  | irqMask => exact ⟨_, fun _ => rfl, irqMask_ignoresStalls.same hs⟩
  | irqRestore => exact ⟨_, fun _ => rfl, irqRestore_same hs⟩

end

end Sys2Proof.Machine

section
open Sys2Proof.Machine

/-- Settles O37: while IE = 0 no cycle asks for the stall, and IE can become 1 at the end of IRQRESTORE only, after which the instruction
has no cycle left. -/
theorem maskedRunIgnoresStalls : Obligations.MaskedRunIgnoresStalls := by
  unfold Obligations.MaskedRunIgnoresStalls
  intro i s hs
  obtain ⟨op, hexec, hsame⟩ := exec_same hs i
  rw [hexec, hexec]
  exact hsame.outcome

end
end

section
/-! IRQMASK and IRQRESTORE on a calm schedule (46_interrupt_sync.md R103, R104), and the cycle that does not advance (R108). -/

namespace Sys2Proof.Machine

/-- What IRQMASK and IRQRESTORE leave as it was: all but IE, IE_SAVED, PHASE and DLY. -/
def SyncFrame (s t : State) : Prop :=
  SameConfiguration s t ∧ SamePrefetch s t ∧ t.wcnt = s.wcnt ∧ t.cmd = s.cmd ∧ t.latch = s.latch ∧ t.word = s.word ∧
    t.bitmask = s.bitmask ∧ PortElsewhere 0#256 s t

section
variable {s u : State} {ph : Phase} {os : List Obs}

/-- Nothing is driven and no word is wanted in the cycles of a synchronizing phase, whatever is written to IE at their end. -/
theorem Ended.syncFrame (h : Ended s (driveScript ph s.cfg.cSync .none) os u) (hk : KeptWord s u) (hph : ph.isBit = false)
    (ie ieSaved : Bool) : SyncFrame s { u with ie := ie, ieSaved := ieSaved } := by
  obtain ⟨hhost, hfeed⟩ := h.host (portClosed_driveScript s hph _ _)
  exact ⟨⟨hk.pin, hk.pinmask, hk.segcount, hk.cfg⟩, ⟨hfeed.fcnt, hfeed.nextWord, hfeed.nextValid, _, hhost⟩, hk.wcnt, hk.cmd,
    hk.latch, hk.word, hk.bitmask, fun j _ hj => ((h.silent (silent_driveScript ph _)).2 j hj).1⟩

theorem Ended.syncSpans (h : Ended s (driveScript ph s.cfg.cSync .none) os u) (hlegal : s.cfg.legal = true) :
    Spans s s.cfg.cSync os.length := by
  have hspans := h.spans
  rwa [driveScript_length, Nat.sub_add_cancel (legal_cSync hlegal)] at hspans

theorem Ended.syncTook (h : Ended s (driveScript ph s.cfg.cSync .none) os u) (hlegal : s.cfg.legal = true) :
    Took s.cfg.cSync s u := ⟨_, h.syncSpans hlegal, h.cycle, h.pins⟩

theorem Ran.shows_ie {l : Script} (h : Ran s l os u) : ∀ o ∈ Sys2Proof.Machine.passed s u, o.ieOut = s.ie := by
  rw [h.passed]
  exact fun o ho => (h.busy o (List.mem_reverse.mp ho)).2.1

end

end Sys2Proof.Machine

section
open Sys2Proof.Machine

/-- Settles O35: the cycles of IRQMASK show the old IE, and its writes come at the end of the last. -/
theorem irqMaskSavesAndClears : Obligations.IrqMaskSavesAndClears := by
  unfold Obligations.IrqMaskSavesAndClears
  intro s hlegal hcalm hends
  obtain ⟨_, ht, u, rfl, ⟨os, hended⟩, hkept⟩ := (irqMask_does s).of_calm hcalm hends
  exact ⟨u.maskIe, congrArg Run.outcome ht, hended.ie, rfl, hended.syncTook hlegal, hended.shows_ie,
    hended.syncFrame hkept rfl _ _⟩

/-- Settles O36: the cycles of IRQRESTORE, stalled or not, leave IE_SAVED alone, and its write comes at the end of the last. -/
theorem irqRestorePutsBack : Obligations.IrqRestorePutsBack := by
  unfold Obligations.IrqRestorePutsBack
  intro s hlegal hcalm hends
  obtain ⟨_, ht, u, rfl, ⟨os, hended⟩, hkept⟩ := (irqRestore_does s).of_calm hcalm hends
  exact ⟨u.restoreIe, congrArg Run.outcome ht, hkept.ieSaved, hkept.ieSaved, hended.syncTook hlegal, hended.shows_ie,
    hended.syncFrame hkept rfl _ _⟩

/-- Settles O16: a stalled cycle accepts no header, so that the step is that clock cycle, which is a stalled one. -/
theorem stalledCycleFreezesTheBlock : Obligations.StalledCycleFreezesTheBlock := by
  unfold Obligations.StalledCycleFreezesTheBlock
  refine ⟨fun s hie hstall hwriter hrst => ?_, fun s => ?_, advances_of_masked⟩
  · have hadv : advances s = false := by simp [advances, hie, hstall]
    have hnone : acceptedHeader s = none := by simp [acceptedHeader, hadv]
    have hclock : clock s = .next s.stallCycle := by simp [clock, tick, hwriter, hrst, hadv]
    rw [step_of_no_header hnone, hclock]
    rfl
  · rw [advances, Bool.not_eq_true', ← Bool.not_eq_true, Bool.and_eq_true]

end
end

section
/-! Inside a masked section (46_interrupt_sync.md R102, R105): from the end of IRQMASK to the end of IRQRESTORE every cycle shows
`ie_out` = 0. SENDPATTERN has one whatever the policy, however its payload comes and whatever others do to PORT. -/

namespace Sys2Proof.Machine

/-- IE has been 0 in every cycle since `m`, IE_SAVED is what it was there, and no hardware reset is to come. -/
structure MaskedSince (m u : State) : Prop where
  ie : u.ie = false
  ieSaved : u.ieSaved = m.ieSaved
  noReset : noReset u.pins = true
  seen : ∃ os, u.trace = os ++ m.trace ∧ ∀ o ∈ os, o.ieOut = false

section
variable {m u v : State}

theorem MaskedSince.refl (hie : m.ie = false) (hn : Sys2Proof.Machine.noReset m.pins = true) : MaskedSince m m :=
  ⟨hie, rfl, hn, [], rfl, by simp⟩

theorem MaskedSince.move (h : MaskedSince m u) (hie : v.ie = u.ie := by rfl) (hsaved : v.ieSaved = u.ieSaved := by rfl)
    (hpins : v.pins = u.pins := by rfl) (htrace : v.trace = u.trace := by rfl) : MaskedSince m v :=
  ⟨hie.trans h.ie, hsaved.trans h.ieSaved, hpins ▸ h.noReset, htrace ▸ h.seen⟩

theorem MaskedSince.advanceCycle (h : MaskedSince m u) (hbusy : u.phase ≠ .idle) (a b : PortWord) :
    MaskedSince m (u.advanceCycle a b) where
  ie := (advanceCycle_ie_busy u a b hbusy).trans h.ie
  ieSaved := (advanceCycle_ieSaved u a b).trans h.ieSaved
  noReset := by rw [advanceCycle_pins]; exact noReset_tail h.noReset
  seen := by
    obtain ⟨os, hos, hall⟩ := h.seen
    exact ⟨_ :: os, by rw [advanceCycle_trace, hos]; rfl, List.forall_mem_cons.mpr ⟨h.ie, hall⟩⟩

/-! Nothing but the cycle that advances can come while IE = 0 and no hardware reset does. -/

theorem MaskedSince.not_stalled (h : MaskedSince m u) (ha : advances u = false) : False := by
  rw [advances_of_masked u h.ie] at ha; cases ha

theorem MaskedSince.not_hung (h : MaskedSince m u) (hh : hung u = true) : False := by
  rw [hung, h.ie] at hh; cases hh

theorem MaskedSince.not_reset (h : MaskedSince m u) (hr : (nowPins u).rst = true) : False := by
  rw [rst_of_noReset h.noReset] at hr; cases hr

/-- It holds where the run completes, and where it waits for ever, which is not in IDLE. -/
def Run.StaysMasked (m : State) (r : Run) : Prop :=
  r.Sat (MaskedSince m) (fun t => MaskedSince m t ∧ t.phase ≠ .idle) True

theorem maskedStable (m : State) :
    Stable Phase.live (fun _ => MaskedSince m) (fun _ => MaskedSince m) (fun t => MaskedSince m t ∧ t.phase ≠ .idle) True where
  live := fun _ h => h
  weak := fun _ _ h => h
  adv := fun _ _ _ h hl _ _ _ => h.advanceCycle hl.1 _ _
  stall := fun _ _ h _ _ _ ha => (h.not_stalled ha).elim
  hung := fun _ _ h _ hh => (h.not_hung hh).elim
  reset := fun _ _ h _ _ hr => (h.not_reset hr).elim
  refuse := fun _ _ _ _ _ => trivial
  enter := fun _ _ _ _ _ h => h.move
  dly := fun _ _ _ h => h.move

theorem transmit_staysMasked (w : ColorWord) (h : MaskedSince m u) : (transmit w u).StaysMasked m :=
  ((maskedStable m).transmit w (l := []) (fun _ => live_of_isBit) (fun _ _ k => k.move) h.move).imp fun _ k => k.1

theorem clearWords_staysMasked (n : Nat) (h : MaskedSince m u) : (clearWords n u).StaysMasked m := by
  induction n generalizing u with
  | zero => exact h
  | succ n ih => exact (transmit_staysMasked _ h).andThen fun _ ht => ih ht.move

theorem fetchCycle_staysMasked (h : MaskedSince m u) (hf : u.phase = .fetch) : (advance 0#256 0#256 u).StaysMasked m := by
  have hbusy : u.phase ≠ .idle := by rw [hf]; decide
  exact advance_sat (I := fun v => MaskedSince m v ∧ v.phase ≠ .idle) ⟨h, hbusy⟩ (fun _ _ _ => trivial)
    (fun _ k _ hr => (k.1.not_reset hr).elim) (fun _ k _ _ ha => (k.1.not_stalled ha).elim) (fun _ k _ => k)
    fun _ k _ _ _ => k.1.advanceCycle k.2 _ _

theorem fetchWithin_staysMasked (fuel : Nat) (h : MaskedSince m u) (hf : u.phase = .fetch) :
    (fetchWithin fuel u).StaysMasked m := by
  induction fuel generalizing u with
  | zero => exact ⟨h, by rw [hf]; decide⟩
  | succ fuel ih =>
    refine (fetchCycle_staysMasked h hf).andThen fun t ht => ?_
    split
    · next hp => exact ih ht (beq_iff_eq.mp hp)
    · exact ht

theorem nextPayload_staysMasked (h : MaskedSince m u) : (nextPayload u).StaysMasked m := by
  unfold nextPayload
  split
  · exact h.move (v := u.takeNext)
  · exact fetchWithin_staysMasked _ h.move rfl

theorem patternWords_staysMasked (n : Nat) (h : MaskedSince m u) : (patternWords n u).StaysMasked m := by
  induction n generalizing u with
  | zero => exact h
  | succ n ih =>
    exact (nextPayload_staysMasked h).andThen fun _ ht => (transmit_staysMasked _ ht).andThen fun _ hv => ih hv.move

/-- IRQRESTORE's own cycles are masked too: IE is put back at the end of the last. -/
theorem irqRestore_staysMasked (h : MaskedSince m u) :
    (irqRestore u).Sat (fun t => ∃ v, t = v.restoreIe ∧ MaskedSince m v) (fun t => MaskedSince m t ∧ t.phase ≠ .idle) True :=
  ((maskedStable m).irqRestore (l := []) h (by simp [Phase.live])).imp fun _ ⟨v, ht, hv, _⟩ => ⟨v, ht, hv⟩

end

/-! ### SENDPATTERN -/

/-- Without a hardware reset and an endless stall no operation is cut short. -/
theorem Run.Sat.uncut {s : State} {P Q : State → Prop} {X : Prop} {r : Run} (h : r.Sat P (CutShort s) X)
    (hn : noReset s.pins = true) (he : stallsEnd s = true) : r.Sat P Q True := by
  refine h.mono (fun _ hp => hp) (fun t hcut => ?_) fun _ => trivial
  rcases hcut with ⟨hr, -⟩ | ⟨-, hs, -⟩
  · rw [hn] at hr; cases hr
  · rw [he] at hs; cases hs

/-- IRQMASK has run from `b`, and IE has been 0 since. -/
def MaskedFrom (b v : State) : Prop :=
  ∃ u os, Ended b (driveScript .syncMask b.cfg.cSync .none) os u ∧ MaskedSince u.maskIe v

section
variable {b v : State}

theorem MaskedFrom.ie (h : MaskedFrom b v) : v.ie = false := by
  obtain ⟨_, _, -, hsince⟩ := h
  exact hsince.ie

theorem MaskedFrom.ieSaved (h : MaskedFrom b v) : v.ieSaved = b.ie := by
  obtain ⟨_, _, hended, hsince⟩ := h
  exact hsince.ieSaved.trans hended.ie

theorem MaskedFrom.passed (h : MaskedFrom b v) (hlegal : b.cfg.legal = true) :
    ∃ before inside, Sys2Proof.Machine.passed b v = before ++ inside ∧ Spans b b.cfg.cSync before.length ∧
      (∀ o ∈ before, o.ieOut = b.ie ∧ o.portSet = 0#256 ∧ o.portClr = 0#256) ∧ ∀ o ∈ inside, o.ieOut = false := by
  obtain ⟨u, os, hended, hsince⟩ := h
  obtain ⟨os', htrace, hall⟩ := hsince.seen
  rw [maskIe_trace, hended.trace, ← List.append_assoc] at htrace
  refine ⟨os.reverse, os'.reverse, by rw [passed_of_trace htrace, List.reverse_append], ?_, fun o ho => ?_, fun o ho => ?_⟩
  · rw [List.length_reverse]; exact hended.syncSpans hlegal
  · have hmem := List.mem_reverse.mp ho
    obtain ⟨hset, hclr, -⟩ := (hended.silent (silent_driveScript _ _)).1 o hmem
    exact ⟨(hended.busy o hmem).2.1, hset, hclr⟩
  · exact hall o (List.mem_reverse.mp ho)

end

/-- SENDPATTERN ends with IRQRESTORE, or waits in its masked section for a payload word. -/
theorem sendPattern_masks (n : WordCount) {s : State} (hn : noReset s.pins = true) (he : stallsEnd s = true) :
    (sendPattern n s).Sat (fun t => ∃ v, t = v.restoreIe.finish ∧ MaskedFrom (s.startPattern n) v)
      (fun t => MaskedFrom (s.startPattern n) t ∧ t.phase ≠ .idle) True := by
  have hwords : (maskedIf true (patternWords n.toNat) (s.startPattern n)).Sat
      (fun t => ∃ v, t = v.restoreIe ∧ MaskedFrom (s.startPattern n) v)
      (fun t => MaskedFrom (s.startPattern n) t ∧ t.phase ≠ .idle) True := by
    refine ((irqMask_does (s.startPattern n)).uncut hn he).andThen ?_
    rintro _ ⟨u, rfl, ⟨os, hended⟩, -⟩
    have hstart : MaskedSince u.maskIe u.maskIe := .refl rfl (by
      rw [maskIe_pins, hended.pins]; exact noReset_drop _ hn)
    have hsection := (patternWords_staysMasked n.toNat hstart).andThen fun _ => irqRestore_staysMasked
    exact hsection.mono (fun _ ⟨v, ht, hv⟩ => ⟨v, ht, u, os, hended, hv⟩) (fun _ ⟨hv, hp⟩ => ⟨⟨u, os, hended, hv⟩, hp⟩) id
  exact hwords.andThen fun _ ⟨v, ht, hv⟩ => ⟨v, congrArg State.finish ht, hv⟩

end Sys2Proof.Machine

section
open Sys2Proof.Machine

/-- Settles O46: the cycles of IRQMASK show the old IE and pulse nothing, and those of its masked section show 0, whether IRQRESTORE ends
it or a missing payload word holds it. -/
theorem sendPatternMasksInterrupts : Obligations.SendPatternMasksInterrupts := by
  unfold Obligations.SendPatternMasksInterrupts
  intro n s t hlegal hn hends ht
  rcases (sendPattern_masks n hn hends).of_outcome ht with ⟨v, rfl, hmasked⟩ | ⟨hmasked, hbusy⟩
  · exact ⟨hmasked.passed hlegal, fun _ => hmasked.ieSaved, fun hbusy => absurd rfl hbusy⟩
  · exact ⟨hmasked.passed hlegal, fun hidle => absurd hidle hbusy, fun _ => hmasked.ie⟩

end
end

section
/-! CLEAR and SEND under UNIFORM, whatever the stalls (46_interrupt_sync.md R106, R110, 45_strip_controller.md R92, R93): up to the end of
IRQMASK nothing is set, so that a low line stays low however long it takes; from there on IE = 0 and the course of the cycles is exact. -/

namespace Sys2Proof.Machine

/-! ### Up to the end of IRQMASK -/

/-- A script that sets nothing. -/
def Script.unraised (l : Script) : Prop := ∀ x ∈ l, x.2 ≠ .high

theorem Drive.set_of_ne_high {d : Drive} (h : d ≠ .high) (m : PortWord) : d.set m = 0#256 := by
  cases d with
  | high => exact absurd rfl h
  | none => rfl
  | low => rfl

theorem unraised_driveScript (ph : Phase) (n : Nat) {d : Drive} (h : d ≠ .high) : Script.unraised (driveScript ph n d) := by
  intro x hx
  rcases List.mem_append.mp hx with hx | hx
  · rw [silent_waitScript ph (n - 1) x hx]; decide
  · rw [List.mem_singleton.mp hx]; exact h

theorem unraised_append {a b : Script} : Script.unraised (a ++ b) ↔ Script.unraised a ∧ Script.unraised b :=
  List.forall_mem_append

theorem unraised_resetScript (c : Params) : Script.unraised (resetScript c) :=
  unraised_append.mpr ⟨unraised_driveScript _ _ (by decide), fun x hx => by rw [silent_waitScript _ _ x hx]; decide⟩

/-- A low bit stays low. -/
theorem portAfter_unraised (m : PortWord) {l : Script} (h : Script.unraised l) : portAfter m 0#256 l = 0#256 := by
  induction l with
  | nil => rfl
  | cons x l ih =>
    obtain ⟨hx, hl⟩ := List.forall_mem_cons.mp h
    have hstep : x.2.apply m 0#256 = 0#256 := by rw [Drive.apply, Drive.set_of_ne_high hx, BitVec.or_zero, BitVec.zero_and]
    change portAfter m (x.2.apply m 0#256) l = 0#256
    rw [hstep]
    exact ih hl

/-- Since `s` nothing has been set, and a selected bit that was low in `s` has been low. -/
def LowSince (s u : State) : Prop :=
  ∃ os, u.trace = os ++ s.trace ∧ ∀ o ∈ os, o.portSet = 0#256 ∧ (s.port &&& s.pinmask = 0#256 → o.port &&& s.pinmask = 0#256)

theorem LowSince.cycle {s u v : State} {l : Script} {os : List Obs} {o : Obs} (h : LowSince s u) (hr : Ran s l os u)
    (hl : Script.unraised l) (htrace : v.trace = o :: u.trace) (hset : o.portSet = 0#256) (hport : o.port = u.port) :
    LowSince s v := by
  obtain ⟨os, hos, hall⟩ := h
  refine ⟨o :: os, by rw [htrace, hos]; rfl, List.forall_mem_cons.mpr ⟨⟨hset, fun hlow => ?_⟩, hall⟩⟩
  rw [hport, hr.owned, hlow, portAfter_unraised _ hl]

/-- A micro-operation's script, its cycles seen to leave a low line low if it sets nothing. -/
theorem lowStable (s : State) :
    Stable Phase.live (fun l u => (∃ os, Ended s l os u) ∧ (Script.unraised l → LowSince s u))
      (fun l u => (∃ os, Ran s l os u) ∧ (Script.unraised l → LowSince s u)) (CutShort s) (calm s.pinmask s.pins = false) where
  live := fun _ h => h
  weak := fun l u h => ⟨(ranStable s).weak l u h.1, h.2⟩
  adv := by
    rintro l u d ⟨hran, hlow⟩ hl hw hr ha
    refine ⟨(ranStable s).adv l u d hran hl hw hr ha, fun hun => ?_⟩
    obtain ⟨hun, hd⟩ := unraised_append.mp hun
    obtain ⟨os, hran⟩ := hran
    exact (hlow hun).cycle hran hun (advanceCycle_trace u _ _) (Drive.set_of_ne_high (hd _ (List.mem_singleton.mpr rfl)) _) rfl
  stall := by
    rintro l u ⟨hran, hlow⟩ hl hw hr ha
    refine ⟨(ranStable s).stall l u hran hl hw hr ha, fun hun => ?_⟩
    obtain ⟨os, hran⟩ := hran
    exact (hlow hun).cycle hran hun (stallCycle_trace u) rfl rfl
  hung := fun l u h => (ranStable s).hung l u h.1
  reset := fun l u h => (ranStable s).reset l u h.1
  refuse := fun l u h => (ranStable s).refuse l u h.1
  enter := fun l u ph n hl h => ⟨(ranStable s).enter l u ph n hl h.1, h.2⟩
  dly := fun l u n h => ⟨(ranStable s).dly l u n h.1, h.2⟩

/-- From `s` to `u` the cycles of the script `l` have advanced, and a low line has been low. -/
structure Approached (s : State) (l : Script) (os : List Obs) (u : State) : Prop where
  ended : Ended s l os u
  unraised : Script.unraised l
  low : ∀ o ∈ os, o.portSet = 0#256 ∧ (s.port &&& s.pinmask = 0#256 → o.port &&& s.pinmask = 0#256)

section
variable {s u : State} {l : Script} {os : List Obs}

theorem approached_of_low (h : (∃ os, Ended s l os u) ∧ (Script.unraised l → LowSince s u)) (hl : Script.unraised l) :
    ∃ os, Approached s l os u := by
  obtain ⟨⟨os, hended⟩, hlow⟩ := h
  obtain ⟨os', htrace, hall⟩ := hlow hl
  obtain rfl : os = os' := List.append_cancel_right (hended.trace.symm.trans htrace)
  exact ⟨os, hended, hl, hall⟩

theorem Approached.line (h : Approached s l os u) (hline : LineOwned s) : ∀ o ∈ os, o.line = some false := by
  intro o ho
  have hbit := congrArg (·.getLsbD s.pin.toNat) ((h.low o ho).2 hline.zero)
  rw [hline.line h.ended.toRan o ho]
  simpa [hline.bit] using hbit

end

/-! ### The words and IRQRESTORE -/

/-- Where IRQMASK has ended the approach, what is left of the section is exact. -/
theorem Approached.sendsMasked {s u v : State} {l : Script} {os os' : List Obs} {ws : List ColorWord} (hs : Undisturbed s)
    (h : Approached s l os u) (hwords : Course u.maskIe (wordsScript s.cfg ws) os' v) (hsince : MaskedSince u.maskIe v) :
    ∃ x : State, irqRestore v = .on x.restoreIe ∧ SendsMasked s x.restoreIe.finish l.length ws := by
  have hdrive := legal_cDrive hs.legal
  have hsync := legal_cSync hs.legal
  have hmask : Course s l os u.maskIe := h.ended.course.maskIe
  obtain ⟨x, os'', hx, hrestore⟩ := irqRestore_completes (hwords.undisturbed (hmask.undisturbed hs))
  have hcfg : v.cfg = s.cfg := hwords.conf.cfg.trans hmask.conf.cfg
  rw [hcfg] at hrestore
  have hinside := hwords.trans hrestore.course
  have hnever : neverStalls u.maskIe = true := rfl
  have hpassed : passed s x.restoreIe.finish = os.reverse ++ (os'' ++ os').reverse := by
    have htrace : x.trace = (os'' ++ os') ++ os ++ s.trace := by
      rw [hinside.trace, hmask.trace, List.append_assoc, List.append_assoc, List.append_assoc]
    rw [← List.reverse_append]
    exact passed_of_trace htrace
  refine ⟨x, hx, os.reverse, (os'' ++ os').reverse, hpassed, ?_, fun o ho => ?_, ?_, fun o ho => ?_, fun hline => ?_⟩
  · rw [List.length_reverse]; exact h.ended.spans
  · have hmem := List.mem_reverse.mp ho
    exact ⟨(h.ended.busy o hmem).2.1, (h.low o hmem).1⟩
  · rw [List.length_reverse, hinside.exact hnever, List.length_append, wordsScript_length hdrive, driveScript_length,
      Nat.sub_add_cancel hsync]
  · rcases List.mem_append.mp (List.mem_reverse.mp ho) with ho | ho
    · exact ((hrestore.busy o ho).2.1).trans hsince.ie
    · obtain ⟨seen, htrace, hall⟩ := hsince.seen
      obtain rfl : os' = seen := List.append_cancel_right (hwords.trace.symm.trans htrace)
      exact hall o ho
  · have howned : LineOwned u.maskIe := hline.afterCourse hmask (portAfter_unraised _ h.unraised)
    have hlow : portAfter u.maskIe.pinmask 0#256 (wordsScript s.cfg ws) = 0#256 :=
      portAfter_wordsScript ws BitVec.zero_and fun _ => rfl
    refine ⟨fun o ho => h.line hline o (List.mem_reverse.mp ho), ?_, ?_⟩
    · have hlevels := howned.courseLevels hnever hinside
      rw [hinside.passed, portDuring_append, hlow, portDuring_driveScript _ _ _ _ _ hsync, List.map_append,
        portDuring_wordsScript hdrive ws howned.bit, List.map_replicate, BitVec.getLsbD_zero] at hlevels
      exact hlevels
    · obtain ⟨hvalid, hmask', hbit⟩ := howned.afterCourse hinside (by
        rw [portAfter_append, hlow, portAfter_driveScript, Drive.apply_none])
      exact ⟨hvalid, hmask', hbit⟩

/-- What CMD, the latch and WCNT are at the start is not seen. -/
theorem SendsMasked.of_begin {s t : State} {c : Cmd} {a : BitVec 24} {k : WordCount} {n : Nat} {ws : List ColorWord}
    (h : SendsMasked { s with cmd := c, latch := a, wcnt := k } t n ws) : SendsMasked s t n ws := by
  obtain ⟨before, inside, hpassed, hspans, hbefore, hlength, hinside, hline⟩ := h
  exact ⟨before, inside, hpassed, hspans, hbefore, hlength, hinside, fun h => hline ⟨h.valid, h.mask, h.low⟩⟩

/-! ### The commands -/

theorem low_refl (s : State) : (∃ os, Ended s [] os s) ∧ (Script.unraised [] → LowSince s s) :=
  ⟨⟨[], .refl s⟩, fun _ => ⟨[], rfl, by simp⟩⟩

section
variable {s : State} (hs : Undisturbed s)
include hs

/-- IRQMASK after a script that sets nothing. -/
theorem irqMask_approaches {t : State} {l : Script} (hl : Script.unraised l)
    (ht : (∃ os, Ended s l os t) ∧ (Script.unraised l → LowSince s t)) :
    ∃ u os, irqMask t = .on u.maskIe ∧ Approached s (l ++ driveScript .syncMask s.cfg.cSync .none) os u := by
  obtain ⟨_, hu, u, rfl, hend, -⟩ := ((lowStable s).irqMask ht (by simp [Phase.live])).of_calm hs.calm hs.ends
  obtain ⟨⟨_, hended⟩, -⟩ := ht
  rw [hended.kept.cfg] at hend
  obtain ⟨os, happroached⟩ := approached_of_low hend (unraised_append.mpr ⟨hl, unraised_driveScript _ _ (by decide)⟩)
  exact ⟨u, os, hu, happroached⟩

/-- A masked section after a script that sets nothing, around a body that sends the words `ws`. -/
theorem maskedSection_sends {t : State} {l : Script} {ws : List ColorWord} {body : State → Run} (hl : Script.unraised l)
    (ht : (∃ os, Ended s l os t) ∧ (Script.unraised l → LowSince s t))
    (hbody : ∀ u, Undisturbed u → u.cfg = s.cfg → ∃ v os, body u = .on v ∧ Course u (wordsScript s.cfg ws) os v)
    (hmasked : ∀ u, MaskedSince u u → (body u).StaysMasked u) :
    ∃ x : State, maskedIf true body t = .on x.restoreIe ∧ SendsMasked s x.restoreIe.finish (l.length + s.cfg.cSync) ws := by
  obtain ⟨u, os, hu, happroached⟩ := irqMask_approaches hs hl ht
  have hmask : Course s _ os u.maskIe := happroached.ended.course.maskIe
  have hcalm := hmask.undisturbed hs
  obtain ⟨v, os', hv, hwords⟩ := hbody u.maskIe hcalm hmask.conf.cfg
  have hsince : MaskedSince u.maskIe v := by
    have hstays := hmasked u.maskIe (.refl rfl (noReset_of_calm hcalm.calm))
    rwa [hv] at hstays
  obtain ⟨x, hx, hsends⟩ := happroached.sendsMasked hs hwords hsince
  rw [List.length_append, driveScript_length, Nat.sub_add_cancel (legal_cSync hs.legal)] at hsends
  refine ⟨x, ?_, hsends⟩
  rw [maskedIf, if_pos rfl, hu, andThen_on, hv, andThen_on, hx]

theorem clear_sendsMasked (hu : uniform s = true) :
    ∃ t, exec .clear s = .next t ∧
      SendsMasked s t (s.cfg.cDrive + s.cfg.tRst + s.cfg.cSync) (List.replicate s.segcount.toNat 0#24) := by
  have hbegin : Undisturbed (s.begin .clear 0#24).loadSegments := ⟨hs.legal, hs.calm, hs.ends⟩
  obtain ⟨t, ht, hlow, hkept⟩ := ((lowStable (s.begin .clear 0#24).loadSegments).resetSignal (low_refl _) (by simp [Phase.live])
    (by simp [Phase.live])).of_calm hbegin.calm hbegin.ends
  rw [List.nil_append] at hlow
  have hcfg : t.cfg = s.cfg := hkept.cfg
  obtain ⟨x, hx, hsends⟩ := maskedSection_sends hbegin (ws := List.replicate s.segcount.toNat 0#24)
    (body := clearWords s.segcount.toNat) (unraised_resetScript _) hlow
    (fun u hcalm hc => by
      obtain ⟨v, os, hv, hwords, -⟩ := clearWords_completes hcalm s.segcount.toNat
      rw [hc] at hwords
      exact ⟨v, os, hv, hwords.toCourse⟩)
    fun _ => clearWords_staysMasked _
  refine ⟨x.restoreIe.finish, ?_, ?_⟩
  · change (clear s).outcome = _
    rw [clear, ht, andThen_on, uniform_of_cfg hcfg, hu, hx, andThen_on]
    rfl
  · rw [loadSegments_cfg, begin_cfg, resetScript_length (legal_cDrive hs.legal), Params.resetCycles] at hsends
    exact SendsMasked.of_begin hsends

theorem send_sendsMasked (hu : uniform s = true) (w : ColorWord) :
    ∃ t, exec (.send w) s = .next t ∧ SendsMasked s t s.cfg.cSync [w] := by
  have hbegin : Undisturbed (s.begin .send w) := ⟨hs.legal, hs.calm, hs.ends⟩
  obtain ⟨x, hx, hsends⟩ := maskedSection_sends hbegin (ws := [w]) (body := transmit w) (l := []) (by simp [Script.unraised])
    (low_refl _)
    (fun u hcalm hc => by
      obtain ⟨v, os, hv, hwords, -⟩ := transmit_completes hcalm w
      rw [hc] at hwords
      refine ⟨v, os, hv, ?_⟩
      rw [wordsScript, List.flatMap_singleton]
      exact hwords.toCourse)
    fun _ => transmit_staysMasked w
  refine ⟨x.restoreIe.finish, ?_, ?_⟩
  · change (send w s).outcome = _
    rw [send, hu, hx, andThen_on]
    rfl
  · rw [List.length_nil, Nat.zero_add] at hsends
    exact SendsMasked.of_begin hsends

end

end Sys2Proof.Machine

section
open Sys2Proof.Machine

/-- Settles O53: RESET and IRQMASK set nothing, however long the stalls make them, and from the end of IRQMASK on no cycle is stalled. -/
theorem uniformWordsAreExact : Obligations.UniformWordsAreExact := by
  unfold Obligations.UniformWordsAreExact
  intro s hlegal hcalm hends hpolicy
  have hs : Undisturbed s := ⟨hlegal, hcalm, hends⟩
  have hu : uniform s = true := (uniform_iff s).mpr hpolicy
  exact ⟨clear_sendsMasked hs hu, send_sendsMasked hs hu⟩

end
end

section
/-! The two outcomes of a step (60_exceptions.md R118, 93_implementation_defined.md U1): the one refusal of a clock cycle is that of a
second writer, and where nobody else writes PORT no instruction is refused. -/

namespace Sys2Proof.Machine

theorem clock_refuses_only_secondWriter (s : State) : Answers (fun _ => True) (· = .secondWriter) (clock s) := by
  rcases clock_cases s with ⟨-, h⟩ | ⟨-, -, h⟩ | ⟨-, -, -, h⟩ | ⟨-, -, -, h⟩ <;> rw [h]
  · exact rfl
  all_goals trivial

theorem next_or_refused_of_answers {X : Refusal → Prop} {o : Host.Outcome State Fault Refusal} (h : Answers (fun _ => True) X o) :
    (∃ t, o = .next t) ∨ ∃ r, o = .refused r ∧ X r := by
  cases o with
  | next t => exact .inl ⟨t, rfl⟩
  | fault f => cases f
  | refused r => exact .inr ⟨r, rfl, h⟩

theorem clock_next {s : State} (hs : secondWriter s = false) : ∃ t, clock s = .next t := by
  rcases clock_cases s with ⟨hw, -⟩ | ⟨-, -, h⟩ | ⟨-, -, -, h⟩ | ⟨-, -, -, h⟩
  · rw [hs] at hw
    cases hw
  all_goals exact ⟨_, h⟩

theorem Run.Coupled.next {R : State → State → Prop} {r r' : Run} (h : r.Coupled R r') : ∃ t, r.outcome = .next t := by
  cases h with
  | completed _ => exact ⟨_, rfl⟩
  | cut _ => exact ⟨_, rfl⟩

/-- A run on a PORT nobody else writes is in lockstep with itself, and a run in lockstep with another is not refused. -/
theorem exec_next (i : Instr) {s : State} (hs : undriven s.pins = true) : ∃ t, exec i s = .next t := by
  have h : Alike s s s s := .refl rfl hs
  cases i with
  | construct p g => exact (h.construct p g).next
  | clear => exact h.clear.next
  | send w => exact (h.send w).next
  | sendPattern n => exact (h.sendPattern n).next
  | reserved op => exact ⟨s, rfl⟩
  | pinSel p => exact ⟨s.selectPin p, rfl⟩
  | driveHigh => exact h.driveHigh.next
  | driveLow => exact (h.driveLow .bitFall).next
  | hold n => exact (h.waitPhase s.phase.holdAfter n).next
  | encodeBit1 => exact (h.encodeBit true).next
  | encodeBit0 => exact (h.encodeBit false).next
  | transmit w => exact (h.transmit w).next
  | reset => exact h.resetSignal.next
  | irqMask => exact h.irqMask.next
  | irqRestore => exact h.irqRestore.next

theorem acceptCycle_undriven {s : State} (hs : undriven s.pins = true) : undriven s.acceptCycle.pins = true := by
  rw [State.acceptCycle, advanceCycle_pins, ← List.drop_one]
  exact undriven_drop 1 hs

theorem step_next {s : State} (hs : undriven s.pins = true) : ∃ t, step s = .next t := by
  cases ha : acceptedHeader s with
  | none =>
    rw [step_of_no_header ha]
    exact clock_next (secondWriter_of_undriven hs)
  | some cw =>
    rw [step_of_header ha]
    exact exec_next _ (acceptCycle_undriven hs)

end Sys2Proof.Machine

section
open Sys2Proof.Machine

/-- Settles O18: what every clock cycle can answer, every step can, a run of such cycles; and where nobody else writes PORT neither the
cycle of acceptance nor the command after it meets a second writer. -/
theorem stepNeverFaults : Obligations.StepNeverFaults := by
  unfold Obligations.StepNeverFaults
  refine ⟨fun s => ?_, fun s hs => step_next hs⟩
  obtain hnext | ⟨r, hr, rfl⟩ := next_or_refused_of_answers (step_answers (fun u _ => clock_refuses_only_secondWriter u) (s := s) trivial)
  · exact .inl hnext
  · exact .inr hr

end
end

section
/-! What a run of steps keeps, and what the invariant says at the end of a run (70_reset_and_hazards.md R146). -/

namespace Sys2Proof.Machine

theorem core_run_refused {s : State} {r : Refusal} (h : step s = .refused r) (n : Nat) :
    Host.Core.run Sys2Proof.core (n + 1) s = .refused r := by
  have hr (M : Host.Core) (x : M.State) (q : M.Refusal) (hx : M.step x = .refused q) : M.run (n + 1) x = .refused q := by
    rw [Host.Core.run, hx]
  exact hr Sys2Proof.core s r h

/-- What every step keeps, a run of steps keeps. -/
theorem core_run_keeps {I : State → Prop} (h : ∀ s t, I s → step s = .next t → I t) (k : Nat) {s t : State} (hs : I s)
    (ht : Host.Core.run Sys2Proof.core k s = .next t) : I t := by
  induction k generalizing s with
  | zero => cases ht; exact hs
  | succ k ih =>
    cases hstep : step s with
    | next u => exact ih (h s u hs hstep) (by rwa [core_run_next hstep] at ht)
    | fault f => cases f
    | refused r => cases (core_run_refused hstep k).symm.trans ht

section
variable {s : State}

/-- Between two commands no counter counts (10_state.md R24, R25). -/
theorem Inv.spent_of_idle (h : Inv s) (hidle : s.phase = .idle) : s.cmd = .none ∧ Spent s := by
  have hcmd : s.cmd = .none := by simpa [hidle, phaseFits] using h.position
  have hcounts := h.counts
  rw [countsFit, hcmd] at hcounts
  exact ⟨hcmd, hcounts⟩

/-- An enabled line that must be low is low, and PINMASK is its bit. -/
theorem Inv.line_low (h : Inv s) (hlow : s.phase.mayBeHigh = false) (henabled : disabled s = false) :
    s.pinmask = maskOfPin s.cfg.portWidth s.pin ∧ lineNow s = some false := by
  have hne : s.pinmask ≠ 0#256 := by simpa [disabled] using henabled
  have hmask := h.mask.resolve_left hne
  have hvalid : pinValid s.cfg.portWidth s.pin = true := by
    rw [hmask, ne_eq, maskOfPin_eq_zero_iff, Bool.not_eq_false] at hne
    exact hne
  have hbit : s.pinmask.getLsbD s.pin.toNat = true := by
    rw [hmask, maskOfPin_getLsbD]
    simpa using (pinValid_iff _ _).mp hvalid
  have hport := congrArg (·.getLsbD s.pin.toNat) (h.low hlow)
  exact ⟨hmask, by simpa [lineNow, henabled, hbit] using hport⟩

end

end Sys2Proof.Machine

section
open Sys2Proof.Machine

/-- Settles O52: every step keeps the invariant, and an idle state that has it is as R146 says. -/
theorem endOfARun : Obligations.EndOfARun := by
  unfold Obligations.EndOfARun
  rintro k s t hs ht ⟨-, hidle⟩
  have hinv : Inv t := core_run_keeps everyStepKeepsTheInvariant.1 k hs ht
  obtain ⟨hcmd, hwcnt, hfcnt, hvalid⟩ := hinv.spent_of_idle hidle
  exact ⟨hwcnt, hfcnt, hvalid, hcmd, hinv.line_low (by rw [hidle]; rfl)⟩

/-- Settles O9: each cost is evaluated at the values of P-REF. -/
theorem pRefCosts : Obligations.PRefCosts := by
  unfold Obligations.PRefCosts
  decide

/-- Settles O11: a cycle with `rst` = 1 accepts no header, so the step is the clock cycle, which is a reset cycle whatever else the inputs
and the block do. -/
theorem hardwareResetFromAnyState : Obligations.HardwareResetFromAnyState := by
  unfold Obligations.HardwareResetFromAnyState
  intro s hrst hwriter
  have hstep : step s = .next s.resetCycle := by
    rw [step_of_no_header (by simp [acceptedHeader, hrst])]
    simp [clock, tick, hwriter, hrst]
  refine ⟨s.resetCycle, hstep, rfl, rfl, rfl, rfl, rfl, rfl, rfl, rfl, rfl, rfl, rfl, rfl, rfl, rfl, rfl, fun j hj => ?_,
    resetOutputs s, rfl, rfl, rfl, rfl, rfl, rfl, rfl⟩
  exact (BitHeld.refl hj).resetCycle.now

end
end

section
/-! SENDPATTERN in FETCH with no word to come (45_strip_controller.md R96, 70_reset_and_hazards.md R137). -/

namespace Sys2Proof.Machine

/-- The block waits in FETCH, masked, for a payload word of a stream that holds none, and no hardware reset is to come. -/
structure Starved (s : State) : Prop where
  phase : s.phase = .fetch
  cmd : s.cmd = .sendPattern
  ie : s.ie = false
  host : s.host = []
  calm : calm s.pinmask s.pins = true

section
variable {s : State}

/-- The step is one advancing cycle, which pulses and accepts nothing. -/
theorem Starved.step_eq (h : Starved s) : step s = .next (s.advanceCycle 0#256 0#256) := by
  have hset : pulseSet s = 0#256 := by simp [pulseSet, h.phase]
  have hclr : pulseClr s = 0#256 := by simp [pulseClr, h.phase]
  rw [step_of_no_header (acceptedHeader_of_busy (by simp [h.phase]))]
  simp only [clock, tick, hset, hclr, secondWriter_of_calm h.calm, rst_of_noReset (noReset_of_calm h.calm),
    advances_of_masked s h.ie, sequence_fetch h.phase]
  rfl

theorem Starved.advanceCycle (h : Starved s) : Starved (s.advanceCycle 0#256 0#256) := by
  have hnone : presented s = none := by simp [presented, h.host]
  refine ⟨?_, (advanceCycle_cmd s _ _).trans h.cmd, (advanceCycle_ie_busy s _ _ (by simp [h.phase])).trans h.ie, ?_, ?_⟩
  · rw [advanceCycle_of_not_presented hnone]
    exact (hostWriteIe_phase _ _).trans h.phase
  · rw [advanceCycle_of_not_presented hnone, h.host]
    rfl
  · rw [advanceCycle_pinmask, advanceCycle_pins, ← List.drop_one]
    exact calm_drop 1 h.calm

/-- It waits for ever, and the selected bit of PORT keeps its level. -/
theorem Starved.run (n : Nat) (h : Starved s) :
    ∃ t, Host.Core.run Sys2Proof.core n s = .next t ∧ Starved t ∧ t.cycle = s.cycle + n ∧
      t.port &&& s.pinmask = s.port &&& s.pinmask := by
  induction n generalizing s with
  | zero => exact ⟨s, rfl, h, rfl, rfl⟩
  | succ n ih =>
    obtain ⟨t, hrun, ht, hcycle, hport⟩ := ih h.advanceCycle
    refine ⟨t, (core_run_next h.step_eq n).trans hrun, ht, ?_, ?_⟩
    · rw [hcycle, advanceCycle_cycle]
      omega
    · rw [advanceCycle_pinmask, advanceCycle_port, nextPort_owned (secondWriter_of_calm h.calm)] at hport
      rw [hport, BitVec.or_zero, and_not_zero]

end

end Sys2Proof.Machine

section
open Sys2Proof.Machine

/-- Settles O48: the block is starved, and it stays so in every step. -/
theorem missingPayloadHangs : Obligations.MissingPayloadHangs := by
  unfold Obligations.MissingPayloadHangs
  intro n s hphase hcmd hie hhost hcalm
  obtain ⟨t, hrun, ht, hcycle, hport⟩ := Starved.run n ⟨hphase, hcmd, hie, hhost, hcalm⟩
  exact ⟨t, hrun, ht.phase, ht.cmd, ht.ie, ht.host, busy_of_not_idle (by simp [ht.phase]), hcycle, hport⟩

end
end

section
/-! A stall that never ends and has begun (70_reset_and_hazards.md R138). -/

namespace Sys2Proof.Machine

/-- The state after `n` cycles of a stall without end. -/
def State.hangFor (n : Nat) (s : State) : State :=
  { s with
    host := waitHost^[n] s.host
    cycle := s.cycle + n
    trace := List.replicate n (outputs false 0#256 0#256 s) ++ s.trace }

theorem hangFor_succ (n : Nat) (s : State) : s.hangFor (n + 1) = (s.hangFor 1).hangFor n := by
  unfold State.hangFor
  rw [List.replicate_succ', List.append_assoc, show s.cycle + (n + 1) = s.cycle + 1 + n by omega]
  rfl

theorem run_of_hung (n : Nat) {s : State} (hs : hung s = true) : Host.Core.run Sys2Proof.core n s = .next (s.hangFor n) := by
  induction n generalizing s with
  | zero => rfl
  | succ n ih =>
    have hs' : hung (s.hangFor 1) = true := hs
    rw [hangFor_succ]
    exact (core_run_next (step_of_hung hs) n).trans (ih hs')

end Sys2Proof.Machine

section
open Sys2Proof.Machine

/-- Settles O54: each step is one more stalled cycle, and the state it leaves hangs as well. -/
theorem endlessStallHangs : Obligations.EndlessStallHangs := by
  unfold Obligations.EndlessStallHangs
  exact fun n s hs => run_of_hung n hs

end
end

section
/-! An instruction begun in a stall that never ends (70_reset_and_hazards.md R138): its first cycle never advances, so the run is cut
short there, whatever would have followed. -/

namespace Sys2Proof.Machine

/-- IE = 1 and every cycle to come is stalled, on a schedule without a hardware reset or a second writer. -/
structure StallsForEver (s : State) : Prop where
  ie : s.ie = true
  stallAfter : s.stallAfter = true
  stalled : s.pins.all (·.stall) = true
  calm : calm s.pinmask s.pins = true

/-- What is seen in a stalled cycle at IE = 1 (46_interrupt_sync.md R108). -/
def stalledOutputs (o : Obs) : Prop := o.ieOut = true ∧ o.cmdReady = false ∧ o.portSet = 0#256 ∧ o.portClr = 0#256

/-- From `s` to `u` `n` cycles have passed, all of them stalled. What the start of an instruction may write before its first cycle is left
open: PHASE, DLY, CMD, the latch, the counters, WORD and BITMASK. -/
structure StalledFor (n : Nat) (s u : State) : Prop extends SameConfiguration s u where
  ie : u.ie = true
  stallAfter : u.stallAfter = true
  ieSaved : u.ieSaved = s.ieSaved
  pins : u.pins = s.pins.drop n
  host : u.host = waitHost^[n] s.host
  cycle : u.cycle = s.cycle + n
  port : PortElsewhere 0#256 s u
  seen : ∃ os, u.trace = os ++ s.trace ∧ ∀ o ∈ os, stalledOutputs o

section
variable {n : Nat} {s u v : State}

theorem StallsForEver.refl (h : StallsForEver s) : StalledFor 0 s s where
  toSameConfiguration := .refl s
  ie := h.ie
  stallAfter := h.stallAfter
  ieSaved := rfl
  pins := rfl
  host := rfl
  cycle := rfl
  port := fun _ _ _ => rfl
  seen := ⟨[], rfl, by simp⟩

theorem StalledFor.move (h : StalledFor n s u) (hout : SameOutside u v := by exact ⟨⟨rfl, rfl, rfl, rfl⟩, rfl, rfl⟩)
    (hie : v.ie = u.ie := by rfl) (hafter : v.stallAfter = u.stallAfter := by rfl) (hsaved : v.ieSaved = u.ieSaved := by rfl)
    (hpins : v.pins = u.pins := by rfl) (hcycle : v.cycle = u.cycle := by rfl) (htrace : v.trace = u.trace := by rfl) :
    StalledFor n s v where
  toSameConfiguration := h.toSameConfiguration.trans hout.toSameConfiguration
  ie := hie.trans h.ie
  stallAfter := hafter.trans h.stallAfter
  ieSaved := hsaved.trans h.ieSaved
  pins := hpins.trans h.pins
  host := hout.host.trans h.host
  cycle := hcycle.trans h.cycle
  port := fun j hj hu => by rw [hout.port, h.port j hj hu]
  seen := htrace ▸ h.seen

theorem StalledFor.stallCycle (h : StalledFor n s u) : StalledFor (n + 1) s u.stallCycle where
  toSameConfiguration := h.toSameConfiguration.trans (KeptWord.ofStall u).toKept.sameConfiguration
  ie := h.ie
  stallAfter := h.stallAfter
  ieSaved := h.ieSaved
  pins := by rw [stallCycle_pins, h.pins, drop_tail]
  host := by rw [stallCycle_host, h.host, Function.iterate_succ_apply']
  cycle := by rw [stallCycle_cycle, h.cycle, Nat.add_assoc]
  port := fun j hj hu => by
    have huntouched : untouched j u.pins = true := by rw [h.pins]; exact untouched_drop n hu
    rw [stallCycle_port, nextPort_untouched huntouched, h.port j hj hu]
    simp
  seen := by
    obtain ⟨os, hos, hall⟩ := h.seen
    exact ⟨_ :: os, by rw [stallCycle_trace, hos]; rfl, List.forall_mem_cons.mpr ⟨⟨h.ie, rfl, rfl, rfl⟩, hall⟩⟩

/-- Past the schedule the stall is the endless one. -/
theorem StalledFor.hung (h : StalledFor (s.pins.length + 1) s u) : hung u = true := by
  simp [Sys2Proof.Machine.hung, h.ie, h.stallAfter, h.pins]

/-! ### Runs -/

/-- The run is cut short one cycle past the schedule, in a phase other than IDLE. -/
def Run.HangsFrom (s : State) (r : Run) : Prop := ∃ t, r = .over t ∧ StalledFor (s.pins.length + 1) s t ∧ t.phase ≠ .idle

theorem Run.HangsFrom.andThen {r : Run} (h : r.HangsFrom s) (f : State → Run) : (r.andThen f).HangsFrom s := by
  obtain ⟨t, rfl, ht⟩ := h
  exact ⟨t, rfl, ht⟩

theorem Run.HangsFrom.outcome {r : Run} (h : r.HangsFrom s) :
    ∃ t, r.outcome = .next t ∧ StalledFor (s.pins.length + 1) s t ∧ t.phase ≠ .idle := by
  obtain ⟨t, rfl, ht⟩ := h
  exact ⟨t, rfl, ht⟩

variable (hs : StallsForEver s)
include hs

/-- The next cycle is stalled too. -/
theorem StallsForEver.tick (h : StalledFor n s u) (a b : PortWord) : tick a b u = .stalled u.stallCycle := by
  have hcalm : Sys2Proof.Machine.calm u.pinmask u.pins = true := by
    rw [h.pinmask, h.pins]
    exact calm_drop n hs.calm
  have hstall : (nowPins u).stall = true :=
    all_nowPins (f := (·.stall)) h.stallAfter (by rw [h.pins]; exact all_drop n hs.stalled)
  have hadvances : advances u = false := by simp [advances, h.ie, hstall]
  simp [Sys2Proof.Machine.tick, secondWriter_of_calm hcalm, rst_of_noReset (noReset_of_calm hcalm), hadvances]

theorem StallsForEver.advanceWithin (a b : PortWord) (k : Nat) (h : StalledFor n s u) :
    ∃ t, advanceWithin a b k u = .over t ∧ StalledFor (n + k) s t ∧ t.phase = u.phase := by
  induction k generalizing n u with
  | zero => exact ⟨u, rfl, h, rfl⟩
  | succ k ih =>
    obtain ⟨t, ht, hstalled, hphase⟩ := ih h.stallCycle
    exact ⟨t, by rw [Sys2Proof.Machine.advanceWithin, hs.tick h]; exact ht, by rwa [Nat.add_right_comm] at hstalled, hphase⟩

variable (h : StalledFor 0 s u)
include h

theorem StallsForEver.advance (hbusy : u.phase ≠ .idle) (a b : PortWord) : (advance a b u).HangsFrom s := by
  obtain ⟨t, ht, hstalled, hphase⟩ := hs.advanceWithin a b (u.pins.length + 1) h
  have hlength : u.pins.length = s.pins.length := by rw [h.pins, List.drop_zero]
  rw [Nat.zero_add, hlength] at hstalled
  exact ⟨t, ht, hstalled, hphase ▸ hbusy⟩

theorem StallsForEver.waitCycles (hbusy : u.phase ≠ .idle) {k : Nat} (hk : k ≠ 0) : (waitCycles k u).HangsFrom s := by
  obtain ⟨k, rfl⟩ := Nat.exists_eq_succ_of_ne_zero hk
  exact (hs.advance h hbusy _ _).andThen _

theorem StallsForEver.waitPhase {ph : Phase} (hph : ph ≠ .idle) {k : Nat} (hk : k ≠ 0) : (waitPhase ph k u).HangsFrom s := by
  rw [Sys2Proof.Machine.waitPhase, if_neg hk]
  exact hs.waitCycles h.move hph hk

/-- Whether its pulse is to come in the first cycle or later. -/
theorem StallsForEver.operate {ph : Phase} (hph : ph ≠ .idle) (k : Nat) (a b : PortWord) (write : State → State) :
    (operate ph k a b write u).HangsFrom s := by
  have henter : StalledFor 0 s (u.enter ph k) := h.move
  by_cases hk : k - 1 = 0
  · rw [Sys2Proof.Machine.operate, hk]
    exact (hs.advance henter hph a b).andThen _
  · exact (hs.waitCycles henter hph hk).andThen _

theorem StallsForEver.driveHigh : (driveHigh u).HangsFrom s := hs.operate h (by decide) _ _ _ _

theorem StallsForEver.driveLow {ph : Phase} (hph : ph ≠ .idle) : (driveLow ph u).HangsFrom s := hs.operate h hph _ _ _ _

theorem StallsForEver.encodeBit (v : Bool) : (if v then encodeBit1 u else encodeBit0 u).HangsFrom s := by
  rw [encodeBit_eq]
  exact (hs.driveHigh h).andThen _

theorem StallsForEver.transmit (w : ColorWord) : (transmit w u).HangsFrom s :=
  (hs.encodeBit h.move (u.loadWord w).bitValue).andThen _

theorem StallsForEver.resetSignal : (resetSignal u).HangsFrom s := (hs.driveLow h (by decide)).andThen _

theorem StallsForEver.irqMask : (irqMask u).HangsFrom s := hs.operate h (by decide) _ _ _ _

theorem StallsForEver.irqRestore : (irqRestore u).HangsFrom s := hs.operate h (by decide) _ _ _ _

/-- A masked section hangs in its IRQMASK, an unmasked one where its body does. -/
theorem StallsForEver.maskedIf (masked : Bool) {body : State → Run} (hbody : (body u).HangsFrom s) :
    (maskedIf masked body u).HangsFrom s := by
  cases masked with
  | false => exact hbody
  | true => exact (hs.irqMask h).andThen _

/-! ### The commands -/

theorem StallsForEver.construct (p : PinIndex) (g : SegCount) : (construct p g u).HangsFrom s :=
  (hs.operate h.move (by decide) _ _ _ _).andThen _

theorem StallsForEver.clear : (clear u).HangsFrom s := (hs.resetSignal h.move).andThen _

theorem StallsForEver.send (w : ColorWord) : (send w u).HangsFrom s :=
  (hs.maskedIf h.move _ (hs.transmit h.move w)).andThen _

theorem StallsForEver.sendPattern (n : WordCount) : (sendPattern n u).HangsFrom s :=
  ((hs.irqMask h.move).andThen _).andThen _

end

/-- Every instruction that takes time begins with a cycle that has to advance. -/
theorem exec_hangs {i : Instr} (htime : takesTime i = true) {s : State} (hs : StallsForEver s) :
    ∃ t, exec i s = .next t ∧ StalledFor (s.pins.length + 1) s t ∧ t.phase ≠ .idle := by
  have h := hs.refl
  cases i with
  | construct p g => exact (hs.construct h p g).outcome
  | clear => exact (hs.clear h).outcome
  | send w => exact (hs.send h w).outcome
  | sendPattern n => exact (hs.sendPattern h n).outcome
  | reserved op => cases htime
  | pinSel p => cases htime
  | driveHigh => exact (hs.driveHigh h).outcome
  | driveLow => exact (hs.driveLow h (by decide)).outcome
  | hold n =>
    have hn : n ≠ 0 := by simpa [takesTime] using htime
    exact (hs.waitPhase h (live_holdAfter s.phase).1 hn).outcome
  | encodeBit1 => exact (hs.encodeBit h true).outcome
  | encodeBit0 => exact (hs.encodeBit h false).outcome
  | transmit w => exact (hs.transmit h w).outcome
  | reset => exact (hs.resetSignal h).outcome
  | irqMask => exact (hs.irqMask h).outcome
  | irqRestore => exact (hs.irqRestore h).outcome

end Sys2Proof.Machine

section
open Sys2Proof.Machine

/-- Settles O55: the instruction hangs in its first cycle, and nothing but stalled cycles has passed since it began. -/
theorem endlessStallCutsShort : Obligations.EndlessStallCutsShort := by
  unfold Obligations.EndlessStallCutsShort
  intro i s htime hie hafter hstalled hcalm
  obtain ⟨t, ht, hsince, hbusy⟩ := exec_hangs htime ⟨hie, hafter, hstalled, hcalm⟩
  obtain ⟨os, hos, hseen⟩ := hsince.seen
  refine ⟨t, ht, hsince.hung, hbusy, hsince.cycle, hsince.ieSaved, hsince.toSameConfiguration, ⟨_, hsince.host⟩, hsince.port, ?_⟩
  rw [passed_of_trace hos]
  exact fun o ho => hseen o (List.mem_reverse.mp ho)

end
end
